-- ==== Sys2Proof/Word.lean ====
section
/-!
DEFINITION. The word types of the CICTI filter chain (spec/00_scope.md rule R7, spec/30_encoding.md rules R70 to R73, R80).

A type here says only how many bits a thing has. How a pattern is read as a number is said where it is read: `BitVec.toInt`
is the spec's `sext_N` and `BitVec.toNat` its `zext_N` (rule R8).
-/

namespace Sys2Proof

/-- A command word (rule R80): 32 bits, bit 31 the most significant. -/
abbrev Word := BitVec 32

/-- A packed PDM word (rule R73): 32 one-bit samples, bit 31 the earliest. -/
abbrev Pdm := BitVec 32

/-- One 16-bit half of a packed PDM word (rule R73). -/
abbrev Half := BitVec 16

/-- A cell of a state buffer (spec/10_state.md section 1): "all cells 32 bits wide". -/
abbrev Cell := BitVec 32

/-- An audio sample, S18Q16 in a 32-bit cell (rule R70). Every 32-bit pattern is legal. -/
abbrev Sample := BitVec 32

/-- A final PCM sample, S16Q15 in a 16-bit cell (rule R72). -/
abbrev Pcm := BitVec 16

/-- A delay buffer with the stored index in cell 0 (rules R75, R78). -/
abbrev Buffer := List Cell

end Sys2Proof
end

