-- ==== Sys2Proof/Config.lean ====
section
/-!
DEFINITION. The configuration record of the block (spec/00_scope.md rule R4, spec/10_state.md rules R34 and R35).

The values are the spec's open parameters: no source gives them, the host chooses them at the start of a run, and no command
writes them. The record is raw: it can also hold a configuration that rule R5 calls not well formed
(`Config.wellFormed`, in Machine/Ops.lean, is that rule), so that the refusal `U_CONFIG` can be said and met.
-/

namespace Sys2Proof

/-- The five coefficients of one second-order section (rules R4, R77), by name. -/
structure Biquad where
  /-- feed-forward coefficient of `x(n)` or `d(n)` -/
  b0 : Int
  /-- feed-forward coefficient of the one-sample-old value -/
  b1 : Int
  /-- feed-forward coefficient of the two-samples-old value -/
  b2 : Int
  /-- feedback coefficient of the one-sample-old value -/
  a1 : Int
  /-- feedback coefficient of the two-samples-old value -/
  a2 : Int
  deriving DecidableEq, Repr, Inhabited

/-- Whether the chain uses the IIR unit, and in which realization (rules R4, R213). -/
inductive IirMode where
  /-- the FIR stage 2 output goes to the gain stage unchanged -/
  | bypass
  /-- Direct Form I -/
  | df1
  /-- Direct Form II -/
  | df2
  deriving DecidableEq, Repr, Inhabited

/-- The configuration constants of rule R4, each under its own name. Numbers are the stored integers (rule R7). -/
structure Config where
  /-- `NC1`, `numCoefs` of FIR stage 1 -/
  nc1 : Nat
  /-- `NC2`, `numCoefs` of FIR stage 2 -/
  nc2 : Nat
  /-- `H1`, the coefficient table of FIR stage 1, S16Q15 -/
  h1 : List Int
  /-- `H2`, the coefficient table of FIR stage 2, S16Q15 -/
  h2 : List Int
  /-- `NB`, `numBiquads` -/
  nb : Nat
  /-- `COEF`, the sections in cascade order -/
  coef : List Biquad
  /-- `COEF_IWL`, the extra integer bits of the IIR coefficients -/
  coefIwl : Nat
  /-- `IIR_G`, the input gain of the IIR stage, U16Q16 -/
  iirGain : Nat
  /-- `DIG_GAIN`, the digital gain of the final stage, U16Q8 -/
  digGain : Nat
  /-- `IIR_MODE` -/
  iirMode : IirMode
  /-- `IN_FRAME_LEN_PER_CH`: named by the source, read by no rule (spec/92_eei_decisions.md D34) -/
  inFrameLenPerCh : Nat
  /-- `OUT_PACKING`: the spec gives it no set of values, and no rule reads it (D25); a bare code -/
  outPacking : Nat
  deriving DecidableEq, Repr, Inhabited

/-- `DIGGAIN_OUT_FRAME_LEN`, derived from `IN_FRAME_LEN_PER_CH` (rule R4). Read by no rule. -/
def Config.digGainOutFrameLen (c : Config) : Nat := c.inFrameLenPerCh / 2

/-- `CIC_DF`, the decimation factor of the CIC (rule R4). -/
abbrev cicDf : Nat := 16

/-- Configuration T of spec/95_test_vectors.md ("deployment shape, values chosen by this file, not by any source").
DESIGN CHOICE (unsafe, notes/assumptions/1.md): the values are open in the spec; these stand in `State.reset` so that the
machine can run from reset, and every statement about reset is made for every well-formed configuration.
`IN_FRAME_LEN_PER_CH` and `OUT_PACKING`, which configuration T does not give and no rule reads, are 0. -/
def Config.vectorT : Config where
  nc1 := 16
  nc2 := 58
  h1 := [4000, 3750, 3500, 3250, 3000, 2750, 2500, 2250, 2000, 1750, 1500, 1250, 1000, 750, 500, 0]
  h2 := [1100, 1082, 1064, 1046, 1028, 1010, 992, 974, 956, 938, 920, 902, 884, 866, 848, 830, 812, 794, 776, 758] ++
    [740, 722, 704, 686, 668, 650, 632, 614, 596, 578, 560, 542, 524, 506, 488, 470, 452, 434, 416, 398] ++
    [380, 362, 344, 326, 308, 290, 272, 254, 236, 218, 200, 182, 164, 146, 128, 110, 92, 74]
  nb := 1
  coef := [{ b0 := 8192, b1 := 4096, b2 := 2048, a1 := -8192, a2 := 4096 }]
  coefIwl := 1
  iirGain := 0x8000
  digGain := 0x0180
  iirMode := .df2
  inFrameLenPerCh := 0
  outPacking := 0

end Sys2Proof
end

