-- ==== Sys2Proof/Syntax.lean ====
section
/-!
DEFINITION. The commands of the block as syntax: one constructor of `Instr` per row of spec/opcode_table.json
(spec/30_encoding.md rules R80 and R81).

The data operands of a command (rule R82) are no part of its word. They are handed over beside it: `Operands` and `Command`
below, which Machine/State.lean's host side holds.
-/

namespace Sys2Proof

/-- The lane select `ch` (rule R80): 0 is the left lane, 1 the right (rule R21). -/
inductive Chan where
  | L
  | R
  deriving DecidableEq, Repr

/-- The FIR stage select `st` (rule R80): field value 0 is stage 1, 1 is stage 2. -/
inductive Stage where
  | one
  | two
  deriving DecidableEq, Repr

/-- The eight commands (rule R81). `len` is the word's count field; `Instr.wellFormed` keeps it in its 16 bits. -/
inductive Instr where
  /-- `NOP` (spec/44_pipeline.md rule R210) -/
  | nop
  /-- `CIC len` (spec/40_cic.md rule R104) -/
  | cic (len : Nat)
  /-- `FIR st, ch, len` (spec/41_fir.md rule R140) -/
  | fir (st : Stage) (ch : Chan) (len : Nat)
  /-- `IIR1 ch, len` (spec/42_iir.md rule R186) -/
  | iir1 (ch : Chan) (len : Nat)
  /-- `IIR2 ch, len` (spec/42_iir.md rule R176) -/
  | iir2 (ch : Chan) (len : Nat)
  /-- `GAIN len` (spec/43_gain.md rule R202) -/
  | gain (len : Nat)
  /-- `FRAME len` (spec/44_pipeline.md rule R212) -/
  | frame (len : Nat)
  /-- `RESET` (spec/44_pipeline.md rule R214) -/
  | reset
  deriving DecidableEq, Repr

/-- The input sequences handed over with a command word (rule R82). -/
inductive Operands where
  /-- none: `NOP`, `RESET` -/
  | none
  /-- `inL`, `inR`: packed PDM words, for `CIC` and `FRAME` -/
  | pdm (inL inR : List Pdm)
  /-- `x`: 32-bit samples, for `FIR`, `IIR1`, `IIR2` and `GAIN` -/
  | samples (x : List Sample)
  deriving DecidableEq, Repr

/-- One command as the host sends it: a word followed by its data operands (rule R80). -/
structure Command where
  word : Word
  data : Operands
  deriving DecidableEq, Repr

/-- The output sequences a command returns (rule R82). `NOP` and `RESET` return none. -/
inductive Output where
  /-- `outL`, `outR` of `CIC` -/
  | cic (outL outR : List Sample)
  /-- `y` of `FIR`, `IIR1` and `IIR2` -/
  | samples (y : List Sample)
  /-- `pcm` of `GAIN` -/
  | pcm (y : List Pcm)
  /-- `pcmL`, `pcmR` of `FRAME` -/
  | frame (pcmL pcmR : List Pcm)
  deriving DecidableEq, Repr

end Sys2Proof
end

