-- ==== Sys2Proof/WellFormed.lean ====
section
/-!
DEFINITION. Which terms of `Instr` are commands of the spec: the count field has 16 bits (spec/30_encoding.md rule R80,
"unsigned 16-bit count", and rule R86, `0 .. 65535`). An odd count is no matter of form: such a word decodes and its command
is then `undefined U_ODDLEN` (rule R84).
-/

namespace Sys2Proof

/-- The count fits its field (rule R80). -/
def lenFits (len : Nat) : Bool := decide (len < 65536)

/-- A term of `Instr` is a command of rule R81. -/
def Instr.wellFormed : Instr → Bool
  | .nop => true
  | .cic len => lenFits len
  | .fir _ _ len => lenFits len
  | .iir1 _ len => lenFits len
  | .iir2 _ len => lenFits len
  | .gain len => lenFits len
  | .frame len => lenFits len
  | .reset => true

end Sys2Proof
end

