-- ==== Sys2Proof/Decode.lean ====
section
/-!
DEFINITION. The command word (spec/30_encoding.md part 2): its fields (rule R80), the decoder (rules R81, R83, R84), the
encoder, the opcode map's mask and match (rule R81), and the assembler line of a command (rule R86).

The block has no byte-addressed memory and no byte order (rules R50, R54), so the decoder takes the whole 32-bit word. All
commands have one length (rule R85).
-/

namespace Sys2Proof

/-- Why a word is reserved (rule R83). -/
inductive Reserved where
  /-- `op` in `0x8 .. 0xF` -/
  | opcode
  /-- a non-zero bit in a field marked zero (bits 27:26 or 23:16) -/
  | zeroField
  /-- `st = 1` outside `FIR` -/
  | stage
  /-- `ch = 1` outside `FIR`, `IIR1`, `IIR2` -/
  | channel
  /-- non-zero `len` in `NOP` or `RESET` -/
  | count
  deriving DecidableEq, Repr

/-- `w[lo + n - 1 : lo]`, the unsigned value of a field (spec/00_scope.md, notation after rule R7). -/
def field (w : Word) (lo n : Nat) : Nat := w.toNat / 2 ^ lo % 2 ^ n

/-- Field `op`, bits 31:28. -/
def opField (w : Word) : Nat := field w 28 4
/-- Field `st`, bit 25. -/
def stField (w : Word) : Nat := field w 25 1
/-- Field `ch`, bit 24. -/
def chField (w : Word) : Nat := field w 24 1
/-- Field `len`, bits 15:0 (`zext_16`). -/
def lenField (w : Word) : Nat := field w 0 16
/-- The bits marked zero, 27:26 and 23:16, are 0. -/
def zerosClear (w : Word) : Bool := field w 26 2 == 0 && field w 16 8 == 0

/-- The stage a field value selects: 0 is stage 1, 1 is stage 2. -/
def stageOf (n : Nat) : Stage := if n = 0 then .one else .two
/-- The lane a field value selects: 0 is `L`, 1 is `R`. -/
def chanOf (n : Nat) : Chan := if n = 0 then .L else .R

/-- A row of rule R81 with neither a stage nor a lane: `st` and `ch` must be 0. -/
def decodePlain (w : Word) (i : Instr) : Except Reserved Instr :=
  if stField w ≠ 0 then .error .stage else if chField w ≠ 0 then .error .channel else .ok i

/-- A row with no operand at all: `len` must be 0 too. -/
def decodeBare (w : Word) (i : Instr) : Except Reserved Instr :=
  if lenField w ≠ 0 then .error .count else decodePlain w i

/-- A row with a lane and no stage: `st` must be 0. -/
def decodeLaned (w : Word) (i : Instr) : Except Reserved Instr :=
  if stField w ≠ 0 then .error .stage else .ok i

/-- The decoder: total on any word, and a reserved word is rejected by name (rules R81, R83). -/
def decode (w : Word) : Except Reserved Instr :=
  if zerosClear w then
    match opField w with
    | 0 => decodeBare w .nop
    | 1 => decodePlain w (.cic (lenField w))
    | 2 => .ok (.fir (stageOf (stField w)) (chanOf (chField w)) (lenField w))
    | 3 => decodeLaned w (.iir1 (chanOf (chField w)) (lenField w))
    | 4 => decodeLaned w (.iir2 (chanOf (chField w)) (lenField w))
    | 5 => decodePlain w (.gain (lenField w))
    | 6 => decodePlain w (.frame (lenField w))
    | 7 => decodeBare w .reset
    | _ => .error .opcode
  else if opField w < 8 then .error .zeroField else .error .opcode

/-- The value of field `st` for a stage. -/
def Stage.code : Stage → Nat
  | .one => 0
  | .two => 1

/-- The value of field `ch` for a lane. -/
def Chan.code : Chan → Nat
  | .L => 0
  | .R => 1

/-- The word with the given fields, the zero fields 0 (rule R80). -/
def packFields (op st ch len : Nat) : Word :=
  BitVec.ofNat 32 (op * 2 ^ 28 + st * 2 ^ 25 + ch * 2 ^ 24 + len)

/-- The encoder: the word of a well-formed command (rules R80, R81). -/
def encode : Instr → Word
  | .nop => packFields 0 0 0 0
  | .cic len => packFields 1 0 0 len
  | .fir st ch len => packFields 2 st.code ch.code len
  | .iir1 ch len => packFields 3 0 ch.code len
  | .iir2 ch len => packFields 4 0 ch.code len
  | .gain len => packFields 5 0 0 len
  | .frame len => packFields 6 0 0 len
  | .reset => packFields 7 0 0 0

/-- Column `match` of rule R81's table, for the row of a command. -/
def rowMatch : Instr → Word
  | .nop => 0x00000000
  | .cic _ => 0x10000000
  | .fir _ _ _ => 0x20000000
  | .iir1 _ _ => 0x30000000
  | .iir2 _ _ => 0x40000000
  | .gain _ => 0x50000000
  | .frame _ => 0x60000000
  | .reset => 0x70000000

/-- Column `mask` of rule R81's table, for the row of a command. -/
def rowMask : Instr → Word
  | .nop => 0xFFFFFFFF
  | .cic _ => 0xFFFF0000
  | .fir _ _ _ => 0xFCFF0000
  | .iir1 _ _ => 0xFEFF0000
  | .iir2 _ _ => 0xFEFF0000
  | .gain _ => 0xFFFF0000
  | .frame _ => 0xFFFF0000
  | .reset => 0xFFFFFFFF

/-- One command for each row of rule R81's table, in its order; the operands are of no account to the row. -/
def rows : List Instr :=
  [.nop, .cic 0, .fir .one .L 0, .iir1 .L 0, .iir2 .L 0, .gain 0, .frame 0, .reset]

/-- Word `w` selects the row of command `i`: `w AND mask = match` (rule R81). -/
def selectsRow (w : Word) (i : Instr) : Bool := w &&& rowMask i == rowMatch i

/-- The instruction the decoder reads from an instruction word whose `nbits` bits are `w`, numbered as
spec/opcode_table.json numbers them; the bits above are 0. No command is longer than one word (rule R85). -/
def decodeTableWord (nbits w : Nat) : Option Instr :=
  if w % 2 ^ nbits < 2 ^ 32 then
    match decode (BitVec.ofNat 32 (w % 2 ^ nbits)) with
    | .ok i => some i
    | .error _ => none
  else none

/-- How rule R86 writes a stage. -/
def Stage.text : Stage → String
  | .one => "1"
  | .two => "2"

/-- How rule R86 writes a lane. -/
def Chan.text : Chan → String
  | .L => "L"
  | .R => "R"

/-- The assembler line of a command: `MNEMONIC operands`, separated by commas (rule R86). -/
def asmLine : Instr → String
  | .nop => "NOP"
  | .cic len => "CIC " ++ toString len
  | .fir st ch len => "FIR " ++ st.text ++ ", " ++ ch.text ++ ", " ++ toString len
  | .iir1 ch len => "IIR1 " ++ ch.text ++ ", " ++ toString len
  | .iir2 ch len => "IIR2 " ++ ch.text ++ ", " ++ toString len
  | .gain len => "GAIN " ++ toString len
  | .frame len => "FRAME " ++ toString len
  | .reset => "RESET"

end Sys2Proof
end

