-- ==== Sys2Proof/Machine/State.lean ====
section
/-!
DEFINITION. The state of the machine (spec/10_state.md), its reset value, and the reasons a step can stop
(spec/60_exceptions.md rule R233).

The block's own state is the two `Lane`s. `config` holds the configuration constants, which no command writes (rule R34);
`pending`, `operands` and `outputs` are the host's side of the command interface (rules R37, R52, R82): the model's own
fields, held here because a step is a function of the state alone (notes/assumptions/2.md).
-/

namespace Sys2Proof.Machine

/-- The undefined conditions that end a command in a fault (rule R233, spec/92_eei_decisions.md D31). A fault ends the
run: the spec gives the command no outputs and no resulting state, and a faulted run stays faulted (rule R234). All are
safe: nothing is said of what the hardware does. -/
inductive Fault where
  /-- `U_ODDLEN`: `FIR` or `FRAME` with odd `len`; raised by `firCommand` and `execFrame`. Safe. -/
  | oddLen
  /-- `U_IDX`: a stored index outside `0 .. numSlots` at command start; raised by `startIndex`. Safe; no run reaches it. -/
  | idx
  /-- `U_ACC40`: the wide accumulator leaves `-2^39 .. 2^39-1`; raised by `acc40`. Safe. -/
  | acc40
  /-- `U_STORE32`: a result leaves its 32-bit cell; raised by `store32`. Safe. -/
  | store32
  deriving DecidableEq, Repr

/-- The reasons there is no meaning for what was asked (rules R83, R233). All are safe: nothing is said of what the
hardware does. -/
inductive Refusal where
  /-- An instruction without a meaning yet; raised by `exec`'s arm alone. Safe. -/
  | notModelled (mnemonic : String)
  /-- `U_CONFIG`: the configuration is not well formed (rule R5); raised by `checkConfig`, before anything else. Safe. -/
  | config
  /-- `U_RESERVED`: the command word matches no row (rule R83), and why; raised by `fetch`. Safe. -/
  | reserved (why : Reserved)
  /-- The data operands are not of the kind and lengths rule R82 states (outside the model by rule R64); raised by
  `takeNone`, `takePdm`, `takeSamples`. Safe. -/
  | operands
  /-- `U_RELOC`: a delay buffer has not the size its configuration gives it (rules R264, R267: "no move"); raised by
  `checkSize`. Safe; no run reaches it. -/
  | relocated
  deriving DecidableEq, Repr

/-- The CIC state of one lane (rules R22, R74): cells 0 to 3 are the integrators, cells 4 to 7 the comb delay registers. -/
structure Cic where
  /-- `CIC[c][0]`, integrator 0, which takes the input -/
  acc0 : Cell
  /-- `CIC[c][1]`, integrator 1 -/
  acc1 : Cell
  /-- `CIC[c][2]`, integrator 2 -/
  acc2 : Cell
  /-- `CIC[c][3]`, integrator 3, which the first comb stage reads -/
  acc3 : Cell
  /-- `CIC[c][4]`, comb delay register 0 -/
  dly0 : Cell
  /-- `CIC[c][5]`, comb delay register 1 -/
  dly1 : Cell
  /-- `CIC[c][6]`, comb delay register 2 -/
  dly2 : Cell
  /-- `CIC[c][7]`, comb delay register 3 -/
  dly3 : Cell
  deriving DecidableEq, Repr

/-- The cells of `CIC[c]` in order, as rule R74 numbers them. -/
def Cic.cells (c : Cic) : List Cell := [c.acc0, c.acc1, c.acc2, c.acc3, c.dly0, c.dly1, c.dly2, c.dly3]

/-- The state of one lane (rules R20, R21): every stateful unit has its own copy in each lane. -/
structure Lane where
  /-- `CIC[c]` (rule R22) -/
  cic : Cic
  /-- `FIR[1][c]`, `NC1 + 3` cells (rules R25, R75) -/
  fir1 : Buffer
  /-- `FIR[2][c]`, `NC2 + 3` cells (rules R25, R75) -/
  fir2 : Buffer
  /-- `D[c]`, the Direct Form II delay buffer, `2*NB + 1` cells (rules R29, R78) -/
  d : Buffer
  /-- `FF[c]`, the Direct Form I feed-forward buffer, `2*NB + 1` cells (rules R31, R78) -/
  ff : Buffer
  /-- `FB[c]`, the Direct Form I feedback buffer, `2*NB + 1` cells (rules R31, R78) -/
  fb : Buffer
  deriving DecidableEq, Repr

/-- The machine: the block's two lanes, its configuration, and the host's side of the command interface. -/
structure State where
  /-- the configuration constants (rules R4, R34); written by no command -/
  config : Config
  /-- lane `L` -/
  left : Lane
  /-- lane `R` -/
  right : Lane
  /-- the host's list of commands not yet issued, the next one first (rule R37); the model's own field -/
  pending : List Command
  /-- the data operands of the command now issued (rule R82); `none` between commands; the model's own field -/
  operands : Operands
  /-- the output sequences returned so far, oldest first (rule R82); the model's own field -/
  outputs : List Output
  deriving DecidableEq, Repr

/-- The eight CIC cells at reset (rule R40). -/
def Cic.zero : Cic :=
  { acc0 := 0, acc1 := 0, acc2 := 0, acc3 := 0, dly0 := 0, dly1 := 0, dly2 := 0, dly3 := 0 }

/-- A lane at reset: every cell of every buffer holds 0, the stored index included (rule R40); the sizes are those of
rules R25, R29 and R31. -/
def Lane.zero (c : Config) : Lane where
  cic := .zero
  fir1 := List.replicate (c.nc1 + 3) 0
  fir2 := List.replicate (c.nc2 + 3) 0
  d := List.replicate (2 * c.nb + 1) 0
  ff := List.replicate (2 * c.nb + 1) 0
  fb := List.replicate (2 * c.nb + 1) 0

/-- The machine right after reset under configuration `c`, which reset does not affect (rules R40, R260, R261): no command
sent, nothing returned. -/
def State.resetWith (c : Config) : State where
  config := c
  left := .zero c
  right := .zero c
  pending := []
  operands := .none
  outputs := []

/-- The machine right after reset. DESIGN CHOICE (unsafe, notes/assumptions/1.md): the configuration's values are open in
the spec, and this is its example configuration T; statements about reset are made of `State.resetWith c` for every `c`. -/
def State.reset : State := .resetWith .vectorT

end Sys2Proof.Machine
end

