-- ==== Sys2Proof/Machine/Ops.lean ====
section
/-!
DEFINITION. The named operations every unit uses: how a command ends, the arithmetic primitives (spec/00_scope.md rules R8
to R11), the well-formed configuration (rule R5), and reading and writing the cells of the state by name.

The block takes no exception (spec/60_exceptions.md rules R230, R236, R237): there is no saved state, no vector and no return,
so this file holds no such operation. Its place is taken by `Stop`, the undefined conditions of rule R233.
-/

namespace Sys2Proof.Machine

/-- How a command can stop short: by a fault or by a refusal of rule R233. -/
inductive Stop where
  | fault (f : Fault)
  | refused (r : Refusal)
  deriving DecidableEq, Repr

/-- A computation inside one command: its result, or the first condition that stops the command (rule R235). -/
abbrev Exec (α : Type) := Except Stop α

/-- The command is `undefined U_...` (rule R13). -/
def undefined {α : Type} (f : Fault) : Exec α := .error (.fault f)

/-- The command is refused (rule R233). -/
def refuse {α : Type} (r : Refusal) : Exec α := .error (.refused r)

/-- The end of a command as an outcome of the machine: one atomic transition, or no state at all (rules R58, R234). -/
def conclude : Exec State → Host.Outcome State Fault Refusal
  | .ok s => .next s
  | .error (.fault f) => .fault f
  | .error (.refused r) => .refused r

/-- `wrap_32(v)` (rule R9): the cell congruent to `v` modulo `2^32`. -/
def wrap32 (v : Int) : Cell := BitVec.ofInt 32 v

/-- `asr(v, s)` (rule R10): `floor(v / 2^s)`, rounding toward minus infinity. -/
def asr (v : Int) (s : Nat) : Int := v / 2 ^ s

/-- `rnd_shr(v, s)` for `s >= 1` (rule R10): the bias is added before the shift, so that ties go toward plus infinity. -/
def rndShr (v : Int) (s : Nat) : Int := asr (v + 2 ^ (s - 1)) s

/-- `sat16(v)` (rule R11). -/
def sat16 (v : Int) : Int := if v > 32767 then 32767 else if v < -32768 then -32768 else v

/-- A coefficient is in `[-32768, 32767]`. -/
def coefInRange (v : Int) : Bool := decide (-32768 ≤ v ∧ v ≤ 32767)

/-- The five coefficients of a section are in range. -/
def biquadInRange (b : Biquad) : Bool :=
  coefInRange b.b0 && coefInRange b.b1 && coefInRange b.b2 && coefInRange b.a1 && coefInRange b.a2

/-- A tap count is even and at least 2. -/
def tapCountOk (n : Nat) : Bool := n % 2 == 0 && decide (2 ≤ n)

/-- The configuration is well formed: rule R5, clause by clause. -/
def configWellFormed (c : Config) : Bool :=
  decide (tapCountOk c.nc1 ∧ tapCountOk c.nc2 ∧ c.h1.length = c.nc1 ∧ c.h2.length = c.nc2 ∧
    1 ≤ c.nb ∧ c.coef.length = c.nb ∧ c.coefIwl ≤ 14 ∧
    c.h1.all coefInRange ∧ c.h2.all coefInRange ∧ c.coef.all biquadInRange ∧
    c.iirGain ≤ 65535 ∧ c.digGain ≤ 65535)

/-- `U_CONFIG` (rules R5, R233). -/
def checkConfig (c : Config) : Exec Unit := if configWellFormed c then .ok () else refuse .config

/-- `NC` of a stage (rule R25). -/
def tapCount (c : Config) : Stage → Nat
  | .one => c.nc1
  | .two => c.nc2

/-- `H` of a stage (rule R140). -/
def taps (c : Config) : Stage → List Int
  | .one => c.h1
  | .two => c.h2

/-- The state of lane `c`. -/
def State.lane (s : State) : Chan → Lane
  | .L => s.left
  | .R => s.right

/-- Lane `c` gets the given state; the other lane is untouched (rule R21). -/
def State.setLane (s : State) (ch : Chan) (l : Lane) : State :=
  match ch with
  | .L => { s with left := l }
  | .R => { s with right := l }

/-- `FIR[st][c]` of a lane. -/
def Lane.fir (l : Lane) : Stage → Buffer
  | .one => l.fir1
  | .two => l.fir2

/-- `FIR[st][c]` of a lane is written. -/
def Lane.setFir (l : Lane) (st : Stage) (b : Buffer) : Lane :=
  match st with
  | .one => { l with fir1 := b }
  | .two => { l with fir2 := b }

/-- A command without output sequences has completed (rule R82): its operands are gone (rule R36). -/
def State.consumed (s : State) : State := { s with operands := .none }

/-- A command has completed and returns its output sequences to the host (rules R52, R82). -/
def State.answer (s : State) (o : Output) : State :=
  { s with operands := .none, outputs := s.outputs ++ [o] }

end Sys2Proof.Machine
end

