-- ==== Sys2Proof/Machine/Flags.lean ====
section
/-!
DEFINITION. The block has no flag, condition code or predicate (spec/10_state.md rule R33), so there is no flag computation to
write. What stands where another machine would set a flag are the two range checks that end a command: `acc40` and `store32`
(spec/00_scope.md rules R12 and R13). Saturation sets nothing (rule R231).
-/

namespace Sys2Proof.Machine

/-- `acc40(v)` (rule R12): the value of the wide accumulator, or `undefined U_ACC40` outside 40 bits. -/
def acc40 (v : Int) : Exec Int :=
  if -2 ^ 39 ≤ v ∧ v ≤ 2 ^ 39 - 1 then .ok v else undefined .acc40

/-- `store32(v)` (rule R13): the 32-bit cell that holds `v`, or `undefined U_STORE32` outside 32 bits. -/
def store32 (v : Int) : Exec Cell :=
  if -2 ^ 31 ≤ v ∧ v ≤ 2 ^ 31 - 1 then .ok (BitVec.ofInt 32 v) else undefined .store32

/-- The 16-bit output cell of a saturated value (spec/20_memory.md rule R56): `sat16` has put it in range. -/
def store16 (v : Int) : Pcm := BitVec.ofInt 16 (sat16 v)

end Sys2Proof.Machine
end

