-- ==== Sys2Proof/Machine/Operands.lean ====
section
/-!
DEFINITION. How a command reaches its data: the operands the host sent (spec/30_encoding.md rule R82, spec/20_memory.md rule
R63), the cells of a delay buffer (spec/10_state.md rules R26, R27, R30), the bits of a PDM word (rules R53, R73) and the
16-bit cells of a coefficient table (rules R71, R76, R77).
-/

namespace Sys2Proof.Machine

/-- The operands of `NOP` and `RESET`: none. The configuration is checked before anything else (rule R235). -/
def takeNone (s : State) : Exec Unit := do
  checkConfig s.config
  match s.operands with
  | .none => .ok ()
  | _ => refuse .operands

/-- The operands of `CIC len` and `FRAME len`: `inL` and `inR` of exactly `len` words (rules R64, R82). -/
def takePdm (len : Nat) (s : State) : Exec (List Pdm × List Pdm) := do
  checkConfig s.config
  match s.operands with
  | .pdm inL inR => if inL.length = len ∧ inR.length = len then .ok (inL, inR) else refuse .operands
  | _ => refuse .operands

/-- The operands of `FIR`, `IIR1`, `IIR2` and `GAIN`: `x` of exactly `len` samples (rules R64, R82). -/
def takeSamples (len : Nat) (s : State) : Exec (List Sample) := do
  checkConfig s.config
  match s.operands with
  | .samples x => if x.length = len then .ok x else refuse .operands
  | _ => refuse .operands

/-- Cell `j` of a buffer. Every command has checked the buffer's size first (`checkSize`), so `j` is a cell of it. -/
def cellAt (b : Buffer) (j : Nat) : Cell := b.getD j 0

/-- Cell `j` of a buffer is written. -/
def setCell (b : Buffer) (j : Nat) (v : Cell) : Buffer := b.set j v

/-- `U_RELOC` (rules R233, R264): a delay buffer has one index cell and `slots` sample cells. -/
def checkSize (slots : Nat) (b : Buffer) : Exec Unit :=
  if b.length = slots + 1 then .ok () else refuse .relocated

/-- The stored index at command start (rules R26, R140, R176): 0, the reset value, is read as 1; outside `0 .. slots` the
command is `undefined U_IDX`. -/
def startIndex (slots : Nat) (b : Buffer) : Exec Nat :=
  let p := (cellAt b 0).toInt
  if p = 0 then .ok 1 else if p < 1 ∨ p > slots then undefined .idx else .ok p.toNat

/-- The stored index is written back at command end (rule R26): it goes into a 32-bit cell. -/
def storeIndex (p : Nat) (b : Buffer) : Exec Buffer := do
  let v ← store32 p
  .ok (setCell b 0 v)

/-- `newest(k)` (rules R27, R133): the slot of the `k`-th newest stored sample is `((p - 2 - k) mod S) + 1`; `S` is added
so that the difference of naturals is exact for `k < S`. -/
def newestSlot (slots p k : Nat) : Nat := (p + slots - 2 - k) % slots + 1

/-- `slot(p, j)` of an IIR delay buffer (rules R30, R165). -/
def iirSlot (nb p j : Nat) : Nat := (p - 1 + j) % (2 * nb) + 1

/-- The 16 bits of a half-word, bit 15 first (rule R53). -/
def halfBits (h : Half) : List Bool := (List.range cicDf).map fun t => h.getLsbD (15 - t)

/-- The high half-word, bits 31 to 16, processed first (rules R53, R73). -/
def highHalf (w : Pdm) : Half := w.extractLsb' 16 16

/-- The low half-word, bits 15 to 0 (rule R73). -/
def lowHalf (w : Pdm) : Half := w.extractLsb' 0 16

/-- `H` from the 16-bit cells of its table (rules R71, R76): each cell's value is `sext_16`. -/
def tapsOfTable (t : List (BitVec 16)) : List Int := t.map BitVec.toInt

/-- `COEF` from a Direct Form II table: five cells a section, in the order `a1, a2, b2, b0, b1` (rule R77); `none` for a
table whose length is not a multiple of five. -/
def sectionsOfDf2Table : List (BitVec 16) → Option (List Biquad)
  | [] => some []
  | a1 :: a2 :: b2 :: b0 :: b1 :: t =>
    (sectionsOfDf2Table t).map ({ b0 := b0.toInt, b1 := b1.toInt, b2 := b2.toInt, a1 := a1.toInt, a2 := a2.toInt } :: ·)
  | _ => none

/-- `COEF` from a Direct Form I table: five cells a section, in the order `b0, b1, b2, a1, a2` (rule R77). -/
def sectionsOfDf1Table : List (BitVec 16) → Option (List Biquad)
  | [] => some []
  | b0 :: b1 :: b2 :: a1 :: a2 :: t =>
    (sectionsOfDf1Table t).map ({ b0 := b0.toInt, b1 := b1.toInt, b2 := b2.toInt, a1 := a1.toInt, a2 := a2.toInt } :: ·)
  | _ => none

end Sys2Proof.Machine
end

