-- ==== Sys2Proof/Machine/CicUnit.lean ====
section
/-!
DEFINITION. PdmCicDecimator, the CIC decimator (spec/40_cic.md): the micro-operations of rules R101 to R103 and the command
`CIC` (rule R104). Its registers wrap modulo `2^32` by design (rules R9, R23); nothing here can stop a command.
-/

namespace Sys2Proof.Machine

/-- The impulse a PDM bit stands for: `+1` for 1, `-1` for 0 (rules R73, R101). -/
def impulse (b : Bool) : Int := if b then 1 else -1

/-- `cic_push(c, b)` (rule R101): each integrator adds the value its predecessor has just been given. -/
def cicPush (c : Cic) (b : Bool) : Cic :=
  let acc0 := wrap32 (c.acc0.toInt + impulse b)
  let acc1 := c.acc1 + acc0
  let acc2 := c.acc2 + acc1
  let acc3 := c.acc3 + acc2
  { c with acc0 := acc0, acc1 := acc1, acc2 := acc2, acc3 := acc3 }

/-- `cic_comb(c)` (rule R103): each comb stage subtracts its input of the previous comb step; the last difference is the
output sample. -/
def cicComb (c : Cic) : Sample × Cic :=
  let d0 := c.acc3
  let d1 := d0 - c.dly0
  let d2 := d1 - c.dly1
  let d3 := d2 - c.dly2
  let d4 := d3 - c.dly3
  (d4, { c with dly0 := d0, dly1 := d1, dly2 := d2, dly3 := d3 })

/-- `cic_half(c, h)` (rule R102): 16 pushes, the most significant bit first, and one comb step. -/
def cicHalf (c : Cic) (h : Half) : Sample × Cic := cicComb ((halfBits h).foldl cicPush c)

/-- One lane of `CIC` (rule R104): the words in ascending order, the high half of each before its low half. -/
def cicRun : List Pdm → Cic → List Sample × Cic
  | [], c => ([], c)
  | w :: ws, c =>
    let (hi, c1) := cicHalf c (highHalf w)
    let (lo, c2) := cicHalf c1 (lowHalf w)
    let (ys, c3) := cicRun ws c2
    (hi :: lo :: ys, c3)

/-- `CIC len` (rule R104): the two lanes share nothing. -/
def execCic (len : Nat) (s : State) : Host.Outcome State Fault Refusal := conclude do
  let (inL, inR) ← takePdm len s
  let (outL, cicL) := cicRun inL s.left.cic
  let (outR, cicR) := cicRun inR s.right.cic
  let t := { s with left := { s.left with cic := cicL }, right := { s.right with cic := cicR } }
  .ok (t.answer (.cic outL outR))

end Sys2Proof.Machine
end

