-- ==== Sys2Proof/Machine/FirUnit.lean ====
section
/-!
DEFINITION. DecimatingFir, the decimate-by-2 FIR (spec/41_fir.md): the micro-operations of rules R132 and R133 and the command
`FIR` (rule R140). `slots` is `S = NC + 2` throughout.
-/

namespace Sys2Proof.Machine

/-- `fir_push(x)` (rule R132): the sample overwrites the oldest one, in slot `p`, and the index moves on one slot. -/
def firPush (slots : Nat) (x : Sample) (dl : Buffer) (p : Nat) : Buffer × Nat :=
  (setCell dl p x, p % slots + 1)

/-- The sum of rule R133: in ascending `k`, `H[k]` times the `k`-th newest sample, checked after every addition. -/
def firSum (slots p : Nat) (dl : Buffer) : List Int → Nat → Int → Exec Int
  | [], _, acc => .ok acc
  | h :: hs, k, acc => do
    let acc' ← acc40 (acc + h * (cellAt dl (newestSlot slots p k)).toInt)
    firSum slots p dl hs (k + 1) acc'

/-- `fir_out()` (rule R133): the sum, the bias `1 << 14`, and the shift by 15. -/
def firOut (slots : Nat) (h : List Int) (dl : Buffer) (p : Nat) : Exec Sample := do
  let acc ← firSum slots p dl h 0 0
  let acc ← acc40 (acc + 16384)
  store32 (asr acc 15)

/-- The loop of rule R140: two pushes, then one output. -/
def firLoop (slots : Nat) (h : List Int) : List Sample → Buffer → Nat → Exec (List Sample × Buffer × Nat)
  | x0 :: x1 :: xs, dl, p => do
    let (dl1, p1) := firPush slots x0 dl p
    let (dl2, p2) := firPush slots x1 dl1 p1
    let y ← firOut slots h dl2 p2
    let (ys, dl3, p3) ← firLoop slots h xs dl2 p2
    .ok (y :: ys, dl3, p3)
  | _, dl, p => .ok ([], dl, p)

/-- `FIR` on one instance's buffer (rule R140): the outputs and the buffer after it. `U_ODDLEN` comes first (rule R235). -/
def firCommand (nc : Nat) (h : List Int) (x : List Sample) (dl : Buffer) : Exec (List Sample × Buffer) := do
  if x.length % 2 = 1 then undefined .oddLen
  checkSize (nc + 2) dl
  let p ← startIndex (nc + 2) dl
  let (y, dl', p') ← firLoop (nc + 2) h x dl p
  let dl'' ← storeIndex p' dl'
  .ok (y, dl'')

/-- `FIR st, ch, len` (rule R140). -/
def execFir (st : Stage) (ch : Chan) (len : Nat) (s : State) : Host.Outcome State Fault Refusal := conclude do
  let x ← takeSamples len s
  let (y, dl) ← firCommand (tapCount s.config st) (taps s.config st) x ((s.lane ch).fir st)
  .ok ((s.setLane ch ((s.lane ch).setFir st dl)).answer (.samples y))

end Sys2Proof.Machine
end

