-- ==== Sys2Proof/Machine/GainUnit.lean ====
section
/-!
DEFINITION. DigitalGainStage, the digital gain and saturation (spec/43_gain.md): `gain_sample` (rule R201) and the command
`GAIN` (rule R202). The unit has no state.
-/

namespace Sys2Proof.Machine

/-- `gain_sample(x)` (rule R201): the clamp comes after the shift. -/
def gainSample (g : Nat) (x : Sample) : Exec Pcm := do
  let acc ← acc40 (x.toInt * g)
  let acc ← acc40 (acc + 256)
  .ok (store16 (asr acc 9))

/-- The loop of rule R202. -/
def gainCommand (g : Nat) : List Sample → Exec (List Pcm)
  | [] => .ok []
  | x :: xs => do
    let y ← gainSample g x
    let ys ← gainCommand g xs
    .ok (y :: ys)

/-- `GAIN len` (rule R202). -/
def execGain (len : Nat) (s : State) : Host.Outcome State Fault Refusal := conclude do
  let x ← takeSamples len s
  let pcm ← gainCommand s.config.digGain x
  .ok (s.answer (.pcm pcm))

end Sys2Proof.Machine
end

