-- ==== Sys2Proof/Machine/IirUnit.lean ====
section
/-!
DEFINITION. BiquadIir, the cascade of second-order sections (spec/42_iir.md): the input gain (rule R163), Direct Form II
(rules R170, R176) and Direct Form I (rules R180, R186).
-/

namespace Sys2Proof.Machine

/-- `s = 15 - COEF_IWL` (rule R162); `COEF_IWL <= 14` in a well-formed configuration. -/
def iirShift (c : Config) : Nat := 15 - c.coefIwl

/-- `iir_gain(x)` (rule R163). -/
def iirGain (g : Nat) (x : Sample) : Exec Sample := do
  let acc ← acc40 (g * x.toInt)
  let acc ← acc40 (acc + 32768)
  store32 (asr acc 16)

/-- `df2_section(i, u, d1, d2)` (rule R170): the output `y(n)` and the new delay value `d(n)`. -/
def df2Section (s : Nat) (b : Biquad) (u d1 d2 : Sample) : Exec (Sample × Cell) := do
  let acc ← acc40 (u.toInt * 2 ^ s)
  let acc ← acc40 (acc - b.a1 * d1.toInt)
  let acc ← acc40 (acc - b.a2 * d2.toInt)
  let acc ← acc40 (acc + 2 ^ (s - 1))
  let dn ← store32 (asr acc s)
  let acc ← acc40 (b.b0 * dn.toInt)
  let acc ← acc40 (acc + b.b1 * d1.toInt)
  let acc ← acc40 (acc + b.b2 * d2.toInt)
  let acc ← acc40 (acc + 2 ^ (s - 1))
  let y ← store32 (asr acc s)
  .ok (y, dn)

/-- The inner loop of rule R176: the sections from number `i` on, for one sample; the cascade's output and the buffer. -/
def df2Cascade (s nb p : Nat) : List Biquad → Nat → Sample → Buffer → Exec (Sample × Buffer)
  | [], _, u, buf => .ok (u, buf)
  | b :: bs, i, u, buf => do
    let s2 := iirSlot nb p i
    let s1 := iirSlot nb p (i + nb)
    let (yy, dn) ← df2Section s b u (cellAt buf s1) (cellAt buf s2)
    df2Cascade s nb p bs (i + 1) yy (setCell buf s2 dn)

/-- The outer loop of rule R176: the samples in order; the index advances by `NB` after each. -/
def df2Loop (c : Config) : List Sample → Buffer → Nat → Exec (List Sample × Buffer × Nat)
  | [], buf, p => .ok ([], buf, p)
  | x :: xs, buf, p => do
    let u ← iirGain c.iirGain x
    let (y, buf1) ← df2Cascade (iirShift c) c.nb p c.coef 0 u buf
    let (ys, buf2, p2) ← df2Loop c xs buf1 (iirSlot c.nb p c.nb)
    .ok (y :: ys, buf2, p2)

/-- `IIR2` on one lane's buffer `D[c]` (rule R176): the outputs and the buffer after it. -/
def iir2Command (c : Config) (x : List Sample) (d : Buffer) : Exec (List Sample × Buffer) := do
  checkSize (2 * c.nb) d
  let p ← startIndex (2 * c.nb) d
  let (y, d', p') ← df2Loop c x d p
  let d'' ← storeIndex p' d'
  .ok (y, d'')

/-- `IIR2 ch, len` (rule R176). -/
def execIir2 (ch : Chan) (len : Nat) (s : State) : Host.Outcome State Fault Refusal := conclude do
  let x ← takeSamples len s
  let (y, d) ← iir2Command s.config x (s.lane ch).d
  .ok ((s.setLane ch { s.lane ch with d := d }).answer (.samples y))

/-- `df1_section(i, u, x1, x2, y1, y2)` (rule R180): the output `y(n)`. -/
def df1Section (s : Nat) (b : Biquad) (u x1 x2 y1 y2 : Sample) : Exec Sample := do
  let acc ← acc40 (b.b0 * u.toInt)
  let acc ← acc40 (acc + b.b1 * x1.toInt)
  let acc ← acc40 (acc + b.b2 * x2.toInt)
  let acc ← acc40 (acc - b.a1 * y1.toInt)
  let acc ← acc40 (acc - b.a2 * y2.toInt)
  let acc ← acc40 (acc + 2 ^ (s - 1))
  store32 (asr acc s)

/-- The inner loop of rule R186: the sections from number `i` on, for one sample; the output and the two buffers. -/
def df1Cascade (s nb pf pb : Nat) : List Biquad → Nat → Sample → Buffer → Buffer → Exec (Sample × Buffer × Buffer)
  | [], _, u, ff, fb => .ok (u, ff, fb)
  | b :: bs, i, u, ff, fb => do
    let fx2 := iirSlot nb pf i
    let fx1 := iirSlot nb pf (i + nb)
    let fy2 := iirSlot nb pb i
    let fy1 := iirSlot nb pb (i + nb)
    let yy ← df1Section s b u (cellAt ff fx1) (cellAt ff fx2) (cellAt fb fy1) (cellAt fb fy2)
    df1Cascade s nb pf pb bs (i + 1) yy (setCell ff fx2 u) (setCell fb fy2 yy)

/-- What the loop of rule R186 leaves: the outputs, the two buffers and their two working indices. -/
structure Df1Result where
  y : List Sample
  ff : Buffer
  fb : Buffer
  pf : Nat
  pb : Nat
  deriving DecidableEq, Repr

/-- The outer loop of rule R186: the samples in order; both indices advance by `NB` after each. -/
def df1Loop (c : Config) : List Sample → Buffer → Buffer → Nat → Nat → Exec Df1Result
  | [], ff, fb, pf, pb => .ok { y := [], ff := ff, fb := fb, pf := pf, pb := pb }
  | x :: xs, ff, fb, pf, pb => do
    let u ← iirGain c.iirGain x
    let (y, ff1, fb1) ← df1Cascade (iirShift c) c.nb pf pb c.coef 0 u ff fb
    let r ← df1Loop c xs ff1 fb1 (iirSlot c.nb pf c.nb) (iirSlot c.nb pb c.nb)
    .ok { r with y := y :: r.y }

/-- `IIR1` on one lane's buffers `FF[c]` and `FB[c]` (rule R186): the outputs and the two buffers after it. -/
def iir1Command (c : Config) (x : List Sample) (ff fb : Buffer) : Exec (List Sample × Buffer × Buffer) := do
  checkSize (2 * c.nb) ff
  checkSize (2 * c.nb) fb
  let pf ← startIndex (2 * c.nb) ff
  let pb ← startIndex (2 * c.nb) fb
  let r ← df1Loop c x ff fb pf pb
  let ff' ← storeIndex r.pf r.ff
  let fb' ← storeIndex r.pb r.fb
  .ok (r.y, ff', fb')

/-- `IIR1 ch, len` (rule R186). -/
def execIir1 (ch : Chan) (len : Nat) (s : State) : Host.Outcome State Fault Refusal := conclude do
  let x ← takeSamples len s
  let (y, ff, fb) ← iir1Command s.config x (s.lane ch).ff (s.lane ch).fb
  .ok ((s.setLane ch { s.lane ch with ff := ff, fb := fb }).answer (.samples y))

end Sys2Proof.Machine
end

