-- ==== Sys2Proof/Machine/Chain.lean ====
section
/-!
DEFINITION. The whole chain and the housekeeping commands (spec/44_pipeline.md): `NOP` (rule R210), `FRAME` (rules R211 to
R213) and `RESET` (rule R214).
-/

namespace Sys2Proof.Machine

/-- `NOP` (rule R210): reads nothing, writes nothing, produces nothing. -/
def execNop (s : State) : Host.Outcome State Fault Refusal := conclude do
  takeNone s
  .ok s.consumed

/-- The IIR stage of `FRAME` on one lane, as `IIR_MODE` selects (rules R212, R213). -/
def chainIir (c : Config) (x : List Sample) (l : Lane) : Exec (List Sample × Lane) :=
  match c.iirMode with
  | .bypass => .ok (x, l)
  | .df1 => do
    let (y, ff, fb) ← iir1Command c x l.ff l.fb
    .ok (y, { l with ff := ff, fb := fb })
  | .df2 => do
    let (y, d) ← iir2Command c x l.d
    .ok (y, { l with d := d })

/-- The body of `FRAME`'s loop over the lanes (rule R212): the units after the CIC, on one lane's CIC samples. -/
def chainLane (c : Config) (x : List Sample) (l : Lane) : Exec (List Pcm × Lane) := do
  let (f1, b1) ← firCommand c.nc1 c.h1 x l.fir1
  let (f2, b2) ← firCommand c.nc2 c.h2 f1 l.fir2
  let (g, l') ← chainIir c f2 { l with fir1 := b1, fir2 := b2 }
  let pcm ← gainCommand c.digGain g
  .ok (pcm, l')

/-- `FRAME len` (rule R212): the CIC once for both lanes, then every later unit once per lane, `L` first. -/
def execFrame (len : Nat) (s : State) : Host.Outcome State Fault Refusal := conclude do
  let (inL, inR) ← takePdm len s
  if len % 2 = 1 then undefined .oddLen
  let (cL, cicL) := cicRun inL s.left.cic
  let (cR, cicR) := cicRun inR s.right.cic
  let (pcmL, left) ← chainLane s.config cL { s.left with cic := cicL }
  let (pcmR, right) ← chainLane s.config cR { s.right with cic := cicR }
  .ok ({ s with left := left, right := right }.answer (.frame pcmL pcmR))

/-- A lane with 0 written to every cell of every buffer, as `RESET`'s pseudocode lists them (rule R214). -/
def clearedLane (c : Config) : Lane where
  cic := { acc0 := 0, acc1 := 0, acc2 := 0, acc3 := 0, dly0 := 0, dly1 := 0, dly2 := 0, dly3 := 0 }
  fir1 := List.replicate (c.nc1 + 3) 0
  fir2 := List.replicate (c.nc2 + 3) 0
  d := List.replicate (2 * c.nb + 1) 0
  ff := List.replicate (2 * c.nb + 1) 0
  fb := List.replicate (2 * c.nb + 1) 0

/-- `RESET` (rule R214): both lanes cleared; the configuration is untouched and nothing is returned. -/
def execReset (s : State) : Host.Outcome State Fault Refusal := conclude do
  takeNone s
  .ok { s with left := clearedLane s.config, right := clearedLane s.config }.consumed

end Sys2Proof.Machine
end

