-- ==== Sys2Proof/Machine/Dispatch.lean ====
section
/-!
DEFINITION. One arm per command: the meaning each constructor of `Instr` has.
-/

namespace Sys2Proof.Machine

def exec (i : Instr) (s : State) : Host.Outcome State Fault Refusal :=
  match i with
  | .nop => Sys2Proof.Machine.execNop s
  | .cic len => Sys2Proof.Machine.execCic len s
  | .fir st ch len => Sys2Proof.Machine.execFir st ch len s
  | .iir1 ch len => Sys2Proof.Machine.execIir1 ch len s
  | .iir2 ch len => Sys2Proof.Machine.execIir2 ch len s
  | .gain len => Sys2Proof.Machine.execGain len s
  | .frame len => Sys2Proof.Machine.execFrame len s
  | .reset => Sys2Proof.Machine.execReset s

end Sys2Proof.Machine
end

