-- ==== Sys2Proof/Machine/Fetch.lean ====
section
/-!
DEFINITION. How the block comes by its next command (spec/10_state.md rule R37, spec/30_encoding.md rules R80 to R83): the host
issues the commands of its list one at a time, each word with its data operands. There is no program counter and no fetch from
memory; the list is the host's and stands in `State.pending`.
-/

namespace Sys2Proof.Machine

/-- The next command, decoded, with the state in which it is issued; `none` when the host has sent nothing. Refusals come
before execution: the configuration first, then the word (rule R235). -/
def fetch (s : State) : Exec (Option (Instr × State)) := do
  checkConfig s.config
  match s.pending with
  | [] => .ok none
  | c :: rest =>
    match decode c.word with
    | .ok i => .ok (some (i, { s with pending := rest, operands := c.data }))
    | .error why => refuse (.reserved why)

/-- The host sends one more command, behind those it has already sent (rule R37). -/
def State.offer (s : State) (c : Command) : State := { s with pending := s.pending ++ [c] }

/-- Data operands of the kind and lengths rule R82 states for a command, every element 0. -/
def zeroOperands : Instr → Operands
  | .nop => .none
  | .cic len => .pdm (List.replicate len 0) (List.replicate len 0)
  | .fir _ _ len => .samples (List.replicate len 0)
  | .iir1 _ len => .samples (List.replicate len 0)
  | .iir2 _ len => .samples (List.replicate len 0)
  | .gain len => .samples (List.replicate len 0)
  | .frame len => .pdm (List.replicate len 0) (List.replicate len 0)
  | .reset => .none

/-- The command a word stands for when its data operands are zeros; a reserved word comes with none. -/
def commandOfWord (w : Word) : Command :=
  match decode w with
  | .ok i => { word := w, data := zeroOperands i }
  | .error _ => { word := w, data := .none }

end Sys2Proof.Machine
end

