-- ==== Sys2Proof/Machine/Step.lean ====
section
/-!
DEFINITION. One step of the machine: one command, atomic and to completion (spec/20_memory.md rules R58, R59).
-/

namespace Sys2Proof.Machine

/-- One step. With no command sent the block waits: nothing changes and nothing times out (spec/70_reset_and_hazards.md,
the host interface table, "between commands"; DESIGN CHOICE, safe, notes/assumptions/3.md). -/
def step (s : State) : Host.Outcome State Fault Refusal :=
  match fetch s with
  | .error stop => conclude (.error stop)
  | .ok none => .next s
  | .ok (some (i, t)) => exec i t

/-- `s` with the command word whose `nbits` bits are `w` (the bits above are 0) as the next command the host issues, its
data operands zeros of the lengths rule R82 states. -/
def State.withFetchWord (s : State) (nbits w : Nat) : State :=
  { s with pending := commandOfWord (BitVec.ofNat 32 (w % 2 ^ nbits)) :: s.pending }

end Sys2Proof.Machine
end

