-- ==== Sys2Proof/Machine/Formats.lean ====
section
/-!
DEFINITION. The fixed-point formats (spec/00_scope.md rule R7; spec/30_encoding.md rules R70 to R72): what real number a
stored integer stands for, and which range is nominal. No command reads this file: "every rule of this spec is stated on the
stored integers".
-/

namespace Sys2Proof.Machine

/-- A format `S{total}Q{frac}` or `U{total}Q{frac}`, with the width of the cell that stores it. -/
structure QFormat where
  signed : Bool
  total : Nat
  frac : Nat
  storage : Nat
  deriving DecidableEq, Repr

/-- Audio sample, input and output of CIC, FIR and IIR: S18Q16 in 32 bits. -/
def QFormat.audio : QFormat := { signed := true, total := 18, frac := 16, storage := 32 }
/-- FIR and IIR coefficient: S16Q15 in 16 bits. -/
def QFormat.coefficient : QFormat := { signed := true, total := 16, frac := 15, storage := 16 }
/-- IIR input gain: U16Q16 in 16 bits. -/
def QFormat.inputGain : QFormat := { signed := false, total := 16, frac := 16, storage := 16 }
/-- Digital gain: U16Q8 in 16 bits. -/
def QFormat.digitalGain : QFormat := { signed := false, total := 16, frac := 8, storage := 16 }
/-- Final PCM output: S16Q15 in 16 bits. -/
def QFormat.pcm : QFormat := { signed := true, total := 16, frac := 15, storage := 16 }
/-- An IIR coefficient with `iwl` extra integer bits (rule R71): it stands for `v / 2^(15 - iwl)`. -/
def QFormat.iirCoefficient (iwl : Nat) : QFormat := { signed := true, total := 16, frac := 15 - iwl, storage := 16 }

/-- The real number a stored integer stands for: `v / 2^f` (rule R7). -/
def formatValue (q : QFormat) (v : Int) : Rat := (v : Rat) / 2 ^ q.frac

/-- The value of a cell's bit pattern (rule R8): `sext_N` for a signed format, `zext_N` for an unsigned one. -/
def patternValue (q : QFormat) (w : BitVec q.storage) : Int := if q.signed then w.toInt else w.toNat

/-- A stored integer lies in the format's nominal range, that of its "useful" `total` bits (rule R7). -/
def inNominal (q : QFormat) (v : Int) : Bool :=
  if q.signed then decide (-2 ^ (q.total - 1) ≤ v ∧ v ≤ 2 ^ (q.total - 1) - 1)
  else decide (0 ≤ v ∧ v ≤ 2 ^ q.total - 1)

end Sys2Proof.Machine
end

