-- ==== Sys2Proof/Safety.lean ====
section
/-!
DEFINITION. The terms in which claims are made: the invariant of the state (spec/10_state.md rules R26, R30), the states a run
can reach (spec/70_reset_and_hazards.md), headroom (rule R270), and the textbook filters the units are held against: the
unbounded CIC (rules R23, R108), the convolution (rule R140) and the sections with delay records of their own (rule R274).

Nothing here is part of the machine.
-/

namespace Sys2Proof

open Machine

/-- A delay buffer has its index cell and `slots` sample cells, and its stored index is 0 or in `1 .. slots` (rule R26). -/
abbrev BufferOk (slots : Nat) (b : Buffer) : Prop :=
  b.length = slots + 1 ∧ 0 ≤ (cellAt b 0).toInt ∧ (cellAt b 0).toInt ≤ slots

/-- Every delay buffer of a lane is in form. The CIC cells are free: "every value in `-2^31 .. 2^31-1` is legal" (R22). -/
abbrev LaneOk (c : Config) (l : Lane) : Prop :=
  BufferOk (c.nc1 + 2) l.fir1 ∧ BufferOk (c.nc2 + 2) l.fir2 ∧
  BufferOk (2 * c.nb) l.d ∧ BufferOk (2 * c.nb) l.ff ∧ BufferOk (2 * c.nb) l.fb

/-- The invariant of the machine: a well-formed configuration and both lanes in form. -/
abbrev Inv (s : State) : Prop :=
  configWellFormed s.config = true ∧ LaneOk s.config s.left ∧ LaneOk s.config s.right

/-- The states of a run under configuration `c` (rules R261, R265, R276): the reset state; a state in which the host has sent
one more command; a state one step further. -/
inductive Reachable (c : Config) : State → Prop where
  | reset : Reachable c (State.resetWith c)
  | offer {s : State} (cmd : Command) : Reachable c s → Reachable c (s.offer cmd)
  | step {s t : State} : Reachable c s → Machine.step s = .next t → Reachable c t

/-- The data operands of a command are of the kind and lengths rule R82 states. -/
def OperandsFit : Instr → Operands → Prop
  | .nop, d => d = .none
  | .cic len, d => ∃ inL inR, d = .pdm inL inR ∧ inL.length = len ∧ inR.length = len
  | .fir _ _ len, d => ∃ x, d = .samples x ∧ x.length = len
  | .iir1 _ len, d => ∃ x, d = .samples x ∧ x.length = len
  | .iir2 _ len, d => ∃ x, d = .samples x ∧ x.length = len
  | .gain len, d => ∃ x, d = .samples x ∧ x.length = len
  | .frame len, d => ∃ inL inR, d = .pdm inL inR ∧ inL.length = len ∧ inR.length = len
  | .reset, d => d = .none

/-- What a command returns, as rule R82 states it: which output sequences, and how long. -/
def OutputsFit : Instr → List Output → Prop
  | .nop, o => o = []
  | .cic len, o => ∃ l r, o = [.cic l r] ∧ l.length = 2 * len ∧ r.length = 2 * len
  | .fir _ _ len, o => len % 2 = 0 ∧ ∃ y, o = [.samples y] ∧ y.length = len / 2
  | .iir1 _ len, o => ∃ y, o = [.samples y] ∧ y.length = len
  | .iir2 _ len, o => ∃ y, o = [.samples y] ∧ y.length = len
  | .gain len, o => ∃ y, o = [.pcm y] ∧ y.length = len
  | .frame len, o => len % 2 = 0 ∧ ∃ l r, o = [.frame l r] ∧ l.length = len / 2 ∧ r.length = len / 2
  | .reset, o => o = []

/-- The two lanes agree but, where the flag of a buffer is set, in that buffer. -/
structure Touches where
  cic : Bool := false
  fir1 : Bool := false
  fir2 : Bool := false
  d : Bool := false
  ff : Bool := false
  fb : Bool := false

/-- Lane `b` is lane `a` with at most the buffers of `w` written. -/
def SameBut (w : Touches) (a b : Lane) : Prop :=
  (w.cic = false → b.cic = a.cic) ∧ (w.fir1 = false → b.fir1 = a.fir1) ∧ (w.fir2 = false → b.fir2 = a.fir2) ∧
  (w.d = false → b.d = a.d) ∧ (w.ff = false → b.ff = a.ff) ∧ (w.fb = false → b.fb = a.fb)

/-- The buffers of lane `lane` a command may write (column "State touched" of rule R82). -/
def touched (mode : IirMode) (lane : Chan) : Instr → Touches
  | .nop => {}
  | .cic _ => { cic := true }
  | .fir st ch _ => if ch = lane then { fir1 := st = .one, fir2 := st = .two } else {}
  | .iir1 ch _ => if ch = lane then { ff := true, fb := true } else {}
  | .iir2 ch _ => if ch = lane then { d := true } else {}
  | .gain _ => {}
  | .frame _ =>
    { cic := true, fir1 := true, fir2 := true, d := mode = .df2, ff := mode = .df1, fb := mode = .df1 }
  | .reset => { cic := true, fir1 := true, fir2 := true, d := true, ff := true, fb := true }

/-- The command of a row with its operand fields read from word `w` (rule R81, `s`, `c` and `n`). -/
def withWordFields (w : Word) : Instr → Instr
  | .nop => .nop
  | .cic _ => .cic (lenField w)
  | .fir _ _ _ => .fir (stageOf (stField w)) (chanOf (chField w)) (lenField w)
  | .iir1 _ _ => .iir1 (chanOf (chField w)) (lenField w)
  | .iir2 _ _ => .iir2 (chanOf (chField w)) (lenField w)
  | .gain _ => .gain (lenField w)
  | .frame _ => .frame (lenField w)
  | .reset => .reset

/-! ### Words, lanes and unit commands -/

/-- `wrap_32(v)` by rule R9's formula, on integers. -/
def wrapInt (v : Int) : Int := (v + 2 ^ 31) % 2 ^ 32 - 2 ^ 31

/-- The word is reserved: no row of rule R81 matches it (rule R83). -/
abbrev IsReserved (w : Word) : Prop := ∀ r ∈ rows, selectsRow w r = false

/-- The index a command takes from a buffer's cell 0: 0 counts as 1 (rule R26). -/
def indexOf (b : Buffer) : Nat := if (cellAt b 0).toInt = 0 then 1 else (cellAt b 0).toInt.toNat

/-- The buffer with its stored index written back as a command reads it: 0 becomes 1 (rules R26, R30, decision D32). -/
def normIndex (b : Buffer) : Buffer := setCell b 0 (BitVec.ofNat 32 (indexOf b))

/-- The lane after an empty `FRAME`: both FIR indices and those of the IIR buffers `IIR_MODE` selects are written back, and
nothing else is written (rule R212, T-SYS-3). -/
def normLane (mode : IirMode) (l : Lane) : Lane where
  cic := l.cic
  fir1 := normIndex l.fir1
  fir2 := normIndex l.fir2
  d := if mode = .df2 then normIndex l.d else l.d
  ff := if mode = .df1 then normIndex l.ff else l.ff
  fb := if mode = .df1 then normIndex l.fb else l.fb

/-- The lane that is not `ch`. -/
def otherLane : Chan → Chan
  | .L => .R
  | .R => .L

/-- Lane `c`'s part of `CIC` as rule R104's loop states it: there is a CIC state before each word, and word `i` takes it
through its high half, which gives output `2*i`, and its low half, which gives output `2*i + 1`. -/
def CicLaneRuns (ws : List Pdm) (c : Cic) (out : List Sample) (c' : Cic) : Prop :=
  out.length = 2 * ws.length ∧
  ∃ before : Nat → Cic, before 0 = c ∧ before ws.length = c' ∧
    ∀ i, i < ws.length → ∃ mid,
      cicHalf (before i) (highHalf (ws.getD i 0)) = (out.getD (2 * i) 0, mid) ∧
      cicHalf mid (lowHalf (ws.getD i 0)) = (out.getD (2 * i + 1) 0, before (i + 1))

/-- The IIR command `IIR_MODE` selects takes `x` from state `a` to state `b` and returns `y`; none with `BYPASS` (R212). -/
def IirStageRuns (ch : Chan) (n : Nat) (x y : List Sample) (a b : State) : Prop :=
  match a.config.iirMode with
  | .bypass => b = a ∧ y = x
  | .df1 => exec (.iir1 ch n) { a with operands := .samples x } = .next b ∧ b.outputs = a.outputs ++ [.samples y]
  | .df2 => exec (.iir2 ch n) { a with operands := .samples x } = .next b ∧ b.outputs = a.outputs ++ [.samples y]

/-- The unit commands of rule R212's loop body, issued one by one from state `a` on lane `ch` with the CIC samples `x` of a
frame of `len` words, all complete, in state `b`, and the last returns `pcm`. -/
def UnitCommandsRun (ch : Chan) (len : Nat) (x : List Sample) (a b : State) (pcm : List Pcm) : Prop :=
  ∃ a1 a2 a3 f1 f2 g,
    exec (.fir .one ch (2 * len)) { a with operands := .samples x } = .next a1 ∧
    a1.outputs = a.outputs ++ [.samples f1] ∧
    exec (.fir .two ch len) { a1 with operands := .samples f1 } = .next a2 ∧
    a2.outputs = a1.outputs ++ [.samples f2] ∧
    IirStageRuns ch (len / 2) f2 g a2 a3 ∧
    exec (.gain (len / 2)) { a3 with operands := .samples g } = .next b ∧
    b.outputs = a3.outputs ++ [.pcm pcm]

/-! ### Ranges and headroom -/

/-- The wide accumulator's range (rule R12). -/
abbrev InAcc (v : Int) : Prop := -2 ^ 39 ≤ v ∧ v ≤ 2 ^ 39 - 1

/-- A 32-bit cell's range (rule R13). -/
abbrev InCell (v : Int) : Prop := -2 ^ 31 ≤ v ∧ v ≤ 2 ^ 31 - 1

/-- The sample's magnitude is at most `m`. -/
abbrev Within (m : Int) (x : Sample) : Prop := -m ≤ x.toInt ∧ x.toInt ≤ m

/-- The nominal S18 range (rules R7, R70). -/
abbrev Nominal (x : Sample) : Prop := inNominal QFormat.audio x.toInt = true

/-- The sample cells of a buffer (all but the index cell) are at most `m` in magnitude. -/
abbrev CellsWithin (m : Int) (b : Buffer) : Prop := ∀ x ∈ b.tail, Within m x

/-- The magnitude of a coefficient. -/
abbrev mag (v : Int) : Int := (v.natAbs : Int)

/-- The sum of the magnitudes of a tap table. -/
def tapMagnitude (h : List Int) : Int := (h.map mag).sum

/-- Inputs and stored samples up to `x` keep an FIR stage inside 40 bits, and its outputs are up to `y` (rule R270). -/
abbrev FirHeadroom (h : List Int) (x y : Int) : Prop :=
  0 ≤ x ∧ tapMagnitude h * x + 16384 ≤ 2 ^ 39 - 1 ∧ tapMagnitude h * x + 16384 ≤ y * 32768

/-- Inputs up to `x` keep the input gain inside 40 bits, and its results are up to `u` (rule R270). -/
abbrev IirGainHeadroom (c : Config) (x u : Int) : Prop :=
  0 ≤ x ∧ c.iirGain * x + 32768 ≤ 2 ^ 39 - 1 ∧ c.iirGain * x + 32768 ≤ u * 65536

/-- One Direct Form II section with input up to `u` and delay values up to `d` stays inside its accumulator and cells, keeps
its new delay value up to `d`, and puts out up to `y` (rule R270). -/
abbrev Df2SectionHeadroom (s : Nat) (u d y : Int) (b : Biquad) : Prop :=
  u * 2 ^ s + (mag b.a1 + mag b.a2) * d + 2 ^ (s - 1) ≤ 2 ^ 39 - 1 ∧
  u * 2 ^ s + (mag b.a1 + mag b.a2) * d + 2 ^ (s - 1) ≤ d * 2 ^ s ∧
  (mag b.b0 + mag b.b1 + mag b.b2) * d + 2 ^ (s - 1) ≤ 2 ^ 39 - 1 ∧
  (mag b.b0 + mag b.b1 + mag b.b2) * d + 2 ^ (s - 1) ≤ y * 2 ^ s

/-- Samples up to `x` and delay values up to `d` keep the whole of `IIR2` in headroom for ever; outputs are up to `y`. A
section's output is the next section's input, so with more than one section `y` must not exceed `u`. -/
abbrev Df2Headroom (c : Config) (x u d y : Int) : Prop :=
  IirGainHeadroom c x u ∧ d ≤ 2 ^ 31 - 1 ∧ y ≤ 2 ^ 31 - 1 ∧ (c.nb = 1 ∨ y ≤ u) ∧
  ∀ b ∈ c.coef, Df2SectionHeadroom (iirShift c) u d y b

/-- One Direct Form I section with inputs (new and stored) up to `u` and stored outputs up to `y` stays inside its
accumulator, and puts out up to `y` (rule R270). -/
abbrev Df1SectionHeadroom (s : Nat) (u y : Int) (b : Biquad) : Prop :=
  (mag b.b0 + mag b.b1 + mag b.b2) * u + (mag b.a1 + mag b.a2) * y + 2 ^ (s - 1) ≤ 2 ^ 39 - 1 ∧
  (mag b.b0 + mag b.b1 + mag b.b2) * u + (mag b.a1 + mag b.a2) * y + 2 ^ (s - 1) ≤ y * 2 ^ s

/-- Samples up to `x`, feed-forward cells up to `u` and feedback cells up to `y` keep the whole of `IIR1` in headroom for
ever; outputs are up to `y`. -/
abbrev Df1Headroom (c : Config) (x u y : Int) : Prop :=
  IirGainHeadroom c x u ∧ y ≤ 2 ^ 31 - 1 ∧ (c.nb = 1 ∨ y ≤ u) ∧
  ∀ b ∈ c.coef, Df1SectionHeadroom (iirShift c) u y b

/-- Samples up to `x` keep the gain stage inside 40 bits (rule R270). -/
abbrev GainHeadroom (c : Config) (x : Int) : Prop := 0 ≤ x ∧ x * c.digGain + 256 ≤ 2 ^ 39 - 1

/-- The indices of FIR and IIR buffers fit their 32-bit cells (notes/assumptions/5.md). -/
abbrev IndicesFit (c : Config) : Prop :=
  c.nc1 + 2 ≤ 2 ^ 31 - 1 ∧ c.nc2 + 2 ≤ 2 ^ 31 - 1 ∧ 2 * c.nb ≤ 2 ^ 31 - 1

/-! ### The unbounded CIC -/

/-- The CIC registers as unbounded integers, which never wrap (rules R23, R108). -/
structure CicExact where
  acc0 : Int
  acc1 : Int
  acc2 : Int
  acc3 : Int
  dly0 : Int
  dly1 : Int
  dly2 : Int
  dly3 : Int
  deriving DecidableEq, Repr

/-- The cells that hold `wrap_32` of each register. -/
def CicExact.wrap (e : CicExact) : Cic where
  acc0 := wrap32 e.acc0
  acc1 := wrap32 e.acc1
  acc2 := wrap32 e.acc2
  acc3 := wrap32 e.acc3
  dly0 := wrap32 e.dly0
  dly1 := wrap32 e.dly1
  dly2 := wrap32 e.dly2
  dly3 := wrap32 e.dly3

/-- Rule R101's push with no wrap. -/
def CicExact.push (e : CicExact) (b : Bool) : CicExact :=
  let acc0 := e.acc0 + (if b then 1 else -1)
  let acc1 := e.acc1 + acc0
  let acc2 := e.acc2 + acc1
  { e with acc0 := acc0, acc1 := acc1, acc2 := acc2, acc3 := e.acc3 + acc2 }

/-- Rule R103's comb step with no wrap. -/
def CicExact.comb (e : CicExact) : Int × CicExact :=
  let d1 := e.acc3 - e.dly0
  let d2 := d1 - e.dly1
  let d3 := d2 - e.dly2
  (d3 - e.dly3, { e with dly0 := e.acc3, dly1 := d1, dly2 := d2, dly3 := d3 })

/-- Rule R104's lane with no wrap. -/
def CicExact.run : List Pdm → CicExact → List Int × CicExact
  | [], e => ([], e)
  | w :: ws, e =>
    let (hi, e1) := ((halfBits (highHalf w)).foldl CicExact.push e).comb
    let (lo, e2) := ((halfBits (lowHalf w)).foldl CicExact.push e1).comb
    let (ys, e3) := CicExact.run ws e2
    (hi :: lo :: ys, e3)

/-! ### The convolution -/

/-- The `NC` most recent samples of an FIR instance whose working index is `p`, newest first (rules R27, R133). -/
def firHistory (nc : Nat) (dl : Buffer) (p : Nat) : List Int :=
  (List.range nc).map fun k => (cellAt dl (newestSlot (nc + 2) p k)).toInt

/-- Coefficient `k` meets the sample `k` steps back (rule R76). -/
def convolve (h hist : List Int) : Int := (List.zipWith (· * ·) h hist).sum

/-- The textbook decimating FIR on unbounded integers: after each pair of samples, the rounded convolution of the taps with
the samples seen so far, newest first (rule R140). -/
def firTextbook (h : List Int) : List Int → List Sample → List Int
  | hist, x0 :: x1 :: xs =>
    let hist' := x1.toInt :: x0.toInt :: hist
    rndShr (convolve h hist') 15 :: firTextbook h hist' xs
  | _, _ => []

/-! ### Sections with delay records of their own -/

/-- A section's one-sample-old and two-samples-old value. -/
abbrev DelayPair := Cell × Cell

/-- The delay pairs of the sections, as an interleaved buffer with working index `p` holds them (rule R30). -/
def delayPairs (nb p : Nat) (b : Buffer) : List DelayPair :=
  (List.range nb).map fun i => (cellAt b (iirSlot nb p (i + nb)), cellAt b (iirSlot nb p i))

/-- One sample through a cascade of Direct Form II sections, each with a delay record of its own (rule R164). -/
def df2Records (s : Nat) : List Biquad → List DelayPair → Sample → Exec (Sample × List DelayPair)
  | b :: bs, (d1, d2) :: ds, u => do
    let (y, dn) ← df2Section s b u d1 d2
    let (z, ds') ← df2Records s bs ds y
    .ok (z, (dn, d1) :: ds')
  | _, ds, u => .ok (u, ds)

/-- Direct Form II over delay records: every sample through the input gain and the cascade. -/
def df2RecordsRun (c : Config) : List Sample → List DelayPair → Exec (List Sample × List DelayPair)
  | [], ds => .ok ([], ds)
  | x :: xs, ds => do
    let u ← iirGain c.iirGain x
    let (y, ds1) ← df2Records (iirShift c) c.coef ds u
    let (ys, ds2) ← df2RecordsRun c xs ds1
    .ok (y :: ys, ds2)

/-- One sample through a cascade of Direct Form I sections: a record of inputs and a record of outputs for each section. -/
def df1Records (s : Nat) : List Biquad → List DelayPair → List DelayPair → Sample →
    Exec (Sample × List DelayPair × List DelayPair)
  | b :: bs, (x1, x2) :: xs, (y1, y2) :: ys, u => do
    let y ← df1Section s b u x1 x2 y1 y2
    let (z, xs', ys') ← df1Records s bs xs ys y
    .ok (z, (u, x1) :: xs', (y, y1) :: ys')
  | _, xs, ys, u => .ok (u, xs, ys)

/-- Direct Form I over delay records. -/
def df1RecordsRun (c : Config) : List Sample → List DelayPair → List DelayPair →
    Exec (List Sample × List DelayPair × List DelayPair)
  | [], xs, ys => .ok ([], xs, ys)
  | x :: rest, xs, ys => do
    let u ← iirGain c.iirGain x
    let (y, xs1, ys1) ← df1Records (iirShift c) c.coef xs ys u
    let (out, xs2, ys2) ← df1RecordsRun c rest xs1 ys1
    .ok (y :: out, xs2, ys2)

end Sys2Proof
end

