-- ==== Sys2Proof/Certificates/Slice0/Obligations.lean ====
section
/-!
DEFINITION. The statements for the provers, one `def Obligations.<Name> : Prop` each; OBLIGATIONS.json lists them. Each
docstring names the rule of spec/ it formalises or rests on. Statements about every state have the invariant `Inv` as a premise
only where they could fail outside it.
-/

open Sys2Proof Sys2Proof.Machine

/-! ### Command words -/

/-- Rules R80, R81: the decoder reads back every well-formed command from the word the encoder gives it. -/
def Obligations.EncodeThenDecode : Prop :=
  ∀ i : Instr, i.wellFormed = true → decode (encode i) = .ok i

/-- Rules R81, R83: a word that decodes is the encoding of the command it decodes to, which is well formed; no bit is
ignored. -/
def Obligations.DecodeThenEncode : Prop :=
  ∀ (w : Word) (i : Instr), decode w = .ok i → i.wellFormed = true ∧ encode i = w

/-- Rule R81: a word decodes exactly when it selects a row by `w AND mask = match`, to that row's command with the operand
fields of the word; and at most one row is selected. -/
def Obligations.WordDecodesByItsRow : Prop :=
  (∀ w : Word, ∀ r ∈ rows, selectsRow w r = true → decode w = .ok (withWordFields w r)) ∧
  (∀ (w : Word) (i : Instr), decode w = .ok i → ∃ r ∈ rows, selectsRow w r = true ∧ i = withWordFields w r) ∧
  (∀ w : Word, ∀ r1 ∈ rows, ∀ r2 ∈ rows, selectsRow w r1 = true → selectsRow w r2 = true → r1 = r2)

/-- Rule R83: which words are reserved, field by field; a step on one is refused by name; and no two words stand for one
command. -/
def Obligations.ReservedWordsAreRefused : Prop :=
  (∀ w : Word, IsReserved w ↔
    8 ≤ opField w ∨ zerosClear w = false ∨ (stField w = 1 ∧ opField w ≠ 2) ∨
      (chField w = 1 ∧ opField w ∉ [2, 3, 4]) ∨ (lenField w ≠ 0 ∧ opField w ∈ [0, 7])) ∧
  (∀ (s : State) (w : Word) (data : Operands) (rest : List Command), IsReserved w → configWellFormed s.config = true →
    s.pending = { word := w, data := data } :: rest → ∃ why, step s = .refused (.reserved why)) ∧
  (∀ (w v : Word) (i : Instr), decode w = .ok i → decode v = .ok i → w = v)

/-- Words written out by spec/95_test_vectors.md T-ENC-1 decode to the commands named there. -/
def Obligations.SpecWordsDecode : Prop :=
  decode 0x00000000 = .ok .nop ∧ decode 0x1000FFFF = .ok (.cic 65535) ∧ decode 0x23000004 = .ok (.fir .two .R 4) ∧
  decode 0x21000008 = .ok (.fir .one .R 8) ∧ decode 0x30000005 = .ok (.iir1 .L 5) ∧ decode 0x41000000 = .ok (.iir2 .R 0) ∧
  decode 0x50000002 = .ok (.gain 2) ∧ decode 0x60000004 = .ok (.frame 4) ∧ decode 0x70000000 = .ok .reset

/-- Rule R84 (with R131, R140, R212): `FIR` and `FRAME` with an odd count decode, and end in the fault `U_ODDLEN`. -/
def Obligations.OddCountsDecodeAndFault : Prop :=
  ∀ (st : Stage) (ch : Chan) (len : Nat), len < 65536 → len % 2 = 1 →
    decode (encode (.fir st ch len)) = .ok (.fir st ch len) ∧
    decode (encode (.frame len)) = .ok (.frame len) ∧
    ∀ s : State, configWellFormed s.config = true →
      (∀ x, s.operands = .samples x → x.length = len → exec (.fir st ch len) s = .fault .oddLen) ∧
      (∀ inL inR, s.operands = .pdm inL inR → inL.length = len → inR.length = len →
        exec (.frame len) s = .fault .oddLen)

/-! ### The step -/

/-- Rules R37, R59, R82: a step issues the first pending command: it takes it off the list, hands over its data operands, and
is `exec` of the command its word decodes to. -/
def Obligations.StepRunsTheDecodedCommand : Prop :=
  ∀ (s : State) (c : Command) (rest : List Command) (i : Instr), configWellFormed s.config = true →
    s.pending = c :: rest → decode c.word = .ok i →
    step s = exec i { s with pending := rest, operands := c.data }

/-- With no command sent the block waits and nothing changes (spec/70_reset_and_hazards.md, the host interface table, "between
commands"). That waiting is a step of the model at all is the model's choice, notes/assumptions/3.md. -/
def Obligations.BlockWithoutCommandsWaits : Prop :=
  ∀ s : State, configWellFormed s.config = true → s.pending = [] → step s = .next s

/-- Rule R5: what a well-formed configuration is, clause by clause; `COEF` has five coefficients a section by its type. That
every step (with nothing pending too, and before the word is decoded) and every command on another one is refused is the
model's reading of rules R5 and R235, DEDUCED, notes/assumptions/11.md. -/
def Obligations.IllFormedConfigurationsAreRefused : Prop :=
  (∀ c : Config, configWellFormed c = true ↔
    ((c.nc1 % 2 = 0 ∧ 2 ≤ c.nc1) ∧ (c.nc2 % 2 = 0 ∧ 2 ≤ c.nc2) ∧ c.h1.length = c.nc1 ∧ c.h2.length = c.nc2 ∧
      1 ≤ c.nb ∧ c.coef.length = c.nb ∧ c.coefIwl ≤ 14 ∧
      (∀ v ∈ c.h1, -32768 ≤ v ∧ v ≤ 32767) ∧ (∀ v ∈ c.h2, -32768 ≤ v ∧ v ≤ 32767) ∧
      (∀ b ∈ c.coef, ∀ v ∈ [b.b0, b.b1, b.b2, b.a1, b.a2], -32768 ≤ v ∧ v ≤ 32767) ∧
      c.iirGain ≤ 65535 ∧ c.digGain ≤ 65535)) ∧
  (∀ s : State, configWellFormed s.config = false →
    step s = .refused .config ∧ ∀ i : Instr, exec i s = .refused .config)

/-! ### Arithmetic primitives -/

/-- Rule R9: `wrap_32` is the formula, the one integer of the range congruent to `v`, and what the CIC's cell sums and
differences do. -/
def Obligations.WrapIsTheCongruentCellValue : Prop :=
  (∀ v : Int, (wrap32 v).toInt = (v + 2 ^ 31) % 2 ^ 32 - 2 ^ 31 ∧
    -2 ^ 31 ≤ (wrap32 v).toInt ∧ (wrap32 v).toInt ≤ 2 ^ 31 - 1 ∧ ((wrap32 v).toInt - v) % 2 ^ 32 = 0 ∧
    ∀ u : Int, -2 ^ 31 ≤ u → u ≤ 2 ^ 31 - 1 → (u - v) % 2 ^ 32 = 0 → u = (wrap32 v).toInt) ∧
  (∀ a b : Cell, a + b = wrap32 (a.toInt + b.toInt) ∧ a - b = wrap32 (a.toInt - b.toInt))

/-- Rule R10: `asr` is the floor, `rnd_shr` the nearest integer with ties toward plus infinity, and the rule's examples. -/
def Obligations.RoundingIsHalfUp : Prop :=
  (∀ (v : Int) (s : Nat), asr v s * 2 ^ s ≤ v ∧ v < (asr v s + 1) * 2 ^ s) ∧
  (∀ (v : Int) (s : Nat), 1 ≤ s → rndShr v s = asr (v + 2 ^ (s - 1)) s ∧
    (2 * rndShr v s - 1) * 2 ^ s ≤ 2 * v ∧ 2 * v < (2 * rndShr v s + 1) * 2 ^ s) ∧
  rndShr 16384 15 = 1 ∧ rndShr 16383 15 = 0 ∧ rndShr (-16384) 15 = 0 ∧ rndShr (-16385) 15 = -1

/-- Rules R11, R56: `sat16` clamps, and the 16-bit output cell holds its value. -/
def Obligations.SaturationClampsTo16Bits : Prop :=
  ∀ v : Int, (32767 < v → sat16 v = 32767) ∧ (v < -32768 → sat16 v = -32768) ∧
    (-32768 ≤ v → v ≤ 32767 → sat16 v = v) ∧ (store16 v).toInt = sat16 v

/-- Rules R12, R13: the checks on the wide accumulator and on a 32-bit cell pass exactly their ranges, and otherwise the
command is `undefined U_ACC40`, `undefined U_STORE32`. -/
def Obligations.RangeChecksStopOutsideTheirRange : Prop :=
  ∀ v : Int,
    (InAcc v → acc40 v = .ok v) ∧ (¬InAcc v → acc40 v = undefined .acc40) ∧
    (InCell v → ∃ w, store32 v = .ok w ∧ w.toInt = v) ∧ (¬InCell v → store32 v = undefined .store32)

/-! ### The CIC -/

/-- Rule R101: the integrators are updated in cascade order, each adding the value just written before it, every sum wrapped;
the comb registers are untouched; the rule's corner case and worked example. -/
def Obligations.CicPushIntegratesInCascade : Prop :=
  (∀ (c : Cic) (b : Bool),
    (cicPush c b).acc0.toInt = wrapInt (c.acc0.toInt + (if b then 1 else -1)) ∧
    (cicPush c b).acc1.toInt = wrapInt (c.acc1.toInt + (cicPush c b).acc0.toInt) ∧
    (cicPush c b).acc2.toInt = wrapInt (c.acc2.toInt + (cicPush c b).acc1.toInt) ∧
    (cicPush c b).acc3.toInt = wrapInt (c.acc3.toInt + (cicPush c b).acc2.toInt) ∧
    (cicPush c b).dly0 = c.dly0 ∧ (cicPush c b).dly1 = c.dly1 ∧
    (cicPush c b).dly2 = c.dly2 ∧ (cicPush c b).dly3 = c.dly3) ∧
  (∀ c : Cic, c.acc0.toInt = 2 ^ 31 - 1 → (cicPush c true).acc0.toInt = -2 ^ 31) ∧
  (cicPush .zero true).cells = [1, 1, 1, 1, 0, 0, 0, 0] ∧
  (cicPush (cicPush .zero true) true).cells = [2, 3, 4, 5, 0, 0, 0, 0] ∧
  (cicPush (cicPush (cicPush .zero true) true) false).cells = [1, 4, 8, 13, 0, 0, 0, 0]

/-- Rule R103: each comb stage subtracts the value its input had at the previous step and keeps the new one, every difference
wrapped; the integrators are untouched; the last difference is the output; the rule's worked example. -/
def Obligations.CicCombTakesFourDifferences : Prop :=
  (∀ c : Cic,
    let d1 := wrapInt (c.acc3.toInt - c.dly0.toInt)
    let d2 := wrapInt (d1 - c.dly1.toInt)
    let d3 := wrapInt (d2 - c.dly2.toInt)
    (cicComb c).1.toInt = wrapInt (d3 - c.dly3.toInt) ∧
    (cicComb c).2.dly0 = c.acc3 ∧ (cicComb c).2.dly1.toInt = d1 ∧ (cicComb c).2.dly2.toInt = d2 ∧
    (cicComb c).2.dly3.toInt = d3 ∧
    (cicComb c).2.acc0 = c.acc0 ∧ (cicComb c).2.acc1 = c.acc1 ∧ (cicComb c).2.acc2 = c.acc2 ∧
    (cicComb c).2.acc3 = c.acc3) ∧
  (∀ c : Cic, c.acc3 = 52360 → c.dly0 = 3876 → c.dly1 = 3876 → c.dly2 = 3876 → c.dly3 = 3876 →
    (cicComb c).1 = 36856 ∧ (cicComb c).2.dly0 = 52360 ∧ (cicComb c).2.dly1 = 48484 ∧
    (cicComb c).2.dly2 = 44608 ∧ (cicComb c).2.dly3 = 40732)

/-- Rule R102: a half-word is sixteen pushes, bit 15 first and bit 0 last, and then one comb step; the rule's worked
example. -/
def Obligations.CicHalfPushesSixteenBitsMsbFirst : Prop :=
  (∀ (c : Cic) (h : Half), ∃ after : Nat → Cic, after 0 = c ∧
    (∀ i, i < 16 → after (i + 1) = cicPush (after i) (h.getLsbD (15 - i))) ∧ cicHalf c h = cicComb (after 16)) ∧
  (cicHalf .zero 0xFFFF).1 = 3876 ∧
  (cicHalf .zero 0xFFFF).2.cells = [16, 136, 816, 3876, 3876, 3876, 3876, 3876]

/-- Rule R104: `CIC len` completes on every state with its operands, takes each lane's CIC through the words in order, high
half before low half, and returns both lanes' outputs; nothing else changes, and with `len = 0` nothing at all but an empty
answer; the rule's worked example. -/
def Obligations.CicCommandRunsBothLanes : Prop :=
  (∀ (s : State) (len : Nat) (inL inR : List Pdm), configWellFormed s.config = true → s.operands = .pdm inL inR →
    inL.length = len → inR.length = len →
    ∃ outL outR cicL cicR,
      exec (.cic len) s = .next (({ s with left := { s.left with cic := cicL }, right := { s.right with cic := cicR } }
        : State).answer (.cic outL outR)) ∧
      CicLaneRuns inL s.left.cic outL cicL ∧ CicLaneRuns inR s.right.cic outR cicR) ∧
  (∀ s : State, configWellFormed s.config = true → s.operands = .pdm [] [] →
    exec (.cic 0) s = .next (s.answer (.cic [] []))) ∧
  decode 0x10000001 = .ok (.cic 1) ∧
  (∀ s : State, configWellFormed s.config = true → s.operands = .pdm [0xFFFFFFFF] [0x00000000] →
    s.left.cic = .zero → s.right.cic = .zero →
    ∃ t, exec (.cic 1) s = .next t ∧ t.outputs = s.outputs ++ [.cic [3876, 36856] [-3876, -36856]] ∧
      t.left.cic.cells = [32, 528, 5984, 52360, 52360, 48484, 44608, 40732] ∧
      t.right.cic.cells = [-32, -528, -5984, -52360, -52360, -48484, -44608, -40732])

/-- Rules R9, R23, R108: the wrapping registers and the outputs are at every point the `wrap_32` of a CIC over unbounded
integers that never wraps. -/
def Obligations.CicIsTheUnboundedCicModulo32Bits : Prop :=
  ∀ (ws : List Pdm) (e : CicExact),
    cicRun ws e.wrap = ((CicExact.run ws e).1.map wrap32, (CicExact.run ws e).2.wrap)

/-- Rule R105: a `CIC` on a joined sequence gives the outputs and the final state of a `CIC` on each part in turn. -/
def Obligations.CicStreamsAcrossCommands : Prop :=
  ∀ (s : State) (l1 r1 l2 r2 : List Pdm), configWellFormed s.config = true →
    l1.length = r1.length → l2.length = r2.length →
    ∃ t1 t2 t aL aR bL bR,
      exec (.cic l1.length) { s with operands := .pdm l1 r1 } = .next t1 ∧
      exec (.cic l2.length) { t1 with operands := .pdm l2 r2 } = .next t2 ∧
      exec (.cic (l1.length + l2.length)) { s with operands := .pdm (l1 ++ l2) (r1 ++ r2) } = .next t ∧
      t.left = t2.left ∧ t.right = t2.right ∧
      t2.outputs = s.outputs ++ [.cic aL aR, .cic bL bR] ∧ t.outputs = s.outputs ++ [.cic (aL ++ bL) (aR ++ bR)]

/-- Rule R106: from a reset CIC, a constant `+1` bit stream gives `3876, 36856, 63716` and then `65536` for ever, and a
constant `-1` stream the negatives, however long the run and although the registers wrap. -/
def Obligations.CicSettlesOnConstantInput : Prop :=
  ∀ (s : State) (len : Nat), configWellFormed s.config = true → s.left.cic = .zero → s.right.cic = .zero →
    s.operands = .pdm (List.replicate len 0xFFFFFFFF) (List.replicate len 0x00000000) →
    ∃ t outL outR, exec (.cic len) s = .next t ∧ t.outputs = s.outputs ++ [.cic outL outR] ∧
      outL.map BitVec.toInt = (([3876, 36856, 63716] : List Int) ++ List.replicate (2 * len) 65536).take (2 * len) ∧
      outR.map BitVec.toInt = (([-3876, -36856, -63716] : List Int) ++ List.replicate (2 * len) (-65536)).take (2 * len)

/-- Rule R106: from a reset CIC, every output lies in `-65536 .. 65536` whatever the bits. -/
def Obligations.CicOutputsFromResetAreBounded : Prop :=
  ∀ (s : State) (len : Nat) (inL inR : List Pdm), configWellFormed s.config = true →
    s.left.cic = .zero → s.right.cic = .zero → s.operands = .pdm inL inR → inL.length = len → inR.length = len →
    ∃ t outL outR, exec (.cic len) s = .next t ∧ t.outputs = s.outputs ++ [.cic outL outR] ∧
      (∀ y ∈ outL, Within 65536 y) ∧ (∀ y ∈ outR, Within 65536 y)

/-! ### The FIR -/

/-- Rule R132: a push writes the slot of the oldest sample and no other cell, and the index goes to the next slot, from `S`
to 1; the loop of a command pushes both samples of a pair, in order, before each output; the rule's worked example. -/
def Obligations.FirPushOverwritesTheOldest : Prop :=
  (∀ (slots p : Nat) (x : Sample) (dl : Buffer), dl.length = slots + 1 → 1 ≤ p → p ≤ slots →
    cellAt (firPush slots x dl p).1 p = x ∧ (∀ j, j ≠ p → cellAt (firPush slots x dl p).1 j = cellAt dl j) ∧
    (firPush slots x dl p).1.length = slots + 1 ∧
    (firPush slots x dl p).2 = (if p = slots then 1 else p + 1)) ∧
  (∀ (slots p : Nat) (h : List Int) (x0 x1 : Sample) (xs : List Sample) (dl : Buffer),
    firLoop slots h (x0 :: x1 :: xs) dl p =
      let r0 := firPush slots x0 dl p
      let r1 := firPush slots x1 r0.1 r0.2
      (do let y ← firOut slots h r1.1 r1.2
          let (ys, dl', p') ← firLoop slots h xs r1.1 r1.2
          .ok (y :: ys, dl', p'))) ∧
  (∀ dl : Buffer, dl.length = 7 → cellAt (firPush 6 9 dl 6).1 6 = 9 ∧ (firPush 6 9 dl 6).2 = 1)

/-- Rule R133: with `newest(k)` in slot `((p - 2 - k) mod S) + 1`, the output is the rounded sum of the products; the command
is `undefined U_ACC40` exactly when a partial sum or the biased sum leaves 40 bits, and never `U_STORE32`; nominal samples and
at most 127 taps never leave it; the rule's corner cases and worked example. The clauses on `U_STORE32` and on 127 taps are
sentences the rule marks `[derived: ...]`. -/
def Obligations.FirOutRoundsTheConvolution : Prop :=
  (∀ (nc p : Nat) (h : List Int) (dl : Buffer), h.length = nc → 1 ≤ p → p ≤ nc + 2 →
    let newest : Nat → Int := fun k => (cellAt dl ((((p : Int) - 2 - k) % (nc + 2 : Nat)).toNat + 1)).toInt
    let partialSum : Nat → Int := fun j => ((List.range j).map fun k => h.getD k 0 * newest k).sum
    let fits : Prop := (∀ j, 1 ≤ j → j ≤ nc → InAcc (partialSum j)) ∧ InAcc (partialSum nc + 16384)
    (fits → ∃ y, firOut (nc + 2) h dl p = .ok y ∧ y.toInt = rndShr (partialSum nc) 15) ∧
    (¬fits → firOut (nc + 2) h dl p = undefined .acc40) ∧
    (nc ≤ 127 → (∀ v ∈ h, -32768 ≤ v ∧ v ≤ 32767) →
      (∀ k, k < nc → -131072 ≤ newest k ∧ newest k ≤ 131071) → fits)) ∧
  rndShr 16384 15 = 1 ∧ rndShr (-16384) 15 = 0 ∧ rndShr (-16385) 15 = -1 ∧
  firOut 6 [8192, 16384, -8192, 4096] [3, 7, 8, 3, 4, 5, 6] 3 = .ok 5

/-- Rule R145: a trailing zero tap changes no output. -/
def Obligations.FirTrailingZeroTapChangesNothing : Prop :=
  ∀ (slots p : Nat) (h : List Int) (dl : Buffer), firOut slots (h ++ [0]) dl p = firOut slots h dl p

/-- Rule R133's sufficient condition for headroom: at most 127 taps and nominal samples. -/
def Obligations.FirNominalSignalHasHeadroom : Prop :=
  ∀ (c : Config) (st : Stage), configWellFormed c = true → tapCount c st ≤ 127 →
    ∃ y, FirHeadroom (taps c st) 131072 y

/-- Rule R140 (with R143): where there is headroom, `FIR` completes and is the textbook decimating FIR: every second sample,
the rounded convolution of the taps with the most recent samples, those of earlier commands included. Its buffer then holds
the new samples, newest first, followed by the earlier ones, still within the same bound, and the index rule R143 gives;
nothing else has changed. -/
def Obligations.FirCommandIsTheTextbookFilter : Prop :=
  ∀ (s : State) (st : Stage) (ch : Chan) (len : Nat) (x : List Sample) (m y : Int), Inv s → IndicesFit s.config →
    s.operands = .samples x → x.length = len → len % 2 = 0 →
    FirHeadroom (taps s.config st) m y → CellsWithin m ((s.lane ch).fir st) → (∀ v ∈ x, Within m v) →
    ∃ out dl,
      exec (.fir st ch len) s = .next ((s.setLane ch ((s.lane ch).setFir st dl)).answer (.samples out)) ∧
      out.map BitVec.toInt =
        firTextbook (taps s.config st)
          (firHistory (tapCount s.config st) ((s.lane ch).fir st) (indexOf ((s.lane ch).fir st))) x ∧
      (∀ v ∈ out, Within y v) ∧ CellsWithin m dl ∧ dl.length = tapCount s.config st + 3 ∧
      firHistory (tapCount s.config st) dl (indexOf dl) =
        ((x.map BitVec.toInt).reverse ++
          firHistory (tapCount s.config st) ((s.lane ch).fir st) (indexOf ((s.lane ch).fir st))).take
          (tapCount s.config st) ∧
      (cellAt dl 0).toInt = ((indexOf ((s.lane ch).fir st) - 1 + len) % (tapCount s.config st + 2) + 1 : Nat)

/-- Rule R141: `FIR` on a joined sequence gives the outputs and the final buffer of `FIR` on each even part in turn. -/
def Obligations.FirStreamsAcrossCommands : Prop :=
  ∀ (s : State) (st : Stage) (ch : Chan) (x1 x2 : List Sample) (t1 t2 : State), x1.length % 2 = 0 → x2.length % 2 = 0 →
    exec (.fir st ch x1.length) { s with operands := .samples x1 } = .next t1 →
    exec (.fir st ch x2.length) { t1 with operands := .samples x2 } = .next t2 →
    ∃ t y1 y2, exec (.fir st ch (x1.length + x2.length)) { s with operands := .samples (x1 ++ x2) } = .next t ∧
      t.left = t2.left ∧ t.right = t2.right ∧
      t2.outputs = s.outputs ++ [.samples y1, .samples y2] ∧ t.outputs = s.outputs ++ [.samples (y1 ++ y2)]

/-- Rule R144: from a reset buffer, an impulse of 1.0 at position 0 gives twice the odd-numbered taps, at position 1 twice the
even-numbered ones, and then 0. -/
def Obligations.FirImpulseShowsEveryOtherTap : Prop :=
  ∀ (s : State) (st : Stage) (ch : Chan) (len : Nat), configWellFormed s.config = true → IndicesFit s.config →
    (s.lane ch).fir st = List.replicate (tapCount s.config st + 3) 0 → len % 2 = 0 → 2 ≤ len →
    (s.operands = .samples (65536 :: List.replicate (len - 1) 0) →
      ∃ t y, exec (.fir st ch len) s = .next t ∧ t.outputs = s.outputs ++ [.samples y] ∧ y.length = len / 2 ∧
        ∀ m, m < len / 2 → (y.getD m 0).toInt = 2 * (taps s.config st).getD (2 * m + 1) 0) ∧
    (s.operands = .samples (0 :: 65536 :: List.replicate (len - 2) 0) →
      ∃ t y, exec (.fir st ch len) s = .next t ∧ t.outputs = s.outputs ++ [.samples y] ∧ y.length = len / 2 ∧
        ∀ m, m < len / 2 → (y.getD m 0).toInt = 2 * (taps s.config st).getD (2 * m) 0)

/-- Rule R26: a stored index of 0 is read as 1, one outside `0 .. S` is `undefined U_IDX`, and after a command it lies in
`1 .. S`. -/
def Obligations.FirStoredIndexStaysOnASlot : Prop :=
  ∀ (s : State) (st : Stage) (ch : Chan) (len : Nat) (x : List Sample), configWellFormed s.config = true →
    s.operands = .samples x → x.length = len → len % 2 = 0 →
    ((s.lane ch).fir st).length = tapCount s.config st + 3 →
    ((cellAt ((s.lane ch).fir st) 0).toInt < 0 ∨ (tapCount s.config st + 2 : Nat) < (cellAt ((s.lane ch).fir st) 0).toInt →
      exec (.fir st ch len) s = .fault .idx) ∧
    ((cellAt ((s.lane ch).fir st) 0).toInt = 0 →
      exec (.fir st ch len) s =
        exec (.fir st ch len) (s.setLane ch ((s.lane ch).setFir st (setCell ((s.lane ch).fir st) 0 1)))) ∧
    (∀ t, exec (.fir st ch len) s = .next t →
      1 ≤ (cellAt ((t.lane ch).fir st) 0).toInt ∧
      (cellAt ((t.lane ch).fir st) 0).toInt ≤ (tapCount s.config st + 2 : Nat))

/-! ### The IIR -/

/-- Rule R163: the input gain is the rounded product; `U_ACC40` exactly when the product or the biased product leaves 40
bits, never `U_STORE32`; below `2^23` in magnitude it cannot; the rule's examples. -/
def Obligations.IirGainRoundsTheProduct : Prop :=
  (∀ (g : Nat) (x : Sample), g ≤ 65535 →
    (InAcc (g * x.toInt) ∧ InAcc (g * x.toInt + 32768) →
      ∃ u, iirGain g x = .ok u ∧ u.toInt = rndShr (g * x.toInt) 16) ∧
    (¬(InAcc (g * x.toInt) ∧ InAcc (g * x.toInt + 32768)) → iirGain g x = undefined .acc40) ∧
    (Within (2 ^ 23 - 1) x → InAcc (g * x.toInt) ∧ InAcc (g * x.toInt + 32768))) ∧
  (∀ x : Sample, iirGain 0 x = .ok 0) ∧
  iirGain 0xFFFF 65536 = .ok 65535 ∧ iirGain 0x8000 1 = .ok 1 ∧ iirGain 0x8000 (-1) = .ok 0 ∧
  iirGain 0x8000 3 = .ok 2 ∧ iirGain 0x8000 (-3) = .ok (-1) ∧ iirGain 0x8000 131072 = .ok 65536

/-- Rule R170: the two sums, the two roundings and the ten checks of a Direct Form II section, in order; `d(n)` is the input
plus the rounded feedback sum, a sentence the rule marks `[derived: from rule R10]`; all-zero coefficients give `d(n) = u` and
`y = 0`; the rule's worked example. -/
def Obligations.Df2SectionFollowsItsEquations : Prop :=
  (∀ (s : Nat) (b : Biquad) (u d1 d2 : Sample), 1 ≤ s → s ≤ 15 →
    let a1 := u.toInt * 2 ^ s
    let a2 := a1 - b.a1 * d1.toInt
    let a3 := a2 - b.a2 * d2.toInt
    let a4 := a3 + 2 ^ (s - 1)
    let dn := asr a4 s
    let c1 := b.b0 * dn
    let c2 := c1 + b.b1 * d1.toInt
    let c3 := c2 + b.b2 * d2.toInt
    let c4 := c3 + 2 ^ (s - 1)
    let y := asr c4 s
    let fitsA : Prop := InAcc a1 ∧ InAcc a2 ∧ InAcc a3 ∧ InAcc a4
    let fitsC : Prop := InAcc c1 ∧ InAcc c2 ∧ InAcc c3 ∧ InAcc c4
    dn = u.toInt + rndShr (-(b.a1 * d1.toInt) - b.a2 * d2.toInt) s ∧
    (fitsA → InCell dn → fitsC → InCell y →
      ∃ yc dc, df2Section s b u d1 d2 = .ok (yc, dc) ∧ yc.toInt = y ∧ dc.toInt = dn) ∧
    (¬fitsA → df2Section s b u d1 d2 = undefined .acc40) ∧
    (fitsA → ¬InCell dn → df2Section s b u d1 d2 = undefined .store32) ∧
    (fitsA → InCell dn → ¬fitsC → df2Section s b u d1 d2 = undefined .acc40) ∧
    (fitsA → InCell dn → fitsC → ¬InCell y → df2Section s b u d1 d2 = undefined .store32)) ∧
  (∀ (s : Nat) (u d1 d2 y dn : Sample), 1 ≤ s → s ≤ 15 →
    df2Section s { b0 := 0, b1 := 0, b2 := 0, a1 := 0, a2 := 0 } u d1 d2 = .ok (y, dn) → dn = u ∧ y = 0) ∧
  df2Section 14 { b0 := 8192, b1 := 4096, b2 := 2048, a1 := -8192, a2 := 4096 } 0 32768 65536 = .ok (16384, 0)

/-- Rule R180: the sum, the one rounding and the seven checks of a Direct Form I section; all-zero coefficients give `y = 0`;
the rule's worked example. -/
def Obligations.Df1SectionFollowsItsEquation : Prop :=
  (∀ (s : Nat) (b : Biquad) (u x1 x2 y1 y2 : Sample), 1 ≤ s → s ≤ 15 →
    let c1 := b.b0 * u.toInt
    let c2 := c1 + b.b1 * x1.toInt
    let c3 := c2 + b.b2 * x2.toInt
    let c4 := c3 - b.a1 * y1.toInt
    let c5 := c4 - b.a2 * y2.toInt
    let y := rndShr c5 s
    let fits : Prop := InAcc c1 ∧ InAcc c2 ∧ InAcc c3 ∧ InAcc c4 ∧ InAcc c5 ∧ InAcc (c5 + 2 ^ (s - 1))
    (fits → InCell y → ∃ yc, df1Section s b u x1 x2 y1 y2 = .ok yc ∧ yc.toInt = y) ∧
    (¬fits → df1Section s b u x1 x2 y1 y2 = undefined .acc40) ∧
    (fits → ¬InCell y → df1Section s b u x1 x2 y1 y2 = undefined .store32)) ∧
  (∀ (s : Nat) (u x1 x2 y1 y2 : Sample), 1 ≤ s → s ≤ 15 →
    df1Section s { b0 := 0, b1 := 0, b2 := 0, a1 := 0, a2 := 0 } u x1 x2 y1 y2 = .ok 0) ∧
  df1Section 14 { b0 := 8192, b1 := 4096, b2 := 2048, a1 := -8192, a2 := 4096 } 0 0 65536 32768 32768 = .ok 16384

/-- Rules R30, R165: the slots of an interleaved buffer are its cells `1 .. 2*NB`, no two offsets share one, and advancing the
index by `NB` swaps a section's older and newer slot. -/
def Obligations.IirSlotsInterleaveTheSections : Prop :=
  ∀ nb p : Nat, 1 ≤ nb → 1 ≤ p → p ≤ 2 * nb →
    (∀ j, 1 ≤ iirSlot nb p j ∧ iirSlot nb p j ≤ 2 * nb) ∧
    (∀ i j, i < 2 * nb → j < 2 * nb → iirSlot nb p i = iirSlot nb p j → i = j) ∧
    iirSlot nb p 0 = p ∧
    (∀ i, i < nb → iirSlot nb (iirSlot nb p nb) i = iirSlot nb p (i + nb) ∧
      iirSlot nb (iirSlot nb p nb) (i + nb) = iirSlot nb p i) ∧
    iirSlot nb (iirSlot nb p nb) nb = p

/-- Rules R26, R30, R176, R186, R192: for both IIR forms, a stored index outside `0 .. 2*NB` is `undefined U_IDX`, and after a
command each stored index is the one it started from (0 counted as 1) after an even number of samples, and the slot `NB`
further after an odd number. -/
def Obligations.IirStoredIndexAlternates : Prop :=
  ∀ (s : State) (ch : Chan) (len : Nat) (x : List Sample), configWellFormed s.config = true →
    s.operands = .samples x → x.length = len →
    (s.lane ch).d.length = 2 * s.config.nb + 1 → (s.lane ch).ff.length = 2 * s.config.nb + 1 →
    (s.lane ch).fb.length = 2 * s.config.nb + 1 →
    let bad : Buffer → Prop := fun b => (cellAt b 0).toInt < 0 ∨ (2 * s.config.nb : Nat) < (cellAt b 0).toInt
    let next : Buffer → Int := fun b =>
      if len % 2 = 0 then (indexOf b : Int) else (iirSlot s.config.nb (indexOf b) s.config.nb : Int)
    (bad (s.lane ch).d → exec (.iir2 ch len) s = .fault .idx) ∧
    (bad (s.lane ch).ff ∨ bad (s.lane ch).fb → exec (.iir1 ch len) s = .fault .idx) ∧
    (∀ t, exec (.iir2 ch len) s = .next t → (cellAt (t.lane ch).d 0).toInt = next (s.lane ch).d) ∧
    (∀ t, exec (.iir1 ch len) s = .next t → (cellAt (t.lane ch).ff 0).toInt = next (s.lane ch).ff ∧
      (cellAt (t.lane ch).fb 0).toInt = next (s.lane ch).fb)

/-- Rules R30, R164, R176, R274: the loop of `IIR2` on its interleaved circular buffer does what a cascade of sections with
delay records of their own does, result for result and fault for fault. -/
def Obligations.Iir2IsACascadeOfDelayRecords : Prop :=
  ∀ (c : Config) (x : List Sample) (d : Buffer) (p : Nat), configWellFormed c = true →
    d.length = 2 * c.nb + 1 → 1 ≤ p → p ≤ 2 * c.nb →
    match df2RecordsRun c x (delayPairs c.nb p d) with
    | .ok (y, pairs) => ∃ d' p', df2Loop c x d p = .ok (y, d', p') ∧ delayPairs c.nb p' d' = pairs
    | .error e => df2Loop c x d p = .error e

/-- Rules R30, R164, R186, R274: the loop of `IIR1` on its two interleaved circular buffers, each with an index of its own,
does what a cascade of sections with delay records of their own does, result for result and fault for fault. -/
def Obligations.Iir1IsACascadeOfDelayRecords : Prop :=
  ∀ (c : Config) (x : List Sample) (ff fb : Buffer) (pf pb : Nat), configWellFormed c = true →
    ff.length = 2 * c.nb + 1 → fb.length = 2 * c.nb + 1 → 1 ≤ pf → pf ≤ 2 * c.nb → 1 ≤ pb → pb ≤ 2 * c.nb →
    match df1RecordsRun c x (delayPairs c.nb pf ff) (delayPairs c.nb pb fb) with
    | .ok (y, xs, ys) => ∃ r, df1Loop c x ff fb pf pb = .ok r ∧ r.y = y ∧
        delayPairs c.nb r.pf r.ff = xs ∧ delayPairs c.nb r.pb r.fb = ys
    | .error e => df1Loop c x ff fb pf pb = .error e

/-- Rules R176, R270: where the configuration and the signal have headroom, `IIR2` completes on any number of samples, with
the outputs and delay values of the cascade of sections; the bounds hold again afterwards; only `D[ch]` has changed. -/
def Obligations.Iir2CompletesWithinHeadroom : Prop :=
  ∀ (s : State) (ch : Chan) (len : Nat) (x : List Sample) (m u d y : Int), Inv s → IndicesFit s.config →
    s.operands = .samples x → x.length = len → Df2Headroom s.config m u d y →
    (∀ v ∈ x, Within m v) → CellsWithin d (s.lane ch).d →
    ∃ out buf,
      exec (.iir2 ch len) s = .next ((s.setLane ch { s.lane ch with d := buf }).answer (.samples out)) ∧
      out.length = len ∧ (∀ v ∈ out, Within y v) ∧ CellsWithin d buf ∧ buf.length = 2 * s.config.nb + 1 ∧
      df2RecordsRun s.config x (delayPairs s.config.nb (indexOf (s.lane ch).d) (s.lane ch).d) =
        .ok (out, delayPairs s.config.nb (indexOf buf) buf)

/-- Rules R186, R270: where the configuration and the signal have headroom, `IIR1` completes on any number of samples, with
the outputs and delay values of the cascade of sections; the bounds hold again afterwards; only `FF[ch]` and `FB[ch]` have
changed. -/
def Obligations.Iir1CompletesWithinHeadroom : Prop :=
  ∀ (s : State) (ch : Chan) (len : Nat) (x : List Sample) (m u y : Int), Inv s → IndicesFit s.config →
    s.operands = .samples x → x.length = len → Df1Headroom s.config m u y →
    (∀ v ∈ x, Within m v) → CellsWithin u (s.lane ch).ff → CellsWithin y (s.lane ch).fb →
    ∃ out ff fb,
      exec (.iir1 ch len) s = .next ((s.setLane ch { s.lane ch with ff := ff, fb := fb }).answer (.samples out)) ∧
      out.length = len ∧ (∀ v ∈ out, Within y v) ∧ CellsWithin u ff ∧ CellsWithin y fb ∧
      ff.length = 2 * s.config.nb + 1 ∧ fb.length = 2 * s.config.nb + 1 ∧
      df1RecordsRun s.config x (delayPairs s.config.nb (indexOf (s.lane ch).ff) (s.lane ch).ff)
          (delayPairs s.config.nb (indexOf (s.lane ch).fb) (s.lane ch).fb) =
        .ok (out, delayPairs s.config.nb (indexOf ff) ff, delayPairs s.config.nb (indexOf fb) fb)

/-- Rule R190: `IIR1` and `IIR2` on a joined sequence give the outputs and the final state of the command on each part in
turn, odd lengths included. -/
def Obligations.IirStreamsAcrossCommands : Prop :=
  ∀ (s : State) (ch : Chan) (x1 x2 : List Sample) (t1 t2 : State),
    ∀ cmd ∈ [Instr.iir1 ch, Instr.iir2 ch],
    exec (cmd x1.length) { s with operands := .samples x1 } = .next t1 →
    exec (cmd x2.length) { t1 with operands := .samples x2 } = .next t2 →
    ∃ t y1 y2, exec (cmd (x1.length + x2.length)) { s with operands := .samples (x1 ++ x2) } = .next t ∧
      t.left = t2.left ∧ t.right = t2.right ∧
      t2.outputs = s.outputs ++ [.samples y1, .samples y2] ∧ t.outputs = s.outputs ++ [.samples (y1 ++ y2)]

/-! ### The gain stage -/

/-- Rule R201: the gain is the rounded product, clamped after the shift; `U_ACC40` exactly when the product or the biased
product leaves 40 bits; below `2^23` in magnitude it cannot; the rule's corner cases and worked example. -/
def Obligations.GainSampleRoundsThenClamps : Prop :=
  (∀ (g : Nat) (x : Sample), g ≤ 65535 →
    (InAcc (x.toInt * g) ∧ InAcc (x.toInt * g + 256) →
      ∃ y, gainSample g x = .ok y ∧ y.toInt = sat16 (rndShr (x.toInt * g) 9)) ∧
    (¬(InAcc (x.toInt * g) ∧ InAcc (x.toInt * g + 256)) → gainSample g x = undefined .acc40) ∧
    (Within (2 ^ 23 - 1) x → InAcc (x.toInt * g) ∧ InAcc (x.toInt * g + 256)) ∧
    (Nominal x → -2 ^ 33 < x.toInt * g ∧ x.toInt * g < 2 ^ 33)) ∧
  (∀ (x : Sample) (y : Pcm), gainSample 256 x = .ok y → y.toInt = sat16 (asr (x.toInt + 1) 1)) ∧
  (∀ x : Sample, gainSample 0 x = .ok 0) ∧
  gainSample 256 1000 = .ok 500 ∧ gainSample 256 1001 = .ok 501 ∧ gainSample 256 (-1001) = .ok (-500) ∧ gainSample 256 3 = .ok 2 ∧
  gainSample 256 (-3) = .ok (-1) ∧ gainSample 256 65534 = .ok 32767 ∧ gainSample 256 65535 = .ok 32767 ∧
  gainSample 256 (-65536) = .ok (-32768) ∧ gainSample 256 (-65537) = .ok (-32768) ∧
  gainSample 0xFFFF 1 = .ok 128 ∧ gainSample 0xFFFF (-1) = .ok (-128) ∧
  gainSample 256 0x7FFFFFFF = undefined .acc40 ∧ gainSample 0x0180 10624 = .ok 7968

/-- Rule R202: `GAIN` completes exactly when every sample does, returns one output for each sample in order, and changes no
state; it is `undefined U_ACC40` otherwise; samples below `2^23` in magnitude always complete; a joined sequence gives the
joined outputs, a sentence the rule marks `[derived: from rule R201]`; the rule's worked example. -/
def Obligations.GainCommandMapsEverySample : Prop :=
  (∀ (s : State) (len : Nat) (x : List Sample), configWellFormed s.config = true → s.operands = .samples x →
    x.length = len →
    (∀ y, List.Forall₂ (fun a b => gainSample s.config.digGain a = .ok b) x y →
      exec (.gain len) s = .next (s.answer (.pcm y))) ∧
    ((∃ a ∈ x, gainSample s.config.digGain a = undefined .acc40) → exec (.gain len) s = .fault .acc40) ∧
    ((∀ a ∈ x, Within (2 ^ 23 - 1) a) → ∃ y, exec (.gain len) s = .next (s.answer (.pcm y)) ∧
      List.Forall₂ (fun (a : Sample) (b : Pcm) => b.toInt = sat16 (rndShr (a.toInt * s.config.digGain) 9)) x y)) ∧
  (∀ s : State, configWellFormed s.config = true → s.operands = .samples [] →
    exec (.gain 0) s = .next (s.answer (.pcm []))) ∧
  (∀ (g : Nat) (x1 x2 : List Sample) (y1 y2 : List Pcm), gainCommand g x1 = .ok y1 → gainCommand g x2 = .ok y2 →
    gainCommand g (x1 ++ x2) = .ok (y1 ++ y2)) ∧
  decode 0x50000002 = .ok (.gain 2) ∧ gainCommand 256 [42496, 65536] = .ok [21248, 32767]

/-- Rule R203: with a gain of 1.0 or more the ends of the S18 range clamp to the ends of the 16-bit range, and at gain 1.0 a
mid-range input is halved with half-up rounding and not clamped. -/
def Obligations.GainSaturatesAtFullScale : Prop :=
  (∀ g : Nat, 256 ≤ g → g ≤ 65535 →
    gainSample g 131071 = .ok 32767 ∧ gainSample g (-131072) = .ok (-32768)) ∧
  (∀ x : Sample, Within 65534 x → ∃ y, gainSample 256 x = .ok y ∧ y.toInt = asr (x.toInt + 1) 1)

/-! ### The chain and the housekeeping commands -/

/-- Rule R210: the all-zero word is `NOP`, and `NOP` leaves every piece of state as it was. -/
def Obligations.NopLeavesEverythingAlone : Prop :=
  decode 0x00000000 = .ok .nop ∧
  ∀ s : State, configWellFormed s.config = true → s.operands = .none → exec .nop s = .next s

/-- Rules R214, R261: `RESET` puts both lanes in the reset state, 0 in every cell, and touches neither the configuration nor
the host's lists; a `CIC` after it answers as from power-up. -/
def Obligations.ResetCommandClearsBothLanes : Prop :=
  decode 0x70000000 = .ok .reset ∧
  ∀ s : State, configWellFormed s.config = true → s.operands = .none →
    ∃ t, exec .reset s = .next t ∧
      t = { State.resetWith s.config with pending := s.pending, outputs := s.outputs } ∧
      (∀ l ∈ [t.left, t.right], ∀ b ∈ [l.cic.cells, l.fir1, l.fir2, l.d, l.ff, l.fb], ∀ v ∈ b, v = 0) ∧
      ∃ u, exec (.cic 1) { t with operands := .pdm [0xFFFFFFFF] [0x00000000] } = .next u ∧
        u.outputs = s.outputs ++ [.cic [3876, 36856] [-3876, -36856]]

/-- Rule R212: `FRAME` completes exactly when its unit commands, issued one by one from the same state with the same data, all
complete, and then with the same final state of both lanes and the same PCM sequences. -/
def Obligations.FrameIsItsUnitCommands : Prop :=
  ∀ (s : State) (len : Nat) (inL inR : List Pdm), configWellFormed s.config = true → len % 2 = 0 →
    s.operands = .pdm inL inR → inL.length = len → inR.length = len →
    (∀ t, exec (.frame len) s = .next t →
      ∃ a b c cL cR pcmL pcmR, exec (.cic len) s = .next a ∧ a.outputs = s.outputs ++ [.cic cL cR] ∧
        UnitCommandsRun .L len cL a b pcmL ∧ UnitCommandsRun .R len cR b c pcmR ∧
        t.left = c.left ∧ t.right = c.right ∧ t.outputs = s.outputs ++ [.frame pcmL pcmR]) ∧
    (∀ a b c cL cR pcmL pcmR, exec (.cic len) s = .next a → a.outputs = s.outputs ++ [.cic cL cR] →
      UnitCommandsRun .L len cL a b pcmL → UnitCommandsRun .R len cR b c pcmR →
      exec (.frame len) s =
        .next (({ s with left := c.left, right := c.right } : State).answer (.frame pcmL pcmR)))

/-- Rules R212, R270: where the configuration and the signal have headroom (`m` bounds the frame's CIC samples and the FIR
stage 1 history, `v` stage 1's outputs and the stage 2 history, `w` stage 2's outputs, `u`, `d`, `y` the IIR stage), `FRAME`
completes: each lane goes through its chain and the PCM sequences of half the count are returned. -/
def Obligations.FrameCompletesWithinHeadroom : Prop :=
  ∀ (s : State) (len : Nat) (inL inR : List Pdm) (m v w u d y : Int), Inv s → IndicesFit s.config → len % 2 = 0 →
    s.operands = .pdm inL inR → inL.length = len → inR.length = len →
    (∀ a ∈ (cicRun inL s.left.cic).1, Within m a) → (∀ a ∈ (cicRun inR s.right.cic).1, Within m a) →
    FirHeadroom s.config.h1 m v → FirHeadroom s.config.h2 v w →
    (∀ l ∈ [s.left, s.right], CellsWithin m l.fir1 ∧ CellsWithin v l.fir2) →
    (s.config.iirMode = .bypass → GainHeadroom s.config w) →
    (s.config.iirMode = .df1 → Df1Headroom s.config w u y ∧ GainHeadroom s.config y ∧
      ∀ l ∈ [s.left, s.right], CellsWithin u l.ff ∧ CellsWithin y l.fb) →
    (s.config.iirMode = .df2 → Df2Headroom s.config w u d y ∧ GainHeadroom s.config y ∧
      ∀ l ∈ [s.left, s.right], CellsWithin d l.d) →
    ∃ left right pcmL pcmR,
      exec (.frame len) s = .next (({ s with left := left, right := right } : State).answer (.frame pcmL pcmR)) ∧
      chainLane s.config (cicRun inL s.left.cic).1 { s.left with cic := (cicRun inL s.left.cic).2 } = .ok (pcmL, left) ∧
      chainLane s.config (cicRun inR s.right.cic).1 { s.right with cic := (cicRun inR s.right.cic).2 } =
        .ok (pcmR, right) ∧
      pcmL.length = len / 2 ∧ pcmR.length = len / 2

/-- Rules R82, R34 (with R36): a command that completes had operands of the kind and lengths rule R82 states, returns output
sequences of exactly the lengths it states, and has written no state but the buffers it names, which `RESET` has set to 0; the
configuration is never written (R34), and the host's pending commands are as they were. -/
def Obligations.CommandsKeepToTheirOperandsOutputsAndState : Prop :=
  ∀ (i : Instr) (s t : State), exec i s = .next t →
    OperandsFit i s.operands ∧ (∃ o, OutputsFit i o ∧ t.outputs = s.outputs ++ o) ∧ t.operands = .none ∧
    t.config = s.config ∧ t.pending = s.pending ∧
    SameBut (touched s.config.iirMode .L i) s.left t.left ∧ SameBut (touched s.config.iirMode .R i) s.right t.right ∧
    (i = .reset → t.left = .zero s.config ∧ t.right = .zero s.config)

/-- Rule R21 (from rules R104, R140, R176, R186 and R212, as its sentence is marked): the lanes never exchange data. Two
states that agree in the configuration and in one lane, and whose `CIC` or `FRAME` commands agree in that lane's words, give
that lane the same state and the same outputs, whatever the other lane holds. `FIR`, `IIR1` and `IIR2` on lane `ch`
complete in one of two states that agree in the configuration, in lane `ch` and in the samples exactly if they do in the
other, with the same new lane `ch` and the same outputs, and leave the other lane as it was. `GAIN` reads no lane
(`GainCommandMapsEverySample`). -/
def Obligations.LanesNeverExchangeData : Prop :=
  (∀ (s1 s2 : State) (len : Nat) (l1 r1 l2 r2 : List Pdm), s1.config = s2.config →
    s1.operands = .pdm l1 r1 → s2.operands = .pdm l2 r2 →
    (∀ t1 t2, exec (.cic len) s1 = .next t1 → exec (.cic len) s2 = .next t2 →
      ∃ aL aR bL bR, t1.outputs = s1.outputs ++ [.cic aL aR] ∧ t2.outputs = s2.outputs ++ [.cic bL bR] ∧
        (s1.left = s2.left → l1 = l2 → t1.left = t2.left ∧ aL = bL) ∧
        (s1.right = s2.right → r1 = r2 → t1.right = t2.right ∧ aR = bR)) ∧
    (∀ t1 t2, exec (.frame len) s1 = .next t1 → exec (.frame len) s2 = .next t2 →
      ∃ aL aR bL bR, t1.outputs = s1.outputs ++ [.frame aL aR] ∧ t2.outputs = s2.outputs ++ [.frame bL bR] ∧
        (s1.left = s2.left → l1 = l2 → t1.left = t2.left ∧ aL = bL) ∧
        (s1.right = s2.right → r1 = r2 → t1.right = t2.right ∧ aR = bR))) ∧
  (∀ (s1 s2 : State) (ch : Chan) (st : Stage) (len : Nat) (x : List Sample), s1.config = s2.config →
    s1.lane ch = s2.lane ch → s1.operands = .samples x → s2.operands = .samples x →
    ∀ i ∈ [Instr.fir st ch len, .iir1 ch len, .iir2 ch len], ∀ t1, exec i s1 = .next t1 →
      ∃ t2 y, exec i s2 = .next t2 ∧ t2.lane ch = t1.lane ch ∧ t1.outputs = s1.outputs ++ [.samples y] ∧
        t2.outputs = s2.outputs ++ [.samples y] ∧ t1.lane (otherLane ch) = s1.lane (otherLane ch) ∧
        t2.lane (otherLane ch) = s2.lane (otherLane ch))

/-- Decision D32 (rules R104, R140, R176, R186, R202, R212; T-SYS-3): a command with `len = 0` completes and returns empty
sequences. `CIC` and `GAIN` change no cell; `FIR`, `IIR1` and `IIR2` write their stored index back, so that 0 becomes 1, and
change nothing else; `FRAME` does so for both FIR buffers of each lane and for the IIR buffers `IIR_MODE` selects, and changes
nothing else. -/
def Obligations.EmptyCommandsOnlyNormaliseIndices : Prop :=
  ∀ s : State, Inv s → IndicesFit s.config →
    (s.operands = .pdm [] [] → exec (.cic 0) s = .next (s.answer (.cic [] []))) ∧
    (∀ st ch, s.operands = .samples [] → exec (.fir st ch 0) s =
      .next ((s.setLane ch ((s.lane ch).setFir st (normIndex ((s.lane ch).fir st)))).answer (.samples []))) ∧
    (∀ ch, s.operands = .samples [] → exec (.iir1 ch 0) s =
      .next ((s.setLane ch { s.lane ch with ff := normIndex (s.lane ch).ff, fb := normIndex (s.lane ch).fb }).answer
        (.samples []))) ∧
    (∀ ch, s.operands = .samples [] → exec (.iir2 ch 0) s =
      .next ((s.setLane ch { s.lane ch with d := normIndex (s.lane ch).d }).answer (.samples []))) ∧
    (s.operands = .samples [] → exec (.gain 0) s = .next (s.answer (.pcm []))) ∧
    (s.operands = .pdm [] [] → exec (.frame 0) s =
      .next (({ s with left := normLane s.config.iirMode s.left, right := normLane s.config.iirMode s.right } :
        State).answer (.frame [] [])))

/-! ### Reset and the whole machine -/

/-- Rule R40: after reset every cell of every buffer of both lanes holds 0, the stored indices included, the buffers have the
sizes of rules R22, R25, R29 and R31, and the configuration is the one configured. -/
def Obligations.ResetStateIsAllZero : Prop :=
  ∀ c : Config, (State.resetWith c).config = c ∧
    ∀ l ∈ [(State.resetWith c).left, (State.resetWith c).right],
      (∀ b ∈ [l.cic.cells, l.fir1, l.fir2, l.d, l.ff, l.fb], ∀ v ∈ b, v = 0) ∧
      l.cic.cells.length = 8 ∧ l.fir1.length = c.nc1 + 3 ∧ l.fir2.length = c.nc2 + 3 ∧
      l.d.length = 2 * c.nb + 1 ∧ l.ff.length = 2 * c.nb + 1 ∧ l.fb.length = 2 * c.nb + 1

/-- Rules R26, R30, R40: the invariant holds at reset, for every well-formed configuration and for the model's own. -/
def Obligations.ResetMeetsTheInvariant : Prop :=
  (∀ c : Config, configWellFormed c = true → Inv (State.resetWith c)) ∧ Inv State.reset

/-- Rules R26, R30, R143, R192: every step keeps the invariant: the configuration stays well formed, every buffer keeps its
size, and every stored index stays 0 or one of the slots. -/
def Obligations.EveryStepKeepsTheInvariant : Prop :=
  ∀ s t : State, Inv s → step s = .next t → Inv t

/-- Rules R26, R34, R233: in no run from reset, whatever commands the host sends, does a step end in `U_IDX`, in `U_CONFIG` or
on a buffer of the wrong size; and the configuration is the one the run started with. -/
def Obligations.ReachableRunsNeverMeetBadIndices : Prop :=
  ∀ (c : Config) (s : State), configWellFormed c = true → Reachable c s →
    Inv s ∧ s.config = c ∧ step s ≠ .fault .idx ∧ step s ≠ .refused .config ∧ step s ≠ .refused .relocated

/-! ### Formats and tables -/

/-- Rules R7, R70 to R72: the nominal range of an audio sample, the integers that stand for 1.0, and the largest gain. -/
def Obligations.FormatsReadAsTheSpecSays : Prop :=
  (∀ x : Sample, Nominal x ↔ -131072 ≤ x.toInt ∧ x.toInt ≤ 131071) ∧
  formatValue .audio 65536 = 1 ∧ formatValue .digitalGain 256 = 1 ∧ formatValue .digitalGain 65535 = 25599609375 / 100000000 ∧
  formatValue (.iirCoefficient 1) 8192 = 1 / 2 ∧ patternValue .pcm 0xFFFF = -1 ∧ patternValue .inputGain 0xFFFF = 65535

/-- Rule R77: a table of either form holds five cells a section, section `i` from cell `5*i` on, in the form's own order. -/
def Obligations.SectionTablesHoldFiveCellsEach : Prop :=
  (∀ (t : List (BitVec 16)) (cs : List Biquad), sectionsOfDf2Table t = some cs → t.length = 5 * cs.length ∧
    ∀ i, i < cs.length → (cs.getD i default).a1 = (t.getD (5 * i) 0).toInt ∧
      (cs.getD i default).a2 = (t.getD (5 * i + 1) 0).toInt ∧ (cs.getD i default).b2 = (t.getD (5 * i + 2) 0).toInt ∧
      (cs.getD i default).b0 = (t.getD (5 * i + 3) 0).toInt ∧ (cs.getD i default).b1 = (t.getD (5 * i + 4) 0).toInt) ∧
  (∀ (t : List (BitVec 16)) (cs : List Biquad), sectionsOfDf1Table t = some cs → t.length = 5 * cs.length ∧
    ∀ i, i < cs.length → (cs.getD i default).b0 = (t.getD (5 * i) 0).toInt ∧
      (cs.getD i default).b1 = (t.getD (5 * i + 1) 0).toInt ∧ (cs.getD i default).b2 = (t.getD (5 * i + 2) 0).toInt ∧
      (cs.getD i default).a1 = (t.getD (5 * i + 3) 0).toInt ∧ (cs.getD i default).a2 = (t.getD (5 * i + 4) 0).toInt) ∧
  (∀ t : List (BitVec 16), t.length % 5 = 0 → (sectionsOfDf2Table t).isSome ∧ (sectionsOfDf1Table t).isSome)
end

