-- ==== Sys2Proof/Laws/State.lean ====
section
/-!
SUPPORT. One lemma per field per update of the state, so that no proof unfolds a record update: `State.setLane`,
`State.answer`, `State.consumed`, `Lane.setFir`, and the fields of `State.resetWith`.
-/

namespace Sys2Proof.Machine

section Answer
variable (s : State) (o : Output)

@[simp] theorem answer_config : (s.answer o).config = s.config := rfl
@[simp] theorem answer_left : (s.answer o).left = s.left := rfl
@[simp] theorem answer_right : (s.answer o).right = s.right := rfl
@[simp] theorem answer_pending : (s.answer o).pending = s.pending := rfl
@[simp] theorem answer_operands : (s.answer o).operands = .none := rfl
@[simp] theorem answer_outputs : (s.answer o).outputs = s.outputs ++ [o] := rfl
@[simp] theorem answer_lane (ch : Chan) : (s.answer o).lane ch = s.lane ch := by cases ch <;> rfl

end Answer

section Consumed
variable (s : State)

@[simp] theorem consumed_config : s.consumed.config = s.config := rfl
@[simp] theorem consumed_left : s.consumed.left = s.left := rfl
@[simp] theorem consumed_right : s.consumed.right = s.right := rfl
@[simp] theorem consumed_pending : s.consumed.pending = s.pending := rfl
@[simp] theorem consumed_operands : s.consumed.operands = .none := rfl
@[simp] theorem consumed_outputs : s.consumed.outputs = s.outputs := rfl

end Consumed

section SetLane
variable (s : State) (l : Lane)

@[simp] theorem setLane_config (ch : Chan) : (s.setLane ch l).config = s.config := by cases ch <;> rfl
@[simp] theorem setLane_pending (ch : Chan) : (s.setLane ch l).pending = s.pending := by cases ch <;> rfl
@[simp] theorem setLane_operands (ch : Chan) : (s.setLane ch l).operands = s.operands := by cases ch <;> rfl
@[simp] theorem setLane_outputs (ch : Chan) : (s.setLane ch l).outputs = s.outputs := by cases ch <;> rfl
@[simp] theorem setLane_L_left : (s.setLane .L l).left = l := rfl
@[simp] theorem setLane_L_right : (s.setLane .L l).right = s.right := rfl
@[simp] theorem setLane_R_left : (s.setLane .R l).left = s.left := rfl
@[simp] theorem setLane_R_right : (s.setLane .R l).right = l := rfl
@[simp] theorem lane_L : s.lane .L = s.left := rfl
@[simp] theorem lane_R : s.lane .R = s.right := rfl

/-- The lane written reads as written. -/
@[simp] theorem setLane_lane (ch : Chan) : (s.setLane ch l).lane ch = l := by cases ch <;> rfl

/-- The other lane is untouched. -/
theorem setLane_lane_of_ne {a b : Chan} (h : b ≠ a) : (s.setLane a l).lane b = s.lane b := by
  cases a <;> cases b <;> simp_all [State.lane, State.setLane]

end SetLane

section SetFir
variable (l : Lane) (b : Buffer)

@[simp] theorem setFir_cic (st : Stage) : (l.setFir st b).cic = l.cic := by cases st <;> rfl
@[simp] theorem setFir_d (st : Stage) : (l.setFir st b).d = l.d := by cases st <;> rfl
@[simp] theorem setFir_ff (st : Stage) : (l.setFir st b).ff = l.ff := by cases st <;> rfl
@[simp] theorem setFir_fb (st : Stage) : (l.setFir st b).fb = l.fb := by cases st <;> rfl
@[simp] theorem setFir_fir (st : Stage) : (l.setFir st b).fir st = b := by cases st <;> rfl
@[simp] theorem setFir_one_fir1 : (l.setFir .one b).fir1 = b := rfl
@[simp] theorem setFir_one_fir2 : (l.setFir .one b).fir2 = l.fir2 := rfl
@[simp] theorem setFir_two_fir1 : (l.setFir .two b).fir1 = l.fir1 := rfl
@[simp] theorem setFir_two_fir2 : (l.setFir .two b).fir2 = b := rfl

/-- The other stage's buffer is untouched. -/
theorem setFir_fir_of_ne {u v : Stage} (h : v ≠ u) : (l.setFir u b).fir v = l.fir v := by
  cases u <;> cases v <;> simp_all [Lane.fir, Lane.setFir]

end SetFir

section ResetWith
variable (c : Config)

@[simp] theorem resetWith_config : (State.resetWith c).config = c := rfl
@[simp] theorem resetWith_left : (State.resetWith c).left = .zero c := rfl
@[simp] theorem resetWith_right : (State.resetWith c).right = .zero c := rfl
@[simp] theorem resetWith_pending : (State.resetWith c).pending = [] := rfl
@[simp] theorem resetWith_operands : (State.resetWith c).operands = .none := rfl
@[simp] theorem resetWith_outputs : (State.resetWith c).outputs = [] := rfl

/-- `RESET`'s lane (rule R214) is the reset lane (rule R40). -/
@[simp] theorem clearedLane_eq_zero : clearedLane c = .zero c := rfl

end ResetWith

end Sys2Proof.Machine
end

