-- ==== Sys2Proof/Laws/Ops.lean ====
section
/-!
SUPPORT. What each shared operation can do, said once: how a computation inside a command goes through, the range checks, the
operands, the size and index checks of a delay buffer, and a cell written and read.
-/

namespace Sys2Proof.Machine

/-! ### Going through a computation -/

@[simp] theorem Exec.ok_bind {α β : Type} (a : α) (f : α → Exec β) : ((Except.ok a : Exec α) >>= f) = f a := rfl

@[simp] theorem Exec.error_bind {α β : Type} (e : Stop) (f : α → Exec β) :
    ((Except.error e : Exec α) >>= f) = .error e := rfl

/-- A computation completes exactly when its first part does and the rest does from there. -/
theorem Exec.bind_eq_ok {α β : Type} {x : Exec α} {f : α → Exec β} {b : β} :
    (x >>= f) = .ok b ↔ ∃ a, x = .ok a ∧ f a = .ok b := by
  cases x <;> simp

/-- A computation stops exactly when its first part does, or the rest does from there. -/
theorem Exec.bind_eq_error {α β : Type} {x : Exec α} {f : α → Exec β} {e : Stop} :
    (x >>= f) = .error e ↔ x = .error e ∨ ∃ a, x = .ok a ∧ f a = .error e := by
  cases x <;> simp

@[simp] theorem undefined_ne_ok {α : Type} {f : Fault} {a : α} : (undefined f : Exec α) ≠ .ok a := nofun
@[simp] theorem refuse_ne_ok {α : Type} {r : Refusal} {a : α} : (refuse r : Exec α) ≠ .ok a := nofun

@[simp] theorem conclude_ok (s : State) : conclude (.ok s) = .next s := rfl
@[simp] theorem conclude_undefined (f : Fault) : conclude (undefined f) = .fault f := rfl
@[simp] theorem conclude_refuse (r : Refusal) : conclude (refuse r) = .refused r := rfl

@[simp] theorem conclude_eq_next {x : Exec State} {t : State} : conclude x = .next t ↔ x = .ok t := by
  rcases x with (_ | _) | _ <;> simp [conclude]

@[simp] theorem conclude_eq_fault {x : Exec State} {f : Fault} : conclude x = .fault f ↔ x = .error (.fault f) := by
  rcases x with (_ | _) | _ <;> simp [conclude]

@[simp] theorem conclude_eq_refused {x : Exec State} {r : Refusal} :
    conclude x = .refused r ↔ x = .error (.refused r) := by
  rcases x with (_ | _) | _ <;> simp [conclude]

/-! ### Range checks -/

/-- `acc40` answers its argument, inside 40 bits. -/
theorem acc40_eq_ok {v w : Int} : acc40 v = .ok w ↔ (-2 ^ 39 ≤ v ∧ v ≤ 2 ^ 39 - 1) ∧ w = v := by
  unfold acc40
  split
  · simp_all [eq_comm]
  · simp_all

theorem acc40_of_range {v : Int} (h : -2 ^ 39 ≤ v ∧ v ≤ 2 ^ 39 - 1) : acc40 v = .ok v := if_pos h

theorem acc40_of_not_range {v : Int} (h : ¬(-2 ^ 39 ≤ v ∧ v ≤ 2 ^ 39 - 1)) : acc40 v = .error (.fault .acc40) :=
  if_neg h

/-- `acc40` stops with `U_ACC40` and nothing else. -/
theorem acc40_eq_error {v : Int} {e : Stop} :
    acc40 v = .error e ↔ ¬(-2 ^ 39 ≤ v ∧ v ≤ 2 ^ 39 - 1) ∧ e = .fault .acc40 := by
  unfold acc40
  split
  · simp_all
  · simp_all [undefined, eq_comm]

theorem store32_of_range {v : Int} (h : -2 ^ 31 ≤ v ∧ v ≤ 2 ^ 31 - 1) : store32 v = .ok (BitVec.ofInt 32 v) := if_pos h

/-- The value of a 32-bit cell that an in-range integer was written to is that integer. -/
theorem toInt_ofInt_of_range {v : Int} (h : -2 ^ 31 ≤ v ∧ v ≤ 2 ^ 31 - 1) : (BitVec.ofInt 32 v).toInt = v := by
  rw [BitVec.toInt_ofInt]
  exact Int.bmod_eq_of_le (by omega) (by omega)

/-- `store32` answers the cell whose value is its argument, inside 32 bits. -/
theorem store32_eq_ok {v : Int} {w : Cell} : store32 v = .ok w ↔ (-2 ^ 31 ≤ v ∧ v ≤ 2 ^ 31 - 1) ∧ w.toInt = v := by
  constructor
  · intro h
    by_cases hr : -2 ^ 31 ≤ v ∧ v ≤ 2 ^ 31 - 1
    · rw [store32_of_range hr] at h
      cases h
      exact ⟨hr, toInt_ofInt_of_range hr⟩
    · rw [store32, if_neg hr] at h
      exact absurd h undefined_ne_ok
  · rintro ⟨hr, rfl⟩
    rw [store32_of_range hr, BitVec.ofInt_toInt]

/-- `store32` stops with `U_STORE32` and nothing else. -/
theorem store32_eq_error {v : Int} {e : Stop} :
    store32 v = .error e ↔ ¬(-2 ^ 31 ≤ v ∧ v ≤ 2 ^ 31 - 1) ∧ e = .fault .store32 := by
  unfold store32
  split
  · simp_all
  · simp_all [undefined, eq_comm]

/-- The value of a cell is in the range of a cell. -/
theorem cell_range (w : Cell) : -2 ^ 31 ≤ w.toInt ∧ w.toInt ≤ 2 ^ 31 - 1 := by
  have h1 := BitVec.le_toInt w
  have h2 := BitVec.toInt_lt (x := w)
  omega

theorem store32_toInt (w : Cell) : store32 w.toInt = .ok w := store32_eq_ok.mpr ⟨cell_range w, rfl⟩

/-- The 16-bit output of the gain stage holds the saturated value. -/
theorem store16_toInt (v : Int) : (store16 v).toInt = sat16 v := by
  have h : -2 ^ 15 ≤ sat16 v ∧ sat16 v ≤ 2 ^ 15 - 1 := by unfold sat16; split_ifs <;> omega
  rw [store16, BitVec.toInt_ofInt]
  exact Int.bmod_eq_of_le (by omega) (by omega)

/-! ### Operands -/

@[simp] theorem checkConfig_eq_ok {c : Config} {u : Unit} : checkConfig c = .ok u ↔ configWellFormed c = true := by
  unfold checkConfig
  split <;> simp_all

theorem checkConfig_of_wellFormed {c : Config} (h : configWellFormed c = true) : checkConfig c = .ok () := if_pos h

theorem checkConfig_of_not {c : Config} (h : configWellFormed c ≠ true) : checkConfig c = refuse .config := if_neg h

/-- The operands of `NOP` and `RESET`. -/
theorem takeNone_eq_ok {s : State} {u : Unit} :
    takeNone s = .ok u ↔ configWellFormed s.config = true ∧ s.operands = .none := by
  unfold takeNone
  rw [Exec.bind_eq_ok]
  cases s.operands <;> simp

/-- The operands of `CIC` and `FRAME`. -/
theorem takePdm_eq_ok {len : Nat} {s : State} {p : List Pdm × List Pdm} :
    takePdm len s = .ok p ↔
      configWellFormed s.config = true ∧ s.operands = .pdm p.1 p.2 ∧ p.1.length = len ∧ p.2.length = len := by
  unfold takePdm
  rw [Exec.bind_eq_ok]
  cases hs : s.operands with
  | pdm l r =>
    obtain ⟨a, b⟩ := p
    by_cases h : l.length = len ∧ r.length = len
    · simp only [checkConfig_eq_ok, if_pos h, Except.ok.injEq, Prod.mk.injEq, Operands.pdm.injEq]
      constructor
      · rintro ⟨_, hc, rfl, rfl⟩
        exact ⟨hc, ⟨rfl, rfl⟩, h⟩
      · rintro ⟨hc, ⟨rfl, rfl⟩, _⟩
        exact ⟨(), hc, rfl, rfl⟩
    · simp only [checkConfig_eq_ok, if_neg h, refuse_ne_ok, and_false, exists_false, false_iff]
      rintro ⟨_, he, h1, h2⟩
      cases he
      exact h ⟨h1, h2⟩
  | _ => simp

/-- The operands of `FIR`, `IIR1`, `IIR2` and `GAIN`. -/
theorem takeSamples_eq_ok {len : Nat} {s : State} {x : List Sample} :
    takeSamples len s = .ok x ↔ configWellFormed s.config = true ∧ s.operands = .samples x ∧ x.length = len := by
  unfold takeSamples
  rw [Exec.bind_eq_ok]
  cases hs : s.operands with
  | samples y =>
    by_cases h : y.length = len
    · simp only [checkConfig_eq_ok, if_pos h, Except.ok.injEq, Operands.samples.injEq]
      constructor
      · rintro ⟨_, hc, rfl⟩
        exact ⟨hc, rfl, h⟩
      · rintro ⟨hc, rfl, _⟩
        exact ⟨(), hc, rfl⟩
    · simp only [checkConfig_eq_ok, if_neg h, refuse_ne_ok, and_false, exists_false, false_iff]
      rintro ⟨_, he, hl⟩
      cases he
      exact h hl
  | _ => simp

/-- With a configuration that is not well formed, every taking of operands is refused for it. -/
theorem take_of_not_wellFormed {s : State} (h : configWellFormed s.config ≠ true) (len : Nat) :
    takeNone s = refuse .config ∧ takePdm len s = refuse .config ∧ takeSamples len s = refuse .config := by
  simp only [takeNone, takePdm, takeSamples, checkConfig_of_not h]
  exact ⟨rfl, rfl, rfl⟩

/-! ### Delay buffers -/

@[simp] theorem checkSize_eq_ok {n : Nat} {b : Buffer} {u : Unit} : checkSize n b = .ok u ↔ b.length = n + 1 := by
  unfold checkSize
  split <;> simp_all

/-- The index a command starts from: 0 counts as 1, and it is one of the slots (for a buffer that has a slot). -/
theorem startIndex_eq_ok {n : Nat} {b : Buffer} {p : Nat} :
    startIndex n b = .ok p ↔
      ((cellAt b 0).toInt = 0 ∧ p = 1) ∨
        (1 ≤ (cellAt b 0).toInt ∧ (cellAt b 0).toInt ≤ n ∧ (p : Int) = (cellAt b 0).toInt) := by
  unfold startIndex
  dsimp only
  split
  · rw [Except.ok.injEq]
    omega
  · split
    · simp only [undefined_ne_ok, false_iff]
      omega
    · rw [Except.ok.injEq]
      omega

theorem startIndex_range {n : Nat} {b : Buffer} {p : Nat} (hn : 1 ≤ n) (h : startIndex n b = .ok p) : 1 ≤ p ∧ p ≤ n := by
  rw [startIndex_eq_ok] at h
  omega

/-- `startIndex` stops with `U_IDX` and nothing else, exactly outside `0 .. n`. -/
theorem startIndex_eq_error {n : Nat} {b : Buffer} {e : Stop} :
    startIndex n b = .error e ↔ ((cellAt b 0).toInt < 0 ∨ (n : Int) < (cellAt b 0).toInt) ∧ e = .fault .idx := by
  unfold startIndex
  dsimp only
  split
  · simp only [reduceCtorEq, false_iff]
    omega
  · split
    · simp only [undefined, Except.error.injEq, eq_comm (a := e), iff_and_self]
      omega
    · simp only [reduceCtorEq, false_iff]
      omega

@[simp] theorem setCell_length (b : Buffer) (j : Nat) (v : Cell) : (setCell b j v).length = b.length := by
  simp [setCell]

/-- A cell just written reads as written. -/
theorem cellAt_setCell_self {b : Buffer} {j : Nat} (v : Cell) (h : j < b.length) : cellAt (setCell b j v) j = v := by
  simp [cellAt, setCell, h]

/-- A write leaves every other cell alone. -/
theorem cellAt_setCell_of_ne {b : Buffer} {i j : Nat} (v : Cell) (h : j ≠ i) : cellAt (setCell b j v) i = cellAt b i := by
  simp [cellAt, setCell, List.getElem?_set_ne h]

/-- Writing the index back changes cell 0 alone. -/
theorem storeIndex_eq_ok {p : Nat} {b b' : Buffer} :
    storeIndex p b = .ok b' ↔ (p : Int) ≤ 2 ^ 31 - 1 ∧ b' = setCell b 0 (BitVec.ofNat 32 p) := by
  unfold storeIndex
  rw [Exec.bind_eq_ok]
  constructor
  · rintro ⟨v, hv, hb⟩
    rw [store32_eq_ok] at hv
    cases hb
    refine ⟨hv.1.2, ?_⟩
    rw [← BitVec.ofInt_toInt (x := v), hv.2, BitVec.ofInt_natCast]
  · rintro ⟨hp, rfl⟩
    exact ⟨BitVec.ofNat 32 p, by rw [store32_of_range ⟨by omega, hp⟩, BitVec.ofInt_natCast], rfl⟩

/-- The stored index reads back as written. -/
theorem storeIndex_toInt {p : Nat} {b b' : Buffer} (hb : 0 < b.length) (h : storeIndex p b = .ok b') :
    (cellAt b' 0).toInt = p ∧ b'.length = b.length := by
  obtain ⟨hp, rfl⟩ := storeIndex_eq_ok.mp h
  rw [cellAt_setCell_self _ hb, ← BitVec.ofInt_natCast, toInt_ofInt_of_range ⟨by omega, hp⟩]
  simp

theorem newestSlot_range {slots : Nat} (h : 0 < slots) (p k : Nat) :
    1 ≤ newestSlot slots p k ∧ newestSlot slots p k ≤ slots := by
  have := Nat.mod_lt (p + slots - 2 - k) h
  unfold newestSlot
  omega

theorem iirSlot_range {nb : Nat} (h : 0 < nb) (p j : Nat) : 1 ≤ iirSlot nb p j ∧ iirSlot nb p j ≤ 2 * nb := by
  have := Nat.mod_lt (p - 1 + j) (show 0 < 2 * nb by omega)
  unfold iirSlot
  omega

end Sys2Proof.Machine
end

