-- ==== Sys2Proof/Laws/PerInstr.lean ====
section
/-!
SUPPORT. Statements made per instruction (LAWS.json "per_instruction").

`EncodesInRow`: the word the encoder gives a well-formed command lies in that command's own row of the opcode map
(spec/30_encoding.md rule R81), so that the encoder and the table's mask and match agree.
-/

namespace Sys2Proof.Laws

/-- A word put together from its two half-words, masked by a mask whose low half is 0, is its high half masked. -/
theorem mask_high_half (hi lo mask : Nat) (hlo : lo < 65536) :
    BitVec.ofNat 32 (hi * 65536 + lo) &&& BitVec.ofNat 32 (mask * 65536) = BitVec.ofNat 32 ((hi &&& mask) * 65536) := by
  apply BitVec.eq_of_toNat_eq
  simp only [BitVec.toNat_and, BitVec.toNat_ofNat]
  rw [← Nat.and_mod_two_pow]
  congr 1
  apply Nat.eq_of_testBit_eq
  intro i
  have e : hi * 65536 + lo = 2 ^ 16 * hi + lo := by omega
  rw [Nat.testBit_and, e, Nat.testBit_two_pow_mul_add _ (by omega : lo < 2 ^ 16), show (65536 : Nat) = 2 ^ 16 from rfl,
    Nat.testBit_mul_two_pow, Nat.testBit_mul_two_pow, Nat.testBit_and]
  by_cases hi16 : i < 16
  · simp [hi16, Nat.not_le.mpr hi16]
  · simp [hi16, Nat.not_lt.mp hi16]

end Sys2Proof.Laws

namespace Sys2Proof.Laws.EncodesInRow

/-- The encoded word of a well-formed command selects the command's row. -/
def Statement (i : Instr) : Prop := i.wellFormed = true → selectsRow (encode i) i = true

theorem nop : Statement .nop := fun _ => by decide

theorem cic (len : Nat) : Statement (.cic len) := by
  intro h
  have hl : len < 65536 := by simpa [Instr.wellFormed, lenFits] using h
  have := mask_high_half 0x1000 len 0xFFFF hl
  simpa [selectsRow, encode, packFields, rowMask, rowMatch] using this

theorem fir (st : Stage) (ch : Chan) (len : Nat) : Statement (.fir st ch len) := by
  intro h
  have hl : len < 65536 := by simpa [Instr.wellFormed, lenFits] using h
  cases st <;> cases ch
  · have := mask_high_half 0x2000 len 0xFCFF hl
    simpa [selectsRow, encode, packFields, rowMask, rowMatch, Stage.code, Chan.code] using this
  · have := mask_high_half 0x2100 len 0xFCFF hl
    simpa [selectsRow, encode, packFields, rowMask, rowMatch, Stage.code, Chan.code] using this
  · have := mask_high_half 0x2200 len 0xFCFF hl
    simpa [selectsRow, encode, packFields, rowMask, rowMatch, Stage.code, Chan.code] using this
  · have := mask_high_half 0x2300 len 0xFCFF hl
    simpa [selectsRow, encode, packFields, rowMask, rowMatch, Stage.code, Chan.code] using this

theorem iir1 (ch : Chan) (len : Nat) : Statement (.iir1 ch len) := by
  intro h
  have hl : len < 65536 := by simpa [Instr.wellFormed, lenFits] using h
  cases ch
  · have := mask_high_half 0x3000 len 0xFEFF hl
    simpa [selectsRow, encode, packFields, rowMask, rowMatch, Chan.code] using this
  · have := mask_high_half 0x3100 len 0xFEFF hl
    simpa [selectsRow, encode, packFields, rowMask, rowMatch, Chan.code] using this

theorem iir2 (ch : Chan) (len : Nat) : Statement (.iir2 ch len) := by
  intro h
  have hl : len < 65536 := by simpa [Instr.wellFormed, lenFits] using h
  cases ch
  · have := mask_high_half 0x4000 len 0xFEFF hl
    simpa [selectsRow, encode, packFields, rowMask, rowMatch, Chan.code] using this
  · have := mask_high_half 0x4100 len 0xFEFF hl
    simpa [selectsRow, encode, packFields, rowMask, rowMatch, Chan.code] using this

theorem gain (len : Nat) : Statement (.gain len) := by
  intro h
  have hl : len < 65536 := by simpa [Instr.wellFormed, lenFits] using h
  have := mask_high_half 0x5000 len 0xFFFF hl
  simpa [selectsRow, encode, packFields, rowMask, rowMatch] using this

theorem frame (len : Nat) : Statement (.frame len) := by
  intro h
  have hl : len < 65536 := by simpa [Instr.wellFormed, lenFits] using h
  have := mask_high_half 0x6000 len 0xFFFF hl
  simpa [selectsRow, encode, packFields, rowMask, rowMatch] using this

theorem reset : Statement .reset := fun _ => by decide

end Sys2Proof.Laws.EncodesInRow
end

