-- ==== Sys2Proof/Laws/Units.lean ====
section
/-!
SUPPORT. What each unit and each meaning can do, said once. `execX_eq_next` gives, for each command, exactly when it answers a
next state and which; provers cite these in place of unfolding a meaning.
-/

namespace Sys2Proof.Machine

/-! ### The CIC -/

@[simp] theorem cicRun_nil (c : Cic) : cicRun [] c = ([], c) := rfl

/-- One word: its high half, then its low half, then the rest. -/
theorem cicRun_cons (w : Pdm) (ws : List Pdm) (c : Cic) :
    cicRun (w :: ws) c =
      let hi := cicHalf c (highHalf w)
      let lo := cicHalf hi.2 (lowHalf w)
      let rest := cicRun ws lo.2
      (hi.1 :: lo.1 :: rest.1, rest.2) := rfl

/-- Two output samples for each word (rule R100). -/
theorem cicRun_length (ws : List Pdm) (c : Cic) : (cicRun ws c).1.length = 2 * ws.length := by
  induction ws generalizing c with
  | nil => rfl
  | cons w ws ih =>
    rw [cicRun_cons]
    simp only [List.length_cons, ih]
    omega

/-- The run over a joined sequence is the run over its parts. -/
theorem cicRun_append (xs ys : List Pdm) (c : Cic) :
    cicRun (xs ++ ys) c =
      ((cicRun xs c).1 ++ (cicRun ys (cicRun xs c).2).1, (cicRun ys (cicRun xs c).2).2) := by
  induction xs generalizing c with
  | nil => rfl
  | cons x xs ih =>
    rw [List.cons_append, cicRun_cons, cicRun_cons]
    simp only [ih, List.cons_append]

/-- `CIC` completes exactly on a well-formed configuration with its operands, and then as rule R104 says. -/
theorem execCic_eq_next {len : Nat} {s t : State} :
    execCic len s = .next t ↔
      configWellFormed s.config = true ∧ ∃ inL inR, s.operands = .pdm inL inR ∧ inL.length = len ∧ inR.length = len ∧
        t = ({ s with left := { s.left with cic := (cicRun inL s.left.cic).2 },
                      right := { s.right with cic := (cicRun inR s.right.cic).2 } } : State).answer
              (.cic (cicRun inL s.left.cic).1 (cicRun inR s.right.cic).1) := by
  unfold execCic
  rw [conclude_eq_next, Exec.bind_eq_ok]
  constructor
  · rintro ⟨⟨l, r⟩, h, ht⟩
    obtain ⟨hc, ho, hl, hr⟩ := takePdm_eq_ok.mp h
    cases ht
    exact ⟨hc, l, r, ho, hl, hr, rfl⟩
  · rintro ⟨hc, l, r, ho, hl, hr, rfl⟩
    exact ⟨(l, r), takePdm_eq_ok.mpr ⟨hc, ho, hl, hr⟩, rfl⟩

/-! ### The FIR -/

/-- An FIR command on a buffer, taken apart. -/
theorem firCommand_eq_ok {nc : Nat} {h : List Int} {x : List Sample} {dl : Buffer} {r : List Sample × Buffer} :
    firCommand nc h x dl = .ok r ↔
      x.length % 2 = 0 ∧ dl.length = nc + 2 + 1 ∧ ∃ p dl' p', startIndex (nc + 2) dl = .ok p ∧
        firLoop (nc + 2) h x dl p = .ok (r.1, dl', p') ∧ storeIndex p' dl' = .ok r.2 := by
  unfold firCommand
  by_cases hx : x.length % 2 = 1
  · simp only [if_pos hx, undefined, Exec.error_bind, reduceCtorEq, false_iff]
    omega
  · have hx' : x.length % 2 = 0 := by omega
    simp only [hx', true_and]
    change (checkSize (nc + 2) dl >>= _) = _ ↔ _
    rw [Exec.bind_eq_ok]
    constructor
    · rintro ⟨_, hs, h2⟩
      obtain ⟨p, hp, h3⟩ := Exec.bind_eq_ok.mp h2
      obtain ⟨⟨y, d1, p1⟩, hl, h4⟩ := Exec.bind_eq_ok.mp h3
      obtain ⟨d2, hd, h5⟩ := Exec.bind_eq_ok.mp h4
      cases h5
      exact ⟨checkSize_eq_ok.mp hs, p, d1, p1, hp, hl, hd⟩
    · rintro ⟨hs, p, d1, p1, hp, hl, hd⟩
      refine ⟨(), checkSize_eq_ok.mpr hs, ?_⟩
      rw [hp, Exec.ok_bind, hl, Exec.ok_bind, hd]
      rfl

@[simp] theorem firPush_length (slots : Nat) (x : Sample) (dl : Buffer) (p : Nat) :
    (firPush slots x dl p).1.length = dl.length := by
  simp [firPush]

/-- What one round of the loop of rule R140 does. -/
theorem firLoop_cons_cons_eq_ok {slots : Nat} {h : List Int} {x0 x1 : Sample} {xs : List Sample} {dl : Buffer} {p : Nat}
    {r : List Sample × Buffer × Nat} :
    firLoop slots h (x0 :: x1 :: xs) dl p = .ok r ↔
      ∃ y ys, firOut slots h (setCell (setCell dl p x0) (p % slots + 1) x1) ((p % slots + 1) % slots + 1) = .ok y ∧
        firLoop slots h xs (setCell (setCell dl p x0) (p % slots + 1) x1) ((p % slots + 1) % slots + 1) =
          .ok (ys, r.2) ∧ r.1 = y :: ys := by
  rw [firLoop]
  simp only [firPush, Exec.bind_eq_ok, Except.ok.injEq]
  constructor
  · rintro ⟨y, hy, ⟨ys, d, q⟩, hl, rfl⟩
    exact ⟨y, ys, hy, hl, rfl⟩
  · rintro ⟨y, ys, hy, hl, hr⟩
    exact ⟨y, hy, (ys, r.2), hl, by rw [← hr]⟩

/-- The loop keeps the buffer's size, ends on one of the slots, and gives one output for each pair. -/
theorem firLoop_shape {slots : Nat} {h : List Int} (hs : 0 < slots) {x : List Sample} {dl : Buffer} {p : Nat}
    (hp : 1 ≤ p ∧ p ≤ slots) {r : List Sample × Buffer × Nat} (hr : firLoop slots h x dl p = .ok r) :
    r.1.length = x.length / 2 ∧ r.2.1.length = dl.length ∧ 1 ≤ r.2.2 ∧ r.2.2 ≤ slots := by
  induction x, dl, p using firLoop.induct slots generalizing r with
  | case1 x0 x1 xs dl p dl1 p1 h1 dl2 p2 h2 ih =>
    rw [firLoop_cons_cons_eq_ok] at hr
    obtain ⟨y, ys, _, hl, hr1⟩ := hr
    simp only [firPush, Prod.mk.injEq] at h1 h2
    obtain ⟨rfl, rfl⟩ := h1
    obtain ⟨rfl, rfl⟩ := h2
    have hq := Nat.mod_lt (p % slots + 1) hs
    obtain ⟨h1, h2, h3⟩ := ih (by omega) hl
    refine ⟨?_, by simpa using h2, h3⟩
    rw [hr1]
    simp only [List.length_cons] at h1 ⊢
    omega
  | case2 x dl p hne =>
    cases x with
    | nil =>
      simp only [firLoop, Except.ok.injEq] at hr
      subst hr
      exact ⟨rfl, rfl, hp⟩
    | cons a t =>
      cases t with
      | nil =>
        simp only [firLoop, Except.ok.injEq] at hr
        subst hr
        exact ⟨by simp, rfl, hp⟩
      | cons b u => exact absurd rfl (hne a b u)

/-- An FIR command keeps the buffer's size and leaves a stored index in `1 .. NC + 2` (rule R143). -/
theorem firCommand_shape {nc : Nat} {h : List Int} {x : List Sample} {dl : Buffer} {r : List Sample × Buffer}
    (hr : firCommand nc h x dl = .ok r) :
    r.1.length = x.length / 2 ∧ r.2.length = nc + 2 + 1 ∧ 1 ≤ (cellAt r.2 0).toInt ∧
      (cellAt r.2 0).toInt ≤ (nc + 2 : Nat) := by
  obtain ⟨_, hl, p, d1, p1, hp, hloop, hst⟩ := firCommand_eq_ok.mp hr
  obtain ⟨h1, h2, h3, h4⟩ := firLoop_shape (by omega) (startIndex_range (by omega) hp) hloop
  obtain ⟨h5, h6⟩ := storeIndex_toInt (by simp at h2; omega) hst
  simp only at h1 h2 h3 h4
  refine ⟨h1, by omega, by omega, by omega⟩

/-- `FIR` completes exactly when its computation does, and then as rule R140 says. -/
theorem execFir_eq_next {st : Stage} {ch : Chan} {len : Nat} {s t : State} :
    execFir st ch len s = .next t ↔
      configWellFormed s.config = true ∧ ∃ x y dl, s.operands = .samples x ∧ x.length = len ∧
        firCommand (tapCount s.config st) (taps s.config st) x ((s.lane ch).fir st) = .ok (y, dl) ∧
        t = (s.setLane ch ((s.lane ch).setFir st dl)).answer (.samples y) := by
  unfold execFir
  rw [conclude_eq_next, Exec.bind_eq_ok]
  constructor
  · rintro ⟨x, h, ht⟩
    obtain ⟨hc, ho, hl⟩ := takeSamples_eq_ok.mp h
    obtain ⟨⟨y, dl⟩, hf, ht⟩ := Exec.bind_eq_ok.mp ht
    cases ht
    exact ⟨hc, x, y, dl, ho, hl, hf, rfl⟩
  · rintro ⟨hc, x, y, dl, ho, hl, hf, rfl⟩
    exact ⟨x, takeSamples_eq_ok.mpr ⟨hc, ho, hl⟩, by rw [hf]; rfl⟩

/-! ### The IIR -/

/-- The cascade of Direct Form II keeps the buffer's size. -/
theorem df2Cascade_length {s nb p : Nat} {bs : List Biquad} {i : Nat} {u : Sample} {buf : Buffer} {r : Sample × Buffer}
    (h : df2Cascade s nb p bs i u buf = .ok r) : r.2.length = buf.length := by
  induction bs generalizing i u buf with
  | nil => cases h; rfl
  | cons b bs ih =>
    rw [df2Cascade] at h
    obtain ⟨⟨yy, dn⟩, _, h2⟩ := Exec.bind_eq_ok.mp h
    simpa using ih h2

/-- The loop of `IIR2` keeps the buffer's size, ends on one of the slots, and gives one output for each sample. -/
theorem df2Loop_shape {c : Config} (hn : 0 < c.nb) {x : List Sample} {buf : Buffer} {p : Nat}
    (hp : 1 ≤ p ∧ p ≤ 2 * c.nb) {r : List Sample × Buffer × Nat} (h : df2Loop c x buf p = .ok r) :
    r.1.length = x.length ∧ r.2.1.length = buf.length ∧ 1 ≤ r.2.2 ∧ r.2.2 ≤ 2 * c.nb := by
  induction x generalizing buf p r with
  | nil =>
    cases h
    exact ⟨rfl, rfl, hp⟩
  | cons x xs ih =>
    rw [df2Loop] at h
    obtain ⟨u, _, h⟩ := Exec.bind_eq_ok.mp h
    obtain ⟨⟨y, b1⟩, hc, h⟩ := Exec.bind_eq_ok.mp h
    obtain ⟨⟨ys, b2, p2⟩, hl, h⟩ := Exec.bind_eq_ok.mp h
    cases h
    obtain ⟨h1, h2, h3⟩ := ih (iirSlot_range hn _ _) hl
    exact ⟨by simp [h1], h2.trans (df2Cascade_length hc), h3⟩

/-- An `IIR2` command on a buffer, taken apart. -/
theorem iir2Command_eq_ok {c : Config} {x : List Sample} {d : Buffer} {r : List Sample × Buffer} :
    iir2Command c x d = .ok r ↔
      d.length = 2 * c.nb + 1 ∧ ∃ p d' p', startIndex (2 * c.nb) d = .ok p ∧
        df2Loop c x d p = .ok (r.1, d', p') ∧ storeIndex p' d' = .ok r.2 := by
  unfold iir2Command
  rw [Exec.bind_eq_ok]
  constructor
  · rintro ⟨_, hs, h2⟩
    obtain ⟨p, hp, h3⟩ := Exec.bind_eq_ok.mp h2
    obtain ⟨⟨y, d1, p1⟩, hl, h4⟩ := Exec.bind_eq_ok.mp h3
    obtain ⟨d2, hd, h5⟩ := Exec.bind_eq_ok.mp h4
    cases h5
    exact ⟨checkSize_eq_ok.mp hs, p, d1, p1, hp, hl, hd⟩
  · rintro ⟨hs, p, d1, p1, hp, hl, hd⟩
    refine ⟨(), checkSize_eq_ok.mpr hs, ?_⟩
    rw [hp, Exec.ok_bind, hl, Exec.ok_bind]
    change (storeIndex p1 d1 >>= _) = _
    rw [hd]
    rfl

/-- An `IIR2` command keeps the buffer's size and leaves a stored index in `1 .. 2*NB` (rule R192). -/
theorem iir2Command_shape {c : Config} (hn : 0 < c.nb) {x : List Sample} {d : Buffer} {r : List Sample × Buffer}
    (h : iir2Command c x d = .ok r) :
    r.1.length = x.length ∧ r.2.length = 2 * c.nb + 1 ∧ 1 ≤ (cellAt r.2 0).toInt ∧
      (cellAt r.2 0).toInt ≤ (2 * c.nb : Nat) := by
  obtain ⟨hl, p, d1, p1, hp, hloop, hst⟩ := iir2Command_eq_ok.mp h
  obtain ⟨h1, h2, h3, h4⟩ := df2Loop_shape hn (startIndex_range (by omega) hp) hloop
  obtain ⟨h5, h6⟩ := storeIndex_toInt (by simp at h2; omega) hst
  simp only at h1 h2 h3 h4
  refine ⟨h1, by omega, by omega, by omega⟩

/-- `IIR2` completes exactly when its computation does, and then as rule R176 says. -/
theorem execIir2_eq_next {ch : Chan} {len : Nat} {s t : State} :
    execIir2 ch len s = .next t ↔
      configWellFormed s.config = true ∧ ∃ x y d, s.operands = .samples x ∧ x.length = len ∧
        iir2Command s.config x (s.lane ch).d = .ok (y, d) ∧
        t = (s.setLane ch { s.lane ch with d := d }).answer (.samples y) := by
  unfold execIir2
  rw [conclude_eq_next, Exec.bind_eq_ok]
  constructor
  · rintro ⟨x, h, ht⟩
    obtain ⟨hc, ho, hl⟩ := takeSamples_eq_ok.mp h
    obtain ⟨⟨y, dl⟩, hf, ht⟩ := Exec.bind_eq_ok.mp ht
    cases ht
    exact ⟨hc, x, y, dl, ho, hl, hf, rfl⟩
  · rintro ⟨hc, x, y, dl, ho, hl, hf, rfl⟩
    exact ⟨x, takeSamples_eq_ok.mpr ⟨hc, ho, hl⟩, by rw [hf]; rfl⟩

/-- The cascade of Direct Form I keeps the sizes of both buffers. -/
theorem df1Cascade_length {s nb pf pb : Nat} {bs : List Biquad} {i : Nat} {u : Sample} {ff fb : Buffer}
    {r : Sample × Buffer × Buffer} (h : df1Cascade s nb pf pb bs i u ff fb = .ok r) :
    r.2.1.length = ff.length ∧ r.2.2.length = fb.length := by
  induction bs generalizing i u ff fb with
  | nil => cases h; exact ⟨rfl, rfl⟩
  | cons b bs ih =>
    rw [df1Cascade] at h
    obtain ⟨yy, _, h2⟩ := Exec.bind_eq_ok.mp h
    simpa using ih h2

/-- The loop of `IIR1` keeps both sizes, ends on one of the slots of each, and gives one output for each sample. -/
theorem df1Loop_shape {c : Config} (hn : 0 < c.nb) {x : List Sample} {ff fb : Buffer} {pf pb : Nat}
    (hf : 1 ≤ pf ∧ pf ≤ 2 * c.nb) (hb : 1 ≤ pb ∧ pb ≤ 2 * c.nb) {r : Df1Result}
    (h : df1Loop c x ff fb pf pb = .ok r) :
    r.y.length = x.length ∧ r.ff.length = ff.length ∧ r.fb.length = fb.length ∧
      (1 ≤ r.pf ∧ r.pf ≤ 2 * c.nb) ∧ (1 ≤ r.pb ∧ r.pb ≤ 2 * c.nb) := by
  induction x generalizing ff fb pf pb r with
  | nil =>
    cases h
    exact ⟨rfl, rfl, rfl, hf, hb⟩
  | cons x xs ih =>
    rw [df1Loop] at h
    obtain ⟨u, _, h⟩ := Exec.bind_eq_ok.mp h
    obtain ⟨⟨y, f1, b1⟩, hc, h⟩ := Exec.bind_eq_ok.mp h
    obtain ⟨r', hl, h⟩ := Exec.bind_eq_ok.mp h
    cases h
    obtain ⟨h1, h2, h3, h4⟩ := ih (iirSlot_range hn _ _) (iirSlot_range hn _ _) hl
    obtain ⟨h5, h6⟩ := df1Cascade_length hc
    exact ⟨by simp [h1], h2.trans h5, h3.trans h6, h4⟩

/-- An `IIR1` command on its two buffers, taken apart. -/
theorem iir1Command_eq_ok {c : Config} {x : List Sample} {ff fb : Buffer} {r : List Sample × Buffer × Buffer} :
    iir1Command c x ff fb = .ok r ↔
      ff.length = 2 * c.nb + 1 ∧ fb.length = 2 * c.nb + 1 ∧ ∃ pf pb q, startIndex (2 * c.nb) ff = .ok pf ∧
        startIndex (2 * c.nb) fb = .ok pb ∧ df1Loop c x ff fb pf pb = .ok q ∧ r.1 = q.y ∧
        storeIndex q.pf q.ff = .ok r.2.1 ∧ storeIndex q.pb q.fb = .ok r.2.2 := by
  unfold iir1Command
  simp only [Exec.bind_eq_ok, checkSize_eq_ok, Except.ok.injEq]
  constructor
  · rintro ⟨_, hs1, _, hs2, pf, hpf, pb, hpb, q, hq, f', hf', b', hb', rfl⟩
    exact ⟨hs1, hs2, pf, pb, q, hpf, hpb, hq, rfl, hf', hb'⟩
  · rintro ⟨hs1, hs2, pf, pb, q, hpf, hpb, hq, hy, hf', hb'⟩
    exact ⟨(), hs1, (), hs2, pf, hpf, pb, hpb, q, hq, _, hf', _, hb', by rw [← hy]⟩

/-- An `IIR1` command keeps both sizes and leaves both stored indices in `1 .. 2*NB` (rule R192). -/
theorem iir1Command_shape {c : Config} (hn : 0 < c.nb) {x : List Sample} {ff fb : Buffer}
    {r : List Sample × Buffer × Buffer} (h : iir1Command c x ff fb = .ok r) :
    r.1.length = x.length ∧
      (r.2.1.length = 2 * c.nb + 1 ∧ 1 ≤ (cellAt r.2.1 0).toInt ∧ (cellAt r.2.1 0).toInt ≤ (2 * c.nb : Nat)) ∧
      (r.2.2.length = 2 * c.nb + 1 ∧ 1 ≤ (cellAt r.2.2 0).toInt ∧ (cellAt r.2.2 0).toInt ≤ (2 * c.nb : Nat)) := by
  obtain ⟨hl1, hl2, pf, pb, q, hpf, hpb, hq, hy, hsf, hsb⟩ := iir1Command_eq_ok.mp h
  obtain ⟨h1, h2, h3, h4, h5⟩ :=
    df1Loop_shape hn (startIndex_range (by omega) hpf) (startIndex_range (by omega) hpb) hq
  obtain ⟨h6, h7⟩ := storeIndex_toInt (by omega) hsf
  obtain ⟨h8, h9⟩ := storeIndex_toInt (by omega) hsb
  refine ⟨by rw [hy, h1], ⟨by omega, by omega, by omega⟩, ⟨by omega, by omega, by omega⟩⟩

/-- `IIR1` completes exactly when its computation does, and then as rule R186 says. -/
theorem execIir1_eq_next {ch : Chan} {len : Nat} {s t : State} :
    execIir1 ch len s = .next t ↔
      configWellFormed s.config = true ∧ ∃ x y ff fb, s.operands = .samples x ∧ x.length = len ∧
        iir1Command s.config x (s.lane ch).ff (s.lane ch).fb = .ok (y, ff, fb) ∧
        t = (s.setLane ch { s.lane ch with ff := ff, fb := fb }).answer (.samples y) := by
  unfold execIir1
  rw [conclude_eq_next, Exec.bind_eq_ok]
  constructor
  · rintro ⟨x, h, ht⟩
    obtain ⟨hc, ho, hl⟩ := takeSamples_eq_ok.mp h
    obtain ⟨⟨y, ff, fb⟩, hf, ht⟩ := Exec.bind_eq_ok.mp ht
    cases ht
    exact ⟨hc, x, y, ff, fb, ho, hl, hf, rfl⟩
  · rintro ⟨hc, x, y, ff, fb, ho, hl, hf, rfl⟩
    exact ⟨x, takeSamples_eq_ok.mpr ⟨hc, ho, hl⟩, by rw [hf]; rfl⟩

/-! ### The gain stage -/

/-- The gain stage completes exactly when every sample does, one output for each. -/
theorem gainCommand_eq_ok {g : Nat} {x : List Sample} {y : List Pcm} :
    gainCommand g x = .ok y ↔ List.Forall₂ (fun a b => gainSample g a = .ok b) x y := by
  induction x generalizing y with
  | nil => simp [gainCommand, eq_comm]
  | cons a x ih =>
    rw [gainCommand]
    simp only [Exec.bind_eq_ok, Except.ok.injEq, ih, List.forall₂_cons_left_iff]
    constructor
    · rintro ⟨b, hb, ys, hys, rfl⟩
      exact ⟨b, ys, hb, hys, rfl⟩
    · rintro ⟨b, ys, hb, hys, rfl⟩
      exact ⟨b, hb, ys, hys, rfl⟩

theorem gainCommand_length {g : Nat} {x : List Sample} {y : List Pcm} (h : gainCommand g x = .ok y) :
    y.length = x.length := (gainCommand_eq_ok.mp h).length_eq.symm

/-- `GAIN` completes exactly when its computation does, and then as rule R202 says. -/
theorem execGain_eq_next {len : Nat} {s t : State} :
    execGain len s = .next t ↔
      configWellFormed s.config = true ∧ ∃ x y, s.operands = .samples x ∧ x.length = len ∧
        gainCommand s.config.digGain x = .ok y ∧ t = s.answer (.pcm y) := by
  unfold execGain
  simp only [conclude_eq_next, Exec.bind_eq_ok, takeSamples_eq_ok, Except.ok.injEq]
  constructor
  · rintro ⟨x, ⟨hc, ho, hl⟩, y, hy, rfl⟩
    exact ⟨hc, x, y, ho, hl, hy, rfl⟩
  · rintro ⟨hc, x, y, ho, hl, hy, rfl⟩
    exact ⟨x, ⟨hc, ho, hl⟩, y, hy, rfl⟩

/-! ### The housekeeping commands and the chain -/

/-- `NOP` completes exactly on a well-formed configuration without operands, and changes nothing. -/
theorem execNop_eq_next {s t : State} :
    execNop s = .next t ↔ configWellFormed s.config = true ∧ s.operands = .none ∧ t = s.consumed := by
  unfold execNop
  simp only [conclude_eq_next, Exec.bind_eq_ok, takeNone_eq_ok, Except.ok.injEq]
  constructor
  · rintro ⟨_, ⟨hc, ho⟩, rfl⟩
    exact ⟨hc, ho, rfl⟩
  · rintro ⟨hc, ho, rfl⟩
    exact ⟨(), ⟨hc, ho⟩, rfl⟩

/-- Without operands there is nothing to consume. -/
theorem consumed_of_none {s : State} (h : s.operands = .none) : s.consumed = s := by
  cases s
  cases h
  rfl

/-- `RESET` completes exactly on a well-formed configuration without operands, and clears both lanes. -/
theorem execReset_eq_next {s t : State} :
    execReset s = .next t ↔ configWellFormed s.config = true ∧ s.operands = .none ∧
      t = ({ s with left := .zero s.config, right := .zero s.config } : State).consumed := by
  unfold execReset
  simp only [conclude_eq_next, Exec.bind_eq_ok, takeNone_eq_ok, Except.ok.injEq, clearedLane_eq_zero]
  constructor
  · rintro ⟨_, ⟨hc, ho⟩, rfl⟩
    exact ⟨hc, ho, rfl⟩
  · rintro ⟨hc, ho, rfl⟩
    exact ⟨(), ⟨hc, ho⟩, rfl⟩

/-- What the IIR stage of `FRAME` can do: nothing, `IIR1`, or `IIR2`. -/
theorem chainIir_eq_ok {c : Config} {x : List Sample} {l : Lane} {r : List Sample × Lane} :
    chainIir c x l = .ok r ↔
      (c.iirMode = .bypass ∧ r = (x, l)) ∨
      (c.iirMode = .df1 ∧ ∃ ff fb, iir1Command c x l.ff l.fb = .ok (r.1, ff, fb) ∧
        r.2 = { l with ff := ff, fb := fb }) ∨
      (c.iirMode = .df2 ∧ ∃ d, iir2Command c x l.d = .ok (r.1, d) ∧ r.2 = { l with d := d }) := by
  unfold chainIir
  cases c.iirMode with
  | bypass => simp [eq_comm]
  | df1 =>
    simp only [Exec.bind_eq_ok, Except.ok.injEq, reduceCtorEq, false_and, false_or, or_false, true_and]
    constructor
    · rintro ⟨⟨y, ff, fb⟩, h, rfl⟩
      exact ⟨ff, fb, h, rfl⟩
    · rintro ⟨ff, fb, h, hr⟩
      exact ⟨(r.1, ff, fb), h, by rw [← hr]⟩
  | df2 =>
    simp only [Exec.bind_eq_ok, Except.ok.injEq, reduceCtorEq, false_and, false_or, true_and]
    constructor
    · rintro ⟨⟨y, d⟩, h, rfl⟩
      exact ⟨d, h, rfl⟩
    · rintro ⟨d, h, hr⟩
      exact ⟨(r.1, d), h, by rw [← hr]⟩

/-- One lane of `FRAME` after the CIC: FIR stage 1, FIR stage 2, the IIR stage, the gain. -/
theorem chainLane_eq_ok {c : Config} {x : List Sample} {l : Lane} {r : List Pcm × Lane} :
    chainLane c x l = .ok r ↔
      ∃ f1 b1 f2 b2 g, firCommand c.nc1 c.h1 x l.fir1 = .ok (f1, b1) ∧
        firCommand c.nc2 c.h2 f1 l.fir2 = .ok (f2, b2) ∧
        chainIir c f2 { l with fir1 := b1, fir2 := b2 } = .ok (g, r.2) ∧ gainCommand c.digGain g = .ok r.1 := by
  unfold chainLane
  simp only [Exec.bind_eq_ok, Except.ok.injEq]
  constructor
  · rintro ⟨⟨f1, b1⟩, h1, ⟨f2, b2⟩, h2, ⟨g, l'⟩, h3, pcm, h4, rfl⟩
    exact ⟨f1, b1, f2, b2, g, h1, h2, h3, h4⟩
  · rintro ⟨f1, b1, f2, b2, g, h1, h2, h3, h4⟩
    exact ⟨(f1, b1), h1, (f2, b2), h2, (g, r.2), h3, r.1, h4, rfl⟩

/-- `FRAME` completes exactly when its count is even and both lanes' computations do, and then as rule R212 says. -/
theorem execFrame_eq_next {len : Nat} {s t : State} :
    execFrame len s = .next t ↔
      configWellFormed s.config = true ∧ len % 2 = 0 ∧ ∃ inL inR pcmL left pcmR right,
        s.operands = .pdm inL inR ∧ inL.length = len ∧ inR.length = len ∧
        chainLane s.config (cicRun inL s.left.cic).1 { s.left with cic := (cicRun inL s.left.cic).2 } =
          .ok (pcmL, left) ∧
        chainLane s.config (cicRun inR s.right.cic).1 { s.right with cic := (cicRun inR s.right.cic).2 } =
          .ok (pcmR, right) ∧
        t = ({ s with left := left, right := right } : State).answer (.frame pcmL pcmR) := by
  unfold execFrame
  rw [conclude_eq_next, Exec.bind_eq_ok]
  by_cases hodd : len % 2 = 1
  · simp only [if_pos hodd, undefined, Exec.error_bind, reduceCtorEq, and_false, exists_false, false_iff]
    omega
  · have heven : len % 2 = 0 := by omega
    simp only [heven, true_and]
    constructor
    · rintro ⟨⟨l, r⟩, h, ht⟩
      obtain ⟨hc, ho, hl, hr⟩ := takePdm_eq_ok.mp h
      obtain ⟨⟨pl, ll⟩, h1, ht⟩ := Exec.bind_eq_ok.mp ht
      obtain ⟨⟨pr, lr⟩, h2, ht⟩ := Exec.bind_eq_ok.mp ht
      cases ht
      exact ⟨hc, l, r, pl, ll, pr, lr, ho, hl, hr, h1, h2, rfl⟩
    · rintro ⟨hc, l, r, pl, ll, pr, lr, ho, hl, hr, h1, h2, rfl⟩
      refine ⟨(l, r), takePdm_eq_ok.mpr ⟨hc, ho, hl, hr⟩, ?_⟩
      rw [h1, Exec.ok_bind]
      change (chainLane _ _ _ >>= _) = _
      rw [h2]
      rfl

/-! ### The step -/

/-- What a step can do when it answers a next state: wait, with no command sent, or run the command it has decoded. -/
theorem step_eq_next {s t : State} :
    step s = .next t ↔ configWellFormed s.config = true ∧
      ((s.pending = [] ∧ t = s) ∨
        ∃ c rest i, s.pending = c :: rest ∧ decode c.word = .ok i ∧
          exec i { s with pending := rest, operands := c.data } = .next t) := by
  unfold step fetch
  by_cases hc : configWellFormed s.config = true
  · rw [checkConfig_of_wellFormed hc, Exec.ok_bind]
    cases hp : s.pending with
    | nil => simp [hc, eq_comm]
    | cons c rest =>
      cases hd : decode c.word with
      | error e => simp [hc, hd, refuse]
      | ok i =>
        simp only [hd, hc, true_and, reduceCtorEq, false_and, false_or, List.cons.injEq]
        constructor
        · intro h
          exact ⟨c, rest, i, ⟨rfl, rfl⟩, hd, h⟩
        · rintro ⟨_, _, _, ⟨rfl, rfl⟩, h1, h2⟩
          cases hd.symm.trans h1
          exact h2
  · rw [checkConfig_of_not hc]
    simp [hc, refuse]

end Sys2Proof.Machine
end

