-- ==== Sys2Proof/Tests/Slice0.lean ====
section
/-!
SUPPORT. The model's own tests. The expected values come from spec/95_test_vectors.md, whose vector each test names, or from
the rule it names. The `witness_…` theorems at the end show, for every obligation with hypotheses, a state and operands that
meet them together.
-/

namespace Sys2Proof.Tests

open Sys2Proof Sys2Proof.Machine

/-! ### Helpers -/

/-- The reset state under configuration T, its IIR realization as given, with data operands handed over. -/
def given (data : Operands) (mode : IirMode := .df2) : State :=
  { State.resetWith { Config.vectorT with iirMode := mode } with operands := data }

/-- The state an outcome holds; the reset state where it holds none. -/
def after : Host.Outcome State Fault Refusal → State
  | .next t => t
  | _ => State.reset

/-- The outcome is a next state. -/
def completes : Host.Outcome State Fault Refusal → Bool
  | .next _ => true
  | _ => false

/-- The fault an outcome holds. -/
def faultOf : Host.Outcome State Fault Refusal → Option Fault
  | .fault f => some f
  | _ => none

/-- The refusal an outcome holds. -/
def refusalOf : Host.Outcome State Fault Refusal → Option Refusal
  | .refused r => some r
  | _ => none

/-- A completed outcome is the next state it holds. -/
theorem eq_next_after {o : Host.Outcome State Fault Refusal} (h : completes o = true) : o = .next (after o) := by
  cases o with
  | next t => rfl
  | fault f => exact nomatch h
  | refused r => exact nomatch h

/-- A bound checked sample by sample. -/
theorem all_within {m : Int} {x : List Sample} (h : x.all (fun v => decide (Within m v)) = true) : ∀ v ∈ x, Within m v := by
  simpa using h

/-- A property of two lanes checked lane by lane. -/
theorem both_lanes {p : Lane → Prop} {a b : Lane} (ha : p a) (hb : p b) : ∀ l ∈ [a, b], p l := by
  simp [ha, hb]

/-- The command a word decodes to. -/
def decoded (w : Word) : Option Instr :=
  match decode w with
  | .ok i => some i
  | .error _ => none

/-- Why a word is reserved. -/
def rejected (w : Word) : Option Reserved :=
  match decode w with
  | .ok _ => none
  | .error why => some why

/-! ### Well-formed terms -/

theorem test_wellFormed_bounds :
    [Instr.nop, .cic 65535, .fir .two .R 65535, .iir1 .L 65535, .iir2 .R 65535, .gain 65535, .frame 65535,
      .reset].all Instr.wellFormed = true := by decide

/-- A count above 65535 is refused in each command that has one. -/
theorem test_wellFormed_refuses_long_counts :
    [Instr.cic 65536, .fir .one .L 65536, .iir1 .L 65536, .iir2 .L 65536, .gain 65536, .frame 65536].any
      Instr.wellFormed = false := by decide

/-! ### Words (rule R81, T-ENC-1, T-ENC-3) -/

/-- Words written out bit by bit from the encoding column of rule R81, one for each command. -/
theorem test_decode_bits :
    [decoded 0b00000000000000000000000000000000#32, decoded 0b00010000000000001111111111111111#32,
      decoded 0b00100011000000000000000000000100#32, decoded 0b00110001000000000000000000000101#32,
      decoded 0b01000000000000000000000000000101#32, decoded 0b01010000000000000000000000000010#32,
      decoded 0b01100000000000000000000000000100#32, decoded 0b01110000000000000000000000000000#32] =
    [some .nop, some (.cic 65535), some (.fir .two .R 4), some (.iir1 .R 5), some (.iir2 .L 5), some (.gain 2),
      some (.frame 4), some .reset] := by decide

/-- The reserved words of T-ENC-3 and why each is reserved (rule R83). -/
theorem test_decode_reserved :
    ([0x00000001, 0x70000001, 0x80000000, 0xF0000000, 0xFFFFFFFF, 0x11000001, 0x12000001, 0x32000001, 0x42000001,
      0x51000001, 0x61000002, 0x24000002, 0x28000002, 0x20010002, 0x20800002, 0x01000000] : List Word).map rejected =
    [some .count, some .count, some .opcode, some .opcode, some .opcode, some .channel, some .stage, some .stage,
      some .stage, some .channel, some .channel, some .zeroField, some .zeroField, some .zeroField, some .zeroField,
      some .channel] := by decide

/-- The encoder gives rule R86's example word. -/
theorem test_encode_example : encode (.fir .two .R 4) = 0x23000004 ∧ asmLine (.fir .two .R 4) = "FIR 2, R, 4" := by
  decide

/-- The table's numbering of an instruction word is the word's own. -/
theorem test_table_word : decodeTableWord 32 0x41000000 = some (.iir2 .R 0) ∧ decodeTableWord 32 0x80000000 = none := by
  decide

/-- `step` runs the word placed as the next command, first thing after reset. -/
theorem test_step_runs_placed_word :
    (after (step (State.reset.withFetchWord 32 0x10000001))).outputs =
      [.cic [-3876, -36856] [-3876, -36856]] := by decide +kernel

/-! ### Primitives (T-PRIM-1 to T-PRIM-4) -/

theorem test_rndShr_ties :
    [16384, 16383, -16384, -16385, 49152, -49152, 32768, -32768, 1, -1].map (rndShr · 15) =
      [1, 0, 0, -1, 2, -1, 1, -1, 0, 0] := by decide

theorem test_wrap_and_sat :
    ([2 ^ 31, -2 ^ 31 - 1, 2 ^ 32 + 5, 112373145920].map fun v => (wrap32 v).toInt) =
      [-2 ^ 31, 2 ^ 31 - 1, 5, 703996224] ∧
    [32768, 32767, -32768, -32769, 65536, -65536].map sat16 = [32767, 32767, -32768, -32768, 32767, -32768] := by decide

theorem test_range_checks :
    [2 ^ 39 - 1, 2 ^ 39, -2 ^ 39, -2 ^ 39 - 1].map (fun v => (acc40 v).toOption.isSome) = [true, false, true, false] ∧
    [2 ^ 31 - 1, 2 ^ 31, -2 ^ 31, -2 ^ 31 - 1].map (fun v => (store32 v).toOption.isSome) = [true, false, true, false] := by
  decide

/-! ### One step of each command -/

/-- T-SYS-1. -/
theorem test_nop : after (execNop (given .none)) = given .none := by decide

/-- T-CIC-4: bit order and half-word order. -/
theorem test_cic_bit_order :
    let t := after (exec (.cic 1) (given (.pdm [0x80000001] [0x00FFFF00])))
    t.outputs = [.cic [-2244, -31414] [-3216, -5056]] ∧
      t.left.cic.cells = [-28, -462, -4926, -40390, -40390, -38146, -35902, -33658] ∧
      t.right.cic.cells = [0, 0, -1024, -17920, -17920, -14704, -11488, -8272] := by decide +kernel

/-- T-CIC-6: the integrators and the comb wrap. -/
theorem test_cic_wraps :
    (cicPush { Cic.zero with acc0 := 0x7FFFFFFF, acc1 := 0x7FFFFFFF, acc2 := 0x80000000, acc3 := 5 } true).cells =
      [0x80000000, -1, 0x7FFFFFFF, -2147483644, 0, 0, 0, 0] ∧
    (cicComb { Cic.zero with acc3 := 0x80000000, dly0 := 0x7FFFFFFF, dly1 := 1, dly2 := -1 }).1 = 1 ∧
    (cicComb { Cic.zero with acc3 := 0x80000000, dly0 := 0x7FFFFFFF, dly1 := 1, dly2 := -1 }).2.cells =
      [0, 0, 0, 0x80000000, 0x80000000, 1, 0, 1] := by decide

/-- T-FIR-9: the impulse at position 0 shows the odd-numbered taps; the index stands at 5 after four samples. -/
theorem test_fir_impulse :
    let t := after (exec (.fir .one .R 4) (given (.samples [65536, 0, 0, 0])))
    t.outputs = [.samples [7500, 6500]] ∧ t.right.fir1.take 5 = [5, 65536, 0, 0, 0] ∧ t.left = .zero .vectorT := by
  decide +kernel

/-- T-FIR-3, T-FIR-5: the ramp; the pushes wrap from slot 6 to slot 1; index 7 and an odd count fault. -/
theorem test_fir_engine :
    (firCommand 4 [8192, 16384, -8192, 4096] [1, 2, 3, 4, 5, 6, 7, 8] [0, 0, 0, 0, 0, 0, 0]).toOption =
      some ([1, 2, 3, 5], [3, 7, 8, 3, 4, 5, 6]) ∧
    (firCommand 4 [8192, 16384, -8192, 4096] [1, 2] [6, 0, 0, 0, 0, 0, 0]).toOption =
      some ([1], [2, 2, 0, 0, 0, 0, 1]) ∧
    conclude ((firCommand 4 [8192, 16384, -8192, 4096] [1, 2] [7, 0, 0, 0, 0, 0, 0]).map fun _ => State.reset) =
      .fault .idx ∧
    conclude ((firCommand 4 [8192, 16384, -8192, 4096] [1, 2, 3] [7, 0, 0, 0, 0, 0, 0]).map fun _ => State.reset) =
      .fault .oddLen := ⟨by decide +kernel, by decide +kernel, rfl, rfl⟩

/-- T-IIR-2, Direct Form I. -/
theorem test_iir1_impulse :
    let t := after (exec (.iir1 .R 5) (given (.samples [131072, 0, 0, 0, 0])))
    t.outputs = [.samples [32768, 32768, 16384, 0, -4096]] ∧ t.right.ff = [2, 0, 0] ∧ t.right.fb = [2, -4096, 0] ∧
      t.right.d = [0, 0, 0] := by decide +kernel

/-- T-IIR-5: two sections of Direct Form I, in one interleaved buffer each. -/
theorem test_iir1_two_sections :
    let c := { Config.vectorT with nb := 2, coef := [{ b0 := 8192, b1 := 4096, b2 := 2048, a1 := -8192, a2 := 4096 },
      { b0 := 16384, b1 := -16384, b2 := 8192, a1 := 4096, a2 := -2048 }] }
    (iir1Command c [131072, 0, 0] [0, 0, 0, 0, 0] [0, 0, 0, 0, 0]).toOption =
      some ([32768, -8192, 6144], [3, 0, 16384, 0, 32768], [3, 16384, 6144, 32768, -8192]) := by decide +kernel

/-- T-IIR-4, Direct Form II, where the two forms differ in one output (980, not 979). -/
theorem test_iir2_larger_signal :
    (iir2Command { Config.vectorT with iirGain := 0xFFFF } [100001, -77777, 31415, -9265, 3589, -793, 23, 8]
      [0, 0, 0]).toOption = some ([50000, 11112, 1819, -8369, -1234, 818, 980, 196], [1, 384, -284]) := by decide +kernel

/-- T-IIR-7, T-IIR-8: the 32-bit store and the stored index. -/
theorem test_iir2_faults :
    let c := { Config.vectorT with
      coefIwl := 14, iirGain := 0xFFFF, coef := [{ b0 := 32767, b1 := 0, b2 := 0, a1 := 0, a2 := 0 }] }
    faultOf (exec (.iir2 .L 1) { given (.samples [1048576]) with config := c }) = some .store32 ∧
    faultOf (exec (.iir2 .L 1) { given (.samples [0]) with left := { Lane.zero .vectorT with d := [3, 0, 0] } }) =
      some .idx := by decide +kernel

/-- P5: the gain stage alone, saturating. -/
theorem test_gain_saturates :
    (after (exec (.gain 6) (given (.samples [131071, -131072, 21845, -21846, 43690, -43692])))).outputs =
      [.pcm [32767, -32768, 16384, -16384, 32767, -32768]] := by decide +kernel

/-- T-GAIN-4: the limit of the accumulator, before and after the bias. -/
theorem test_gain_limit :
    [8388735, -8388736].map (fun x => (gainSample 0xFFFF x).toOption) = [some 32767, some (-32768)] ∧
    [8388736, -8388737].map (fun x => (gainSample 0xFFFF x).toOption) = [none, none] := by decide

/-- P1's words through `FRAME 2` (P3: "the same `FRAME 2` from reset gives `pcmL = [155]`"), with P1's states. -/
theorem test_frame :
    let t := after (exec (.frame 2) (given (.pdm [0xFFFFFFFF, 0xFFFFFFFF] [0x00000000, 0xAAAAAAAA])))
    (match t.outputs with | [.frame l _] => l | _ => []) = [155] ∧
      t.left.cic.cells = [64, 2080, 45760, 766480, 766480, 516580, 319040, 169984] ∧
      t.left.fir1.take 5 = [5, 3876, 36856, 63716, 65536] ∧ t.left.fir2.take 3 = [3, 4943, 19613] ∧
      t.left.d = [2, 411, 0] ∧ t.left.ff = [0, 0, 0] := by decide +kernel

/-- T-SYS-3 and T-ENC-2: an empty frame only normalises indices, of the IIR buffers those `IIR_MODE` selects; an odd one
faults. -/
theorem test_frame_corners :
    (after (exec (.frame 0) (given (.pdm [] [])))).left.d = [1, 0, 0] ∧
    (after (exec (.frame 0) (given (.pdm [] [])))).left.fb = [0, 0, 0] ∧
    (after (exec (.frame 0) (given (.pdm [] []) .df1))).left.d = [0, 0, 0] ∧
    (after (exec (.frame 0) (given (.pdm [] []) .df1))).left.fb = [1, 0, 0] ∧
    (after (exec (.frame 0) (given (.pdm [] []) .bypass))).left.d = [0, 0, 0] ∧
    faultOf (exec (.frame 3) (given (.pdm [0, 0, 0] [0, 0, 0]))) = some .oddLen := by decide +kernel

/-- T-SYS-2: `RESET` clears what a `CIC` has left. -/
theorem test_reset :
    let t := after (exec (.cic 1) (given (.pdm [0xFFFFFFFF] [0x00000000])))
    t.left.cic ≠ .zero ∧ (after (exec .reset t)).left = .zero .vectorT ∧ (after (exec .reset t)).right = .zero .vectorT := by
  decide +kernel

/-- Rule R235: the configuration comes first, then the word, then the operands. -/
theorem test_refusals :
    refusalOf (step { State.resetWith { Config.vectorT with nb := 0 } with pending := [⟨0x80000000, .none⟩] }) =
      some .config ∧
    refusalOf (step { State.reset with pending := [⟨0x80000000, .none⟩] }) = some (.reserved .opcode) ∧
    refusalOf (step { State.reset with pending := [⟨0x50000002, .samples [0]⟩] }) = some .operands := by decide +kernel

/-- T-UND-1: configurations that rule R5 refuses (`NC = 3`, `NB = 0`, `COEF_IWL = 15`, a table of the wrong length), and
configuration T, which it accepts. -/
theorem test_config :
    [{ Config.vectorT with nc1 := 3, h1 := [0, 0, 0] }, { Config.vectorT with nb := 0, coef := [] },
      { Config.vectorT with coefIwl := 15 }, { Config.vectorT with coef := [] }].any configWellFormed = false ∧
    configWellFormed .vectorT = true := by decide

/-! ### Witnesses: the hypotheses of each obligation can be met together -/

/-- The states the witnesses run in: reset under configuration T, with three sets of operands. -/
def silent : State := given (.samples [0, 0])
def loud : State := given (.pdm [0xFFFFFFFF, 0xFFFFFFFF] [0x00000000, 0xAAAAAAAA])

theorem witness_EncodeThenDecode :
    (Instr.frame 65535).wellFormed = true ∧ (Instr.fir .two .R 0).wellFormed = true := by decide

theorem witness_DecodeThenEncode : decode 0x23000004 = .ok (.fir .two .R 4) ∧ decode 0 = .ok .nop := ⟨rfl, rfl⟩

theorem witness_WordDecodesByItsRow :
    (∀ r ∈ rows, selectsRow (rowMatch r) r = true) ∧ selectsRow 0x2300FFFF (.fir .one .L 0) = true ∧
      decode 0x2300FFFF = .ok (.fir .two .R 65535) := ⟨by decide, by decide, rfl⟩

theorem witness_ReservedWordsAreRefused :
    IsReserved 0x80000000 ∧ IsReserved 0x00000001 ∧ ¬IsReserved 0x70000000 ∧
      (let s : State := { State.reset with pending := [⟨0x80000000, .none⟩] }
       configWellFormed s.config = true ∧ s.pending = { word := 0x80000000, data := .none } :: []) ∧
      decode 0x70000000 = .ok .reset := ⟨by decide, by decide, by decide, by decide, rfl⟩

theorem witness_OddCountsDecodeAndFault :
    (let s := given (.samples [0])
     configWellFormed s.config = true ∧ s.operands = .samples [0] ∧ [(0 : Sample)].length = 1 ∧ 1 < 65536 ∧ 1 % 2 = 1) ∧
    (let s := given (.pdm [0] [0])
     configWellFormed s.config = true ∧ s.operands = .pdm [0] [0]) ∧ 65535 < 65536 ∧ 65535 % 2 = 1 := by decide

theorem witness_StepRunsTheDecodedCommand :
    let s : State := { State.reset with pending := [⟨0x10000001, .pdm [0] [0]⟩] }
    configWellFormed s.config = true ∧ s.pending = ⟨0x10000001, .pdm [0] [0]⟩ :: [] ∧
      decode 0x10000001 = .ok (.cic 1) := ⟨by decide, rfl, rfl⟩

theorem witness_BlockWithoutCommandsWaits :
    configWellFormed State.reset.config = true ∧ State.reset.pending = [] := by decide

theorem witness_IllFormedConfigurationsAreRefused :
    configWellFormed (State.resetWith { Config.vectorT with coefIwl := 15 }).config = false := by decide

theorem witness_WrapIsTheCongruentCellValue :
    (-2 ^ 31 : Int) ≤ -2 ^ 31 ∧ (-2 ^ 31 : Int) ≤ 2 ^ 31 - 1 ∧ ((-2 ^ 31 : Int) - 2 ^ 31) % 2 ^ 32 = 0 := by decide

theorem witness_RoundingIsHalfUp : 1 ≤ 1 ∧ 1 ≤ 15 := by decide

theorem witness_SaturationClampsTo16Bits :
    (32767 : Int) < 32768 ∧ (-32769 : Int) < -32768 ∧ (-32768 : Int) ≤ -32768 ∧ (-32768 : Int) ≤ 32767 ∧
      (-32768 : Int) ≤ 32767 := by decide

theorem witness_RangeChecksStopOutsideTheirRange :
    InAcc (2 ^ 39 - 1) ∧ InAcc (-2 ^ 39) ∧ ¬InAcc (2 ^ 39) ∧ ¬InAcc (-2 ^ 39 - 1) ∧
      InCell (2 ^ 31 - 1) ∧ InCell (-2 ^ 31) ∧ ¬InCell (2 ^ 31) ∧ ¬InCell (-2 ^ 31 - 1) := by decide

theorem witness_CicPushIntegratesInCascade :
    ({ Cic.zero with acc0 := 0x7FFFFFFF } : Cic).acc0.toInt = 2 ^ 31 - 1 := by decide

theorem witness_CicCombTakesFourDifferences :
    let c : Cic := { Cic.zero with acc3 := 52360, dly0 := 3876, dly1 := 3876, dly2 := 3876, dly3 := 3876 }
    c.acc3 = 52360 ∧ c.dly0 = 3876 ∧ c.dly1 = 3876 ∧ c.dly2 = 3876 ∧ c.dly3 = 3876 := by decide

theorem witness_CicCommandRunsBothLanes :
    let s := given (.pdm [0xFFFFFFFF] [0x00000000])
    configWellFormed s.config = true ∧ s.operands = .pdm [0xFFFFFFFF] [0x00000000] ∧ s.left.cic = .zero ∧
      s.right.cic = .zero ∧ (given (.pdm [] [])).operands = .pdm [] [] := by decide

theorem witness_CicStreamsAcrossCommands :
    configWellFormed State.reset.config = true ∧ [(1 : Pdm)].length = [(2 : Pdm)].length ∧
      [(3 : Pdm), 4].length = [(5 : Pdm), 6].length := by decide

theorem witness_CicSettlesOnConstantInput :
    let s := given (.pdm (List.replicate 3 0xFFFFFFFF) (List.replicate 3 0x00000000))
    configWellFormed s.config = true ∧ s.left.cic = .zero ∧ s.right.cic = .zero ∧
      s.operands = .pdm (List.replicate 3 0xFFFFFFFF) (List.replicate 3 0x00000000) := by decide

theorem witness_CicOutputsFromResetAreBounded :
    configWellFormed loud.config = true ∧ loud.left.cic = .zero ∧ loud.right.cic = .zero ∧
      loud.operands = .pdm [0xFFFFFFFF, 0xFFFFFFFF] [0x00000000, 0xAAAAAAAA] := by decide

/-- The index at its least and its greatest value; a buffer of seven cells. -/
theorem witness_FirPushOverwritesTheOldest :
    ([3, 7, 8, 3, 4, 5, 6] : Buffer).length = 6 + 1 ∧ 1 ≤ 1 ∧ 1 ≤ 6 ∧ 6 ≤ 6 := by decide

/-- T-FIR-8: sums that fit, and a first product and a sum that do not. -/
theorem witness_FirOutRoundsTheConvolution :
    ([32767, 32767] : List Int).length = 2 ∧ 1 ≤ 3 ∧ 3 ≤ 2 + 2 ∧
      InAcc (32767 * 8388608 + 32767 * 8388608) ∧ InAcc (32767 * 8388608 + 32767 * 8388608 + 16384) ∧
      ¬InAcc (32767 * (2 ^ 31 - 1)) ∧ ¬InAcc (32767 * 16777216 + 32767 * 16777216) ∧
      (2 ≤ 127 ∧ ∀ v ∈ ([32767, 32767] : List Int), -32768 ≤ v ∧ v ≤ 32767) := by decide

theorem witness_FirNominalSignalHasHeadroom :
    configWellFormed .vectorT = true ∧ tapCount .vectorT .one ≤ 127 ∧ tapCount .vectorT .two ≤ 127 := by decide

theorem witness_FirCommandIsTheTextbookFilter :
    Inv silent ∧ IndicesFit silent.config ∧ silent.operands = .samples [0, 0] ∧ [(0 : Sample), 0].length % 2 = 0 ∧
      FirHeadroom (taps silent.config .one) 131072 135001 ∧ CellsWithin 131072 ((silent.lane .L).fir .one) ∧
      ∀ v ∈ [(0 : Sample), 0], Within 131072 v :=
  ⟨by decide, by decide, rfl, rfl, by decide, all_within (by decide), all_within (by decide)⟩

theorem witness_FirStreamsAcrossCommands :
    ∃ t1 t2, exec (.fir .one .L [(1 : Sample), 2].length) { silent with operands := .samples [1, 2] } = .next t1 ∧
      exec (.fir .one .L [(3 : Sample), 4].length) { t1 with operands := .samples [3, 4] } = .next t2 :=
  ⟨_, _, eq_next_after (by decide +kernel), eq_next_after (by decide +kernel)⟩

theorem witness_FirImpulseShowsEveryOtherTap :
    let s := given (.samples (65536 :: List.replicate (2 - 1) 0))
    let t := given (.samples (0 :: 65536 :: List.replicate (2 - 2) 0))
    configWellFormed s.config = true ∧ IndicesFit s.config ∧
      (s.lane .R).fir .two = List.replicate (tapCount s.config .two + 3) 0 ∧
      (t.lane .R).fir .two = List.replicate (tapCount t.config .two + 3) 0 ∧
      s.operands = .samples (65536 :: List.replicate (2 - 1) 0) ∧
      t.operands = .samples (0 :: 65536 :: List.replicate (2 - 2) 0) := by decide

/-- Indices just outside `0 .. 18` on both sides, 0, and one that runs. -/
theorem witness_FirStoredIndexStaysOnASlot :
    let at19 : State := { silent with left := { silent.left with fir1 := setCell silent.left.fir1 0 19 } }
    let below : State := { silent with left := { silent.left with fir1 := setCell silent.left.fir1 0 (-1) } }
    configWellFormed silent.config = true ∧ silent.operands = .samples [0, 0] ∧
      (∀ s ∈ [at19, below, silent], ((s.lane .L).fir .one).length = tapCount s.config .one + 3) ∧
      ((tapCount at19.config .one + 2 : Nat) : Int) < (cellAt ((at19.lane .L).fir .one) 0).toInt ∧
      (cellAt ((below.lane .L).fir .one) 0).toInt < 0 ∧ (cellAt ((silent.lane .L).fir .one) 0).toInt = 0 ∧
      completes (exec (.fir .one .L 2) silent) = true := by decide +kernel

theorem witness_IirGainRoundsTheProduct :
    65535 ≤ 65535 ∧ InAcc (65535 * (8388607 : Sample).toInt + 32768) ∧ ¬InAcc (65535 * (16777216 : Sample).toInt) ∧
      Within (2 ^ 23 - 1) 8388607 ∧ Within (2 ^ 23 - 1) (-8388607) := by decide

/-- Each of the five ways a Direct Form II section can go. -/
theorem witness_Df2SectionFollowsItsEquations :
    let gain : Biquad := { b0 := 32767, b1 := 0, b2 := 0, a1 := 0, a2 := 0 }
    let feed : Biquad := { b0 := 0, b1 := 0, b2 := 0, a1 := -32768, a2 := 0 }
    df2Section 1 gain 0 0 0 = .ok (0, 0) ∧
      df2Section 15 gain 0x7FFFFFFF 0 0 = undefined .acc40 ∧ df2Section 1 feed 0 1048576 0 = undefined .store32 ∧
      df2Section 1 gain 0x7FFFFFFF 0 0 = undefined .acc40 ∧ df2Section 1 gain 1048576 0 0 = undefined .store32 ∧
      df2Section 1 { b0 := 0, b1 := 0, b2 := 0, a1 := 0, a2 := 0 } 7 8 9 = .ok (0, 7) := ⟨rfl, rfl, rfl, rfl, rfl, rfl⟩

/-- Each of the three ways a Direct Form I section can go. -/
theorem witness_Df1SectionFollowsItsEquation :
    let gain : Biquad := { b0 := 32767, b1 := 0, b2 := 0, a1 := 0, a2 := 0 }
    df1Section 1 gain 65535 0 0 0 0 = .ok 1073692673 ∧ df1Section 1 gain 0x7FFFFFFF 0 0 0 0 = undefined .acc40 ∧
      df1Section 1 gain 1048560 0 0 0 0 = undefined .store32 := ⟨rfl, rfl, rfl⟩

theorem witness_IirSlotsInterleaveTheSections :
    1 ≤ 2 ∧ 1 ≤ 4 ∧ 4 ≤ 2 * 2 ∧ (3 < 2 * 2 ∧ iirSlot 2 4 3 = iirSlot 2 4 3) := by decide

/-- Indices just outside `0 .. 2` on both sides, and a state in which both forms run, on an odd count. -/
theorem witness_IirStoredIndexAlternates :
    let s := given (.samples [0])
    let bad : State := { s with left := { s.left with d := [3, 0, 0], ff := [-1, 0, 0], fb := [3, 0, 0] } }
    configWellFormed s.config = true ∧ s.operands = .samples [0] ∧
      (∀ t ∈ [s, bad], (t.lane .L).d.length = 2 * t.config.nb + 1 ∧ (t.lane .L).ff.length = 2 * t.config.nb + 1 ∧
        (t.lane .L).fb.length = 2 * t.config.nb + 1) ∧
      ((2 * bad.config.nb : Nat) : Int) < (cellAt (bad.lane .L).d 0).toInt ∧ (cellAt (bad.lane .L).ff 0).toInt < 0 ∧
      completes (exec (.iir2 .L 1) s) = true ∧ completes (exec (.iir1 .L 1) s) = true := by decide +kernel

/-- Both ways the cascade can go: it completes, and it leaves the accumulator. Direct Form II. -/
theorem witness_Iir2IsACascadeOfDelayRecords :
    configWellFormed .vectorT = true ∧ ([1, 5, 7] : Buffer).length = 2 * Config.vectorT.nb + 1 ∧
      2 ≤ 2 * Config.vectorT.nb ∧ (df2RecordsRun .vectorT [65536] (delayPairs 1 2 [1, 5, 7])).toOption.isSome = true ∧
      (df2RecordsRun .vectorT [0x7FFFFFFF] (delayPairs 1 2 [1, 5, 7])).toOption.isSome = false := by decide +kernel

/-- Both ways the cascade can go, Direct Form I, with the two indices different. -/
theorem witness_Iir1IsACascadeOfDelayRecords :
    configWellFormed .vectorT = true ∧ ([1, 5, 7] : Buffer).length = 2 * Config.vectorT.nb + 1 ∧
      2 ≤ 2 * Config.vectorT.nb ∧
      (df1RecordsRun .vectorT [65536] (delayPairs 1 1 [1, 5, 7]) (delayPairs 1 2 [2, 5, 7])).toOption.isSome = true ∧
      (df1RecordsRun .vectorT [0x7FFFFFFF] (delayPairs 1 1 [1, 5, 7]) (delayPairs 1 2 [2, 5, 7])).toOption.isSome =
        false := by decide +kernel

theorem witness_Iir2CompletesWithinHeadroom :
    Inv silent ∧ IndicesFit silent.config ∧ silent.operands = .samples [0, 0] ∧
      Df2Headroom silent.config 131072 65537 262150 229383 ∧ (∀ v ∈ [(0 : Sample), 0], Within 131072 v) ∧
      CellsWithin 262150 (silent.lane .R).d :=
  ⟨by decide, by decide, rfl, by decide, all_within (by decide), all_within (by decide)⟩

theorem witness_Iir1CompletesWithinHeadroom :
    Inv silent ∧ IndicesFit silent.config ∧ silent.operands = .samples [0, 0] ∧
      Df1Headroom silent.config 131072 65537 229382 ∧ (∀ v ∈ [(0 : Sample), 0], Within 131072 v) ∧
      CellsWithin 65537 (silent.lane .R).ff ∧ CellsWithin 229382 (silent.lane .R).fb :=
  ⟨by decide, by decide, rfl, by decide, all_within (by decide), all_within (by decide), all_within (by decide)⟩

theorem witness_IirStreamsAcrossCommands :
    ∀ cmd ∈ [Instr.iir1 .L, Instr.iir2 .L],
      ∃ t1 t2, exec (cmd [(1 : Sample)].length) { silent with operands := .samples [1] } = .next t1 ∧
        exec (cmd [(3 : Sample), 4].length) { t1 with operands := .samples [3, 4] } = .next t2 := by
  intro cmd h
  rcases List.mem_cons.mp h with rfl | h
  · exact ⟨_, _, eq_next_after (by decide +kernel), eq_next_after (by decide +kernel)⟩
  · rcases List.mem_singleton.mp h with rfl
    exact ⟨_, _, eq_next_after (by decide +kernel), eq_next_after (by decide +kernel)⟩

theorem witness_GainSampleRoundsThenClamps :
    65535 ≤ 65535 ∧ InAcc ((8388735 : Sample).toInt * 65535 + 256) ∧ ¬InAcc ((8388736 : Sample).toInt * 65535 + 256) ∧
      Within (2 ^ 23 - 1) 8388607 ∧ Nominal (-131072) ∧ Nominal 131071 ∧ gainSample 256 1001 = .ok 501 :=
  ⟨by decide, by decide, by decide, by decide, by decide, by decide, rfl⟩

/-- A list of outputs, a sample that leaves the accumulator, and samples below `2^23`. -/
theorem witness_GainCommandMapsEverySample :
    configWellFormed silent.config = true ∧ silent.operands = .samples [0, 0] ∧
      List.Forall₂ (fun a b => gainSample silent.config.digGain a = .ok b) [0, 0] [0, 0] ∧
      (configWellFormed (given (.samples [0x7FFFFFFF])).config = true ∧
        gainSample (given (.samples [0x7FFFFFFF])).config.digGain 0x7FFFFFFF = undefined .acc40) ∧
      (∀ a ∈ [(0 : Sample), 0], Within (2 ^ 23 - 1) a) ∧ (given (.samples [])).operands = .samples [] ∧
      gainCommand 256 [3] = .ok [2] ∧ gainCommand 256 [-3] = .ok [-1] :=
  ⟨by decide, by decide, .cons rfl (.cons rfl .nil), ⟨by decide, rfl⟩, all_within (by decide), rfl, rfl, rfl⟩

theorem witness_GainSaturatesAtFullScale :
    256 ≤ 256 ∧ 256 ≤ 65535 ∧ 65535 ≤ 65535 ∧ Within 65534 65534 ∧ Within 65534 (-65534) := by decide

theorem witness_NopLeavesEverythingAlone :
    configWellFormed (given .none).config = true ∧ (given .none).operands = .none := by decide

/-- A state whose lanes are not clear. -/
theorem witness_ResetCommandClearsBothLanes :
    let s : State := { given .none with left := { Lane.zero .vectorT with d := [2, 5, 7] } }
    configWellFormed s.config = true ∧ s.operands = .none ∧ s.left ≠ .zero s.config := by decide

/-- A frame of two words whose unit commands all complete, one by one (P1's values for the left lane). -/
theorem witness_FrameIsItsUnitCommands :
    configWellFormed loud.config = true ∧ 2 % 2 = 0 ∧
      loud.operands = .pdm [0xFFFFFFFF, 0xFFFFFFFF] [0x00000000, 0xAAAAAAAA] ∧
      (∃ t, exec (.frame 2) loud = .next t) ∧
      ∃ a b c cL cR pcmL pcmR, exec (.cic 2) loud = .next a ∧ a.outputs = loud.outputs ++ [.cic cL cR] ∧
        UnitCommandsRun .L 2 cL a b pcmL ∧ UnitCommandsRun .R 2 cR b c pcmR :=
  ⟨by decide, rfl, rfl, ⟨_, eq_next_after (by decide +kernel)⟩,
    _, _, _, _, _, _, _, rfl, rfl, ⟨_, _, _, _, _, _, rfl, rfl, rfl, rfl, ⟨rfl, rfl⟩, rfl, rfl⟩,
    ⟨_, _, _, _, _, _, rfl, rfl, rfl, rfl, ⟨rfl, rfl⟩, rfl, rfl⟩⟩

/-- In each of the three settings of `IIR_MODE`; the bounds of the IIR stage are the ones of the realization in use. -/
theorem witness_FrameCompletesWithinHeadroom :
    ∀ p ∈ [(IirMode.bypass, (0, 0, 0)), (.df1, (35068, 0, 122740)), (.df2, (35068, 140274, 122741))],
      let s := given (.pdm [0xFFFFFFFF, 0xFFFFFFFF] [0x00000000, 0xAAAAAAAA]) p.1
      let u : Int := p.2.1
      let d : Int := p.2.2.1
      let y : Int := p.2.2.2
      Inv s ∧ IndicesFit s.config ∧ s.operands = .pdm [0xFFFFFFFF, 0xFFFFFFFF] [0x00000000, 0xAAAAAAAA] ∧
        (∀ a ∈ (cicRun [0xFFFFFFFF, 0xFFFFFFFF] s.left.cic).1, Within 65536 a) ∧
        (∀ a ∈ (cicRun [0x00000000, 0xAAAAAAAA] s.right.cic).1, Within 65536 a) ∧
        FirHeadroom s.config.h1 65536 67501 ∧ FirHeadroom s.config.h2 67501 70135 ∧
        (∀ l ∈ [s.left, s.right], CellsWithin 65536 l.fir1 ∧ CellsWithin 67501 l.fir2) ∧
        (s.config.iirMode = .bypass → GainHeadroom s.config 70135) ∧
        (s.config.iirMode = .df1 → Df1Headroom s.config 70135 u y ∧ GainHeadroom s.config y ∧
          ∀ l ∈ [s.left, s.right], CellsWithin u l.ff ∧ CellsWithin y l.fb) ∧
        (s.config.iirMode = .df2 → Df2Headroom s.config 70135 u d y ∧ GainHeadroom s.config y ∧
          ∀ l ∈ [s.left, s.right], CellsWithin d l.d) := by
  intro p hp
  simp only [List.mem_cons, List.not_mem_nil, or_false] at hp
  rcases hp with rfl | rfl | rfl
  all_goals
    refine ⟨by decide, by decide, rfl, all_within (by decide +kernel), all_within (by decide +kernel), by decide, by decide,
      both_lanes ⟨all_within (by decide), all_within (by decide)⟩ ⟨all_within (by decide), all_within (by decide)⟩,
      by decide, ?_, ?_⟩
  · exact nofun
  · exact nofun
  · exact fun _ => ⟨by decide, by decide, both_lanes ⟨all_within (by decide), all_within (by decide)⟩
      ⟨all_within (by decide), all_within (by decide)⟩⟩
  · exact nofun
  · exact nofun
  · exact fun _ => ⟨by decide, by decide, both_lanes (all_within (by decide)) (all_within (by decide))⟩

theorem witness_CommandsKeepToTheirOperandsOutputsAndState :
    ∃ t u v, exec (.frame 2) loud = .next t ∧ exec (.iir1 .L 2) silent = .next u ∧ exec .reset (given .none) = .next v :=
  ⟨_, _, _, eq_next_after (by decide +kernel), eq_next_after (by decide +kernel), eq_next_after (by decide)⟩

/-- Two states that agree in the left lane and its words and differ in the right lane and its words. -/
theorem witness_LanesNeverExchangeData :
    let other : State := { loud with
      operands := .pdm [0xFFFFFFFF, 0xFFFFFFFF] [0x12345678, 0x00000000], right := { loud.right with d := [2, 5, 7] } }
    loud.config = other.config ∧ loud.operands = .pdm [0xFFFFFFFF, 0xFFFFFFFF] [0x00000000, 0xAAAAAAAA] ∧
      other.operands = .pdm [0xFFFFFFFF, 0xFFFFFFFF] [0x12345678, 0x00000000] ∧ loud.left = other.left ∧
      loud.right ≠ other.right ∧ (∃ t1 t2, exec (.cic 2) loud = .next t1 ∧ exec (.cic 2) other = .next t2) ∧
      ∃ t1 t2, exec (.frame 2) loud = .next t1 ∧ exec (.frame 2) other = .next t2 :=
  ⟨rfl, rfl, rfl, rfl, by decide, ⟨_, _, eq_next_after (by decide +kernel), eq_next_after (by decide +kernel)⟩,
    _, _, eq_next_after (by decide +kernel), eq_next_after (by decide +kernel)⟩

/-- The same for the commands on one lane, whose other lane could not even run. -/
theorem witness_LanesNeverExchangeData_oneLane :
    let other : State := { silent with right := { silent.right with d := [], fir1 := [], ff := [-1, 5, 7] } }
    silent.config = other.config ∧ silent.lane .L = other.lane .L ∧ silent.operands = .samples [0, 0] ∧
      other.operands = .samples [0, 0] ∧ silent.lane .R ≠ other.lane .R ∧
      ∀ i ∈ [Instr.fir .one .L 2, .iir1 .L 2, .iir2 .L 2], ∃ t, exec i silent = .next t := by
  refine ⟨rfl, rfl, rfl, rfl, by decide, fun i hi => ⟨_, eq_next_after ?_⟩⟩
  simp only [List.mem_cons, List.not_mem_nil, or_false] at hi
  rcases hi with rfl | rfl | rfl <;> decide +kernel

/-- A state that meets them for the sample commands, one with an index that is not 0, and one for `CIC` and `FRAME` in each
setting of `IIR_MODE`. -/
theorem witness_EmptyCommandsOnlyNormaliseIndices :
    let s : State := { given (.samples []) with left := { Lane.zero .vectorT with d := [2, 5, 7] } }
    Inv s ∧ IndicesFit s.config ∧ s.operands = .samples [] ∧ indexOf s.left.d = 2 ∧ indexOf s.right.d = 1 ∧
      (∀ mode, Inv (given (.pdm [] []) mode) ∧ IndicesFit (given (.pdm [] []) mode).config ∧
        (given (.pdm [] []) mode).operands = .pdm [] []) :=
  ⟨by decide, by decide, rfl, by decide, by decide, fun mode => by cases mode <;> exact ⟨by decide, by decide, rfl⟩⟩

theorem witness_ResetMeetsTheInvariant : configWellFormed { Config.vectorT with coefIwl := 14 } = true := by decide

/-- A state that no run from reset reaches (an IIR index of 2 with no history), and a step from it. -/
theorem witness_EveryStepKeepsTheInvariant :
    let s : State := { State.reset with left := { Lane.zero .vectorT with d := [2, 5, 7] },
                                        pending := [⟨0x40000001, .samples [131072]⟩] }
    Inv s ∧ ∃ t, step s = .next t := ⟨by decide, _, eq_next_after (by decide +kernel)⟩

/-- A run of one command, issued and executed. -/
theorem witness_ReachableRunsNeverMeetBadIndices :
    configWellFormed .vectorT = true ∧
      Reachable .vectorT (after (step (State.reset.offer ⟨0x40000001, .samples [131072]⟩))) :=
  ⟨by decide, .step (.offer _ .reset) (eq_next_after (by decide +kernel))⟩

theorem witness_SectionTablesHoldFiveCellsEach :
    sectionsOfDf2Table [1, 2, 3, 4, 5] = some [{ b0 := 4, b1 := 5, b2 := 3, a1 := 1, a2 := 2 }] ∧
      sectionsOfDf1Table [1, 2, 3, 4, 5] = some [{ b0 := 1, b1 := 2, b2 := 3, a1 := 4, a2 := 5 }] ∧
      ([1, 2, 3, 4, 5] : List (BitVec 16)).length % 5 = 0 := by decide

end Sys2Proof.Tests
end

section
/-!
PROOFS. The arithmetic primitives of spec/00_scope.md: `wrap_32` as a map from the integers that respects sums and differences
(rule R9), the floor and the rounding shift (rule R10), saturation (rule R11), the range checks (rules R12, R13), and the
formats (rule R7).
-/

namespace Sys2Proof.Machine

/-! ### Wrapping (rule R9) -/

/-- A cell is the wrap of its own value. -/
@[simp] theorem wrap32_toInt (c : Cell) : wrap32 c.toInt = c := BitVec.ofInt_toInt

theorem wrap32_add (u v : Int) : wrap32 (u + v) = wrap32 u + wrap32 v := BitVec.ofInt_add u v

theorem wrap32_sub (u v : Int) : wrap32 (u - v) = wrap32 u - wrap32 v := by
  rw [eq_sub_iff_add_eq, ← wrap32_add, sub_add_cancel]

/-- The cell's value is rule R9's formula. -/
theorem toInt_wrap32 (v : Int) : (wrap32 v).toInt = wrapInt v := by
  rw [wrap32, BitVec.toInt_ofInt, Int.bmod_def, wrapInt]
  split <;> omega

theorem add_eq_wrap32 (a b : Cell) : a + b = wrap32 (a.toInt + b.toInt) := by
  rw [wrap32_add, wrap32_toInt, wrap32_toInt]

theorem sub_eq_wrap32 (a b : Cell) : a - b = wrap32 (a.toInt - b.toInt) := by
  rw [wrap32_sub, wrap32_toInt, wrap32_toInt]

theorem wrapInt_congruent (v : Int) : (wrapInt v - v) % 2 ^ 32 = 0 := by
  unfold wrapInt
  omega

/-- The range of a cell holds one integer of each residue class modulo `2^32`. -/
theorem eq_wrapInt_of_congruent {u v : Int} (hu : InCell u) (h : (u - v) % 2 ^ 32 = 0) : u = wrapInt v := by
  obtain ⟨hlo, hhi⟩ := hu
  unfold wrapInt
  omega

/-- Settles O10: the formula is `toInt_wrap32`, uniqueness is `eq_wrapInt_of_congruent`, and `wrap32` respects sums and
differences. -/
theorem wrapIsTheCongruentCellValue : Obligations.WrapIsTheCongruentCellValue := by
  refine ⟨fun v => ⟨toInt_wrap32 v, (cell_range _).1, (cell_range _).2, ?_, fun u hlo hhi h => ?_⟩,
    fun a b => ⟨add_eq_wrap32 a b, sub_eq_wrap32 a b⟩⟩
  · rw [toInt_wrap32]
    exact wrapInt_congruent v
  · rw [toInt_wrap32]
    exact eq_wrapInt_of_congruent ⟨hlo, hhi⟩ h

/-! ### Shifts and rounding (rule R10) -/

/-- `asr v s` is the floor of `v / 2^s`. -/
theorem asr_bounds (v : Int) (s : Nat) : asr v s * 2 ^ s ≤ v ∧ v < (asr v s + 1) * 2 ^ s :=
  have hpos : (0 : Int) < 2 ^ s := by positivity
  ⟨Int.ediv_mul_le v hpos.ne', Int.lt_ediv_add_one_mul_self v hpos⟩

/-- `rndShr v s` is within one half of `v / 2^s`, and above it in a tie. -/
theorem rndShr_bounds (v : Int) {s : Nat} (hs : 1 ≤ s) :
    (2 * rndShr v s - 1) * 2 ^ s ≤ 2 * v ∧ 2 * v < (2 * rndShr v s + 1) * 2 ^ s := by
  have hbias : (2 : Int) ^ s = 2 * 2 ^ (s - 1) := by rw [← pow_succ', Nat.sub_add_cancel hs]
  obtain ⟨hlo, hhi⟩ : rndShr v s * 2 ^ s ≤ v + 2 ^ (s - 1) ∧ v + 2 ^ (s - 1) < (rndShr v s + 1) * 2 ^ s :=
    asr_bounds _ s
  constructor <;> linarith

/-- Settles O11: both shifts are the floor `asr_bounds`, the bias being half of `2^s`. -/
theorem roundingIsHalfUp : Obligations.RoundingIsHalfUp :=
  ⟨asr_bounds, fun v _ hs => ⟨rfl, rndShr_bounds v hs⟩, by decide, by decide, by decide, by decide⟩

/-! ### Saturation (rule R11) -/

theorem sat16_of_gt {v : Int} (h : 32767 < v) : sat16 v = 32767 := if_pos h

theorem sat16_of_lt {v : Int} (h : v < -32768) : sat16 v = -32768 := by
  rw [sat16, if_neg (by omega), if_pos h]

theorem sat16_of_range {v : Int} (hlo : -32768 ≤ v) (hhi : v ≤ 32767) : sat16 v = v := by
  rw [sat16, if_neg (by omega), if_neg (by omega)]

/-- Settles O12: the three cases of `sat16`, and what the output cell reads back (`store16_toInt`). -/
theorem saturationClampsTo16Bits : Obligations.SaturationClampsTo16Bits :=
  fun v => ⟨sat16_of_gt, sat16_of_lt, sat16_of_range, store16_toInt v⟩

/-! ### Range checks (rules R12, R13) -/

theorem store32_of_not_range {v : Int} (h : ¬InCell v) : store32 v = undefined .store32 := if_neg h

/-- Settles O13: each check is decided by its range, and the cell of an in-range integer holds it. -/
theorem rangeChecksStopOutsideTheirRange : Obligations.RangeChecksStopOutsideTheirRange :=
  fun _ => ⟨acc40_of_range, acc40_of_not_range,
    fun h => ⟨_, store32_of_range h, toInt_ofInt_of_range h⟩, store32_of_not_range⟩

/-! ### Formats (rule R7) -/

/-- The nominal range of a signed format is the two's complement range of its useful bits. -/
theorem inNominal_of_signed {q : QFormat} (hq : q.signed = true) (v : Int) :
    inNominal q v = true ↔ -2 ^ (q.total - 1) ≤ v ∧ v ≤ 2 ^ (q.total - 1) - 1 := by
  rw [inNominal, if_pos hq, decide_eq_true_iff]

/-- An audio sample is nominal in the signed 18-bit range. -/
theorem nominal_iff (x : Sample) : Nominal x ↔ -131072 ≤ x.toInt ∧ x.toInt ≤ 131071 :=
  inNominal_of_signed (q := .audio) rfl x.toInt

/-- Settles O54: the audio range by `nominal_iff`, and the quotients `v / 2^f` of rule R7 for the named integers. -/
theorem formatsReadAsTheSpecSays : Obligations.FormatsReadAsTheSpecSays := by
  refine ⟨nominal_iff, ?_, ?_, ?_, ?_, by decide, by decide⟩
  · norm_num [formatValue, QFormat.audio]
  · norm_num [formatValue, QFormat.digitalGain]
  · norm_num [formatValue, QFormat.digitalGain]
  · norm_num [formatValue, QFormat.iirCoefficient]

end Sys2Proof.Machine
end

section
/-!
PROOFS. The CIC as a homomorphic image of the CIC over unbounded integers (rules R23, R108): `CicExact.wrap` commutes with every
push, every comb step, and so with every run.
-/

namespace Sys2Proof.Machine

/-- A push of the wrapped registers is the wrapped push (rule R101). -/
theorem cicPush_wrap (e : CicExact) (b : Bool) : cicPush e.wrap b = (e.push b).wrap := by
  simp only [cicPush, impulse, CicExact.push, CicExact.wrap, wrap32_add, wrap32_toInt]

/-- A comb step of the wrapped registers is the wrapped comb step, output and registers (rule R103). -/
theorem cicComb_wrap (e : CicExact) : cicComb e.wrap = (wrap32 e.comb.1, e.comb.2.wrap) := by
  simp only [cicComb, CicExact.comb, CicExact.wrap, wrap32_sub]

/-- A half-word through the unbounded CIC (rule R102 with no wrap): sixteen pushes and one comb step. -/
def cicExactHalf (e : CicExact) (h : Half) : Int × CicExact := ((halfBits h).foldl CicExact.push e).comb

/-- One word through the unbounded CIC: its high half, then its low half, then the rest. -/
theorem cicExactRun_cons (w : Pdm) (ws : List Pdm) (e : CicExact) :
    CicExact.run (w :: ws) e =
      let hi := cicExactHalf e (highHalf w)
      let lo := cicExactHalf hi.2 (lowHalf w)
      let rest := CicExact.run ws lo.2
      (hi.1 :: lo.1 :: rest.1, rest.2) := rfl

/-- A half-word through the wrapped registers is the wrapped half-word step. -/
theorem cicHalf_wrap (e : CicExact) (h : Half) :
    cicHalf e.wrap h = (wrap32 (cicExactHalf e h).1, (cicExactHalf e h).2.wrap) := by
  rw [cicHalf, List.foldl_hom CicExact.wrap cicPush_wrap, cicComb_wrap, cicExactHalf]

/-- A run from the wrapped registers is the wrapped run, output for output and register for register. -/
theorem cicRun_wrap (ws : List Pdm) (e : CicExact) :
    cicRun ws e.wrap = ((CicExact.run ws e).1.map wrap32, (CicExact.run ws e).2.wrap) := by
  induction ws generalizing e with
  | nil => rfl
  | cons w ws ih => simp only [cicRun_cons, cicExactRun_cons, cicHalf_wrap, ih, List.map_cons]

/-- Settles O18: `CicExact.wrap` is a simulation of the unbounded CIC by the wrapping one (`cicRun_wrap`). -/
theorem cicIsTheUnboundedCicModulo32Bits : Obligations.CicIsTheUnboundedCicModulo32Bits := cicRun_wrap

end Sys2Proof.Machine
end

section
/-!
PROOFS. The well-formed configuration (rule R5), and that every step and every command is refused on any other one.
-/

namespace Sys2Proof.Machine

theorem coefInRange_iff {v : Int} : coefInRange v = true ↔ -32768 ≤ v ∧ v ≤ 32767 := decide_eq_true_iff

theorem tapCountOk_iff {n : Nat} : tapCountOk n = true ↔ n % 2 = 0 ∧ 2 ≤ n := by
  rw [tapCountOk, Bool.and_eq_true, beq_iff_eq, decide_eq_true_iff]

theorem biquadInRange_iff {b : Biquad} :
    biquadInRange b = true ↔ ∀ v ∈ [b.b0, b.b1, b.b2, b.a1, b.a2], -32768 ≤ v ∧ v ≤ 32767 := by
  simp only [biquadInRange, Bool.and_eq_true, coefInRange_iff, List.forall_mem_cons, List.not_mem_nil, false_imp_iff,
    implies_true, and_true, and_assoc]

/-- Rule R5, clause by clause, on integers. -/
theorem configWellFormed_iff (c : Config) :
    configWellFormed c = true ↔
      ((c.nc1 % 2 = 0 ∧ 2 ≤ c.nc1) ∧ (c.nc2 % 2 = 0 ∧ 2 ≤ c.nc2) ∧ c.h1.length = c.nc1 ∧ c.h2.length = c.nc2 ∧
        1 ≤ c.nb ∧ c.coef.length = c.nb ∧ c.coefIwl ≤ 14 ∧
        (∀ v ∈ c.h1, -32768 ≤ v ∧ v ≤ 32767) ∧ (∀ v ∈ c.h2, -32768 ≤ v ∧ v ≤ 32767) ∧
        (∀ b ∈ c.coef, ∀ v ∈ [b.b0, b.b1, b.b2, b.a1, b.a2], -32768 ≤ v ∧ v ≤ 32767) ∧
        c.iirGain ≤ 65535 ∧ c.digGain ≤ 65535) := by
  simp only [configWellFormed, decide_eq_true_iff, tapCountOk_iff, List.all_eq_true, coefInRange_iff, biquadInRange_iff]

/-- Every command takes its operands first, and taking operands is refused on an ill-formed configuration. -/
theorem exec_of_not_wellFormed {s : State} (h : configWellFormed s.config ≠ true) (i : Instr) :
    exec i s = .refused .config := by
  have hnone := (take_of_not_wellFormed h 0).1
  have hpdm := fun len => (take_of_not_wellFormed h len).2.1
  have hsamples := fun len => (take_of_not_wellFormed h len).2.2
  cases i with
  | nop => rw [exec, execNop, hnone]; rfl
  | cic len => rw [exec, execCic, hpdm]; rfl
  | fir st ch len => rw [exec, execFir, hsamples]; rfl
  | iir1 ch len => rw [exec, execIir1, hsamples]; rfl
  | iir2 ch len => rw [exec, execIir2, hsamples]; rfl
  | gain len => rw [exec, execGain, hsamples]; rfl
  | frame len => rw [exec, execFrame, hpdm]; rfl
  | reset => rw [exec, execReset, hnone]; rfl

/-- The configuration is checked before a command is looked for, so a step is refused with nothing pending too. -/
theorem step_of_not_wellFormed {s : State} (h : configWellFormed s.config ≠ true) : step s = .refused .config := by
  rw [step, fetch, checkConfig_of_not h]
  rfl

/-- Settles O9: `configWellFormed_iff`, and the refusal of every step and every command. -/
theorem illFormedConfigurationsAreRefused : Obligations.IllFormedConfigurationsAreRefused := by
  refine ⟨configWellFormed_iff, fun s h => ?_⟩
  have hc : configWellFormed s.config ≠ true := ne_true_of_eq_false h
  exact ⟨step_of_not_wellFormed hc, exec_of_not_wellFormed hc⟩

end Sys2Proof.Machine
end

section
/-!
PROOFS. The slots of an interleaved IIR buffer (rules R30, R165), and the two IIR loops as cascades of sections with delay
records of their own (rule R274). A loop and its cascade are related by one equation: the run over the records read off the
buffer is the loop followed by reading the records off the new buffer at the new index.
-/

namespace Sys2Proof.Machine

/-! ### Slots -/

/-- An offset from a slot is the sum of the two offsets. -/
theorem iirSlot_iirSlot (nb p i j : Nat) : iirSlot nb (iirSlot nb p i) j = iirSlot nb p (i + j) := by
  simp only [iirSlot, Nat.add_sub_cancel, Nat.mod_add_mod, Nat.add_assoc]

theorem iirSlot_zero {nb p : Nat} (hp : 1 ≤ p ∧ p ≤ 2 * nb) : iirSlot nb p 0 = p := by
  rw [iirSlot, Nat.add_zero, Nat.mod_eq_of_lt (by omega)]
  omega

/-- The slots repeat after `2*NB` offsets. -/
@[simp] theorem iirSlot_add_mul_period (nb p j k : Nat) : iirSlot nb p (j + 2 * nb * k) = iirSlot nb p j := by
  rw [iirSlot, ← Nat.add_assoc, Nat.add_mul_mod_self_left, iirSlot]

theorem iirSlot_add_period (nb p j : Nat) : iirSlot nb p (j + 2 * nb) = iirSlot nb p j := by
  simpa using iirSlot_add_mul_period nb p j 1

/-- Within one period no two offsets share a slot. -/
theorem iirSlot_injective {nb p i j : Nat} (hi : i < 2 * nb) (hj : j < 2 * nb) (h : iirSlot nb p i = iirSlot nb p j) :
    i = j :=
  Nat.ModEq.eq_of_lt_of_lt (Nat.ModEq.add_left_cancel' (p - 1) (Nat.succ_injective h)) hi hj

/-- After an advance by `NB`, a section's older slot is its newer slot of before. -/
theorem iirSlot_advance_older (nb p i : Nat) : iirSlot nb (iirSlot nb p nb) i = iirSlot nb p (i + nb) := by
  rw [iirSlot_iirSlot, Nat.add_comm]

/-- After an advance by `NB`, a section's newer slot is its older slot of before. -/
theorem iirSlot_advance_newer (nb p i : Nat) : iirSlot nb (iirSlot nb p nb) (i + nb) = iirSlot nb p i := by
  rw [iirSlot_iirSlot, show nb + (i + nb) = i + 2 * nb by omega, iirSlot_add_period]

/-- Settles O33: the slot of an offset is a sum modulo `2*NB`, which gives the range, injectivity within one period, and the
two advances. -/
theorem iirSlotsInterleaveTheSections : Obligations.IirSlotsInterleaveTheSections := by
  intro nb p hnb hp hp'
  refine ⟨iirSlot_range hnb p, fun i j => iirSlot_injective, iirSlot_zero ⟨hp, hp'⟩,
    fun i _ => ⟨iirSlot_advance_older nb p i, iirSlot_advance_newer nb p i⟩, ?_⟩
  have h := iirSlot_advance_newer nb p 0
  rwa [Nat.zero_add, iirSlot_zero ⟨hp, hp'⟩] at h

/-! ### Delay records in a buffer -/

/-- The delay record of section `i` in a buffer with working index `p`: its newer and its older slot. -/
def delayPair (nb p : Nat) (b : Buffer) (i : Nat) : DelayPair :=
  (cellAt b (iirSlot nb p (i + nb)), cellAt b (iirSlot nb p i))

/-- The delay records of `n` sections from number `i` on. -/
def delayPairsFrom (nb p : Nat) (b : Buffer) (i n : Nat) : List DelayPair := (List.range' i n).map (delayPair nb p b)

theorem delayPairs_eq_from (nb p : Nat) (b : Buffer) : delayPairs nb p b = delayPairsFrom nb p b 0 nb := by
  rw [delayPairsFrom, ← List.range_eq_range']
  rfl

@[simp] theorem delayPairsFrom_zero (nb p : Nat) (b : Buffer) (i : Nat) : delayPairsFrom nb p b i 0 = [] := rfl

theorem delayPairsFrom_succ (nb p : Nat) (b : Buffer) (i n : Nat) :
    delayPairsFrom nb p b i (n + 1) =
      (cellAt b (iirSlot nb p (i + nb)), cellAt b (iirSlot nb p i)) :: delayPairsFrom nb p b (i + 1) n := rfl

/-- After an advance by `NB` a section's record is its two cells of before in the other order. -/
theorem delayPairsFrom_advance_succ (nb p : Nat) (b : Buffer) (i n : Nat) :
    delayPairsFrom nb (iirSlot nb p nb) b i (n + 1) =
      (cellAt b (iirSlot nb p i), cellAt b (iirSlot nb p (i + nb))) ::
        delayPairsFrom nb (iirSlot nb p nb) b (i + 1) n := by
  rw [delayPairsFrom_succ, iirSlot_advance_newer, iirSlot_advance_older]

/-- Buffer `b'` is `b` but for the older slots of sections `i` to `i + n - 1`. -/
def SameOutsideSections (nb p i n : Nat) (b b' : Buffer) : Prop :=
  ∀ j < 2 * nb, j < i ∨ i + n ≤ j → cellAt b' (iirSlot nb p j) = cellAt b (iirSlot nb p j)

theorem sameOutsideSections_refl (nb p i n : Nat) (b : Buffer) : SameOutsideSections nb p i n b b := fun _ _ _ => rfl

/-- A write to the older slot of one section leaves every other slot alone. -/
theorem cellAt_setCell_iirSlot {nb p i j : Nat} (hi : i < 2 * nb) (hj : j < 2 * nb) (hne : j ≠ i) (b : Buffer) (v : Cell) :
    cellAt (setCell b (iirSlot nb p i) v) (iirSlot nb p j) = cellAt b (iirSlot nb p j) :=
  cellAt_setCell_of_ne v fun h => hne (iirSlot_injective hi hj h).symm

/-- The section just processed and the sections after it, as one stretch. -/
theorem SameOutsideSections.cons {nb p i n : Nat} {b b' : Buffer} {v : Cell} (hi : i + (n + 1) ≤ nb)
    (h : SameOutsideSections nb p (i + 1) n (setCell b (iirSlot nb p i) v) b') :
    SameOutsideSections nb p i (n + 1) b b' := fun j hj hout => by
  rw [h j hj (by omega), cellAt_setCell_iirSlot (by omega) hj (by omega)]

/-- The sections after the one just written have their records as before. -/
theorem delayPairsFrom_setCell {nb p i n : Nat} (hi : i + (n + 1) ≤ nb) (b : Buffer) (v : Cell) :
    delayPairsFrom nb p (setCell b (iirSlot nb p i) v) (i + 1) n = delayPairsFrom nb p b (i + 1) n := by
  refine List.map_congr_left fun j hj => ?_
  rw [List.mem_range'_1] at hj
  rw [delayPair, cellAt_setCell_iirSlot (by omega) (by omega) (by omega),
    cellAt_setCell_iirSlot (by omega) (by omega) (by omega), delayPair]

/-- Once section `i` has its new value `v` and the sections after it are done, its record at the next index is `v` and its
one-sample-old value of before. -/
theorem delayPairsFrom_advance_written {nb p i n : Nat} {b b' : Buffer} {v : Cell} (hi : i + (n + 1) ≤ nb)
    (hb : b.length = 2 * nb + 1) (h : SameOutsideSections nb p (i + 1) n (setCell b (iirSlot nb p i) v) b') :
    delayPairsFrom nb (iirSlot nb p nb) b' i (n + 1) =
      (v, cellAt b (iirSlot nb p (i + nb))) :: delayPairsFrom nb (iirSlot nb p nb) b' (i + 1) n := by
  have hr := iirSlot_range (show 0 < nb by omega) p i
  rw [delayPairsFrom_advance_succ, h i (by omega) (by omega), h (i + nb) (by omega) (by omega),
    cellAt_setCell_self v (by omega), cellAt_setCell_iirSlot (by omega) (by omega) (by omega)]

/-! ### Direct Form II -/

/-- The cascade writes the older slots of its own sections and nothing else. -/
theorem df2Cascade_sameOutsideSections {s nb p : Nat} {bs : List Biquad} {i : Nat} {u : Sample} {buf : Buffer}
    {r : Sample × Buffer} (hi : i + bs.length ≤ nb) (h : df2Cascade s nb p bs i u buf = .ok r) :
    SameOutsideSections nb p i bs.length buf r.2 := by
  induction bs generalizing i u buf with
  | nil =>
    cases h
    exact sameOutsideSections_refl _ _ _ _ _
  | cons b bs ih =>
    rw [df2Cascade] at h
    obtain ⟨⟨yy, dn⟩, _, hrest⟩ := Exec.bind_eq_ok.mp h
    rw [List.length_cons] at hi
    exact (ih (by omega) hrest).cons hi

/-- The sections from number `i` on: their records taken through the cascade of records are those the cascade on the buffer
leaves, read at the next index. -/
theorem df2Records_delayPairsFrom {s nb p : Nat} {bs : List Biquad} {i : Nat} {u : Sample} {buf : Buffer}
    (hi : i + bs.length ≤ nb) (hb : buf.length = 2 * nb + 1) :
    df2Records s bs (delayPairsFrom nb p buf i bs.length) u =
      (df2Cascade s nb p bs i u buf).map fun r =>
        (r.1, delayPairsFrom nb (iirSlot nb p nb) r.2 i bs.length) := by
  induction bs generalizing i u buf with
  | nil => rfl
  | cons b bs ih =>
    rw [List.length_cons] at hi ⊢
    rw [delayPairsFrom_succ, df2Records, df2Cascade]
    cases df2Section s b u (cellAt buf (iirSlot nb p (i + nb))) (cellAt buf (iirSlot nb p i)) with
    | error e => rfl
    | ok r =>
      obtain ⟨yy, dn⟩ := r
      have hrest := ih (i := i + 1) (u := yy) (buf := setCell buf (iirSlot nb p i) dn) (by omega) (by simpa using hb)
      rw [delayPairsFrom_setCell hi] at hrest
      simp only [Exec.ok_bind, hrest]
      cases hc : df2Cascade s nb p bs (i + 1) yy (setCell buf (iirSlot nb p i) dn) with
      | error e => rfl
      | ok r =>
        have hsame := df2Cascade_sameOutsideSections (by omega) hc
        simp only [Except.map, Exec.ok_bind, delayPairsFrom_advance_written hi hb hsame]

/-- One sample: the cascade of records on a buffer's records. -/
theorem df2Records_delayPairs {c : Config} (hc : c.coef.length = c.nb) {p : Nat} {u : Sample} {buf : Buffer}
    (hb : buf.length = 2 * c.nb + 1) :
    df2Records (iirShift c) c.coef (delayPairs c.nb p buf) u =
      (df2Cascade (iirShift c) c.nb p c.coef 0 u buf).map fun r =>
        (r.1, delayPairs c.nb (iirSlot c.nb p c.nb) r.2) := by
  simpa only [delayPairs_eq_from, hc] using
    df2Records_delayPairsFrom (s := iirShift c) (p := p) (i := 0) (u := u) (by omega : 0 + c.coef.length ≤ c.nb) hb

/-- The run over the records a buffer holds is the loop on that buffer, result for result and stop for stop. -/
theorem df2RecordsRun_delayPairs {c : Config} (hc : c.coef.length = c.nb) {x : List Sample} {buf : Buffer} {p : Nat}
    (hb : buf.length = 2 * c.nb + 1) :
    df2RecordsRun c x (delayPairs c.nb p buf) =
      (df2Loop c x buf p).map fun r => (r.1, delayPairs c.nb r.2.2 r.2.1) := by
  induction x generalizing buf p with
  | nil => rfl
  | cons a xs ih =>
    rw [df2RecordsRun, df2Loop]
    cases iirGain c.iirGain a with
    | error e => rfl
    | ok u =>
      simp only [Exec.ok_bind, df2Records_delayPairs hc hb]
      cases hcas : df2Cascade (iirShift c) c.nb p c.coef 0 u buf with
      | error e => rfl
      | ok r =>
        simp only [Except.map, Exec.ok_bind, ih ((df2Cascade_length hcas).trans hb)]
        cases df2Loop c xs r.2 (iirSlot c.nb p c.nb) <;> rfl

/-- Settles O35: the run over records and the loop are related by `df2RecordsRun_delayPairs`, whichever way the loop ends. -/
theorem iir2IsACascadeOfDelayRecords : Obligations.Iir2IsACascadeOfDelayRecords := by
  intro c x d p hwf hd _ _
  obtain ⟨-, -, -, -, -, hcoef, -⟩ := (configWellFormed_iff c).mp hwf
  rw [df2RecordsRun_delayPairs hcoef hd]
  cases df2Loop c x d p with
  | error e => rfl
  | ok r => exact ⟨r.2.1, r.2.2, rfl, rfl⟩

/-! ### Direct Form I -/

/-- The cascade writes the older slots of its own sections, in both buffers, and nothing else. -/
theorem df1Cascade_sameOutsideSections {s nb pf pb : Nat} {bs : List Biquad} {i : Nat} {u : Sample} {ff fb : Buffer}
    {r : Sample × Buffer × Buffer} (hi : i + bs.length ≤ nb) (h : df1Cascade s nb pf pb bs i u ff fb = .ok r) :
    SameOutsideSections nb pf i bs.length ff r.2.1 ∧ SameOutsideSections nb pb i bs.length fb r.2.2 := by
  induction bs generalizing i u ff fb with
  | nil =>
    cases h
    exact ⟨sameOutsideSections_refl _ _ _ _ _, sameOutsideSections_refl _ _ _ _ _⟩
  | cons b bs ih =>
    rw [df1Cascade] at h
    obtain ⟨yy, _, hrest⟩ := Exec.bind_eq_ok.mp h
    rw [List.length_cons] at hi
    obtain ⟨hf, hb⟩ := ih (by omega) hrest
    exact ⟨hf.cons hi, hb.cons hi⟩

/-- The sections from number `i` on: their records of inputs and of outputs taken through the cascade of records are those the
cascade on the buffers leaves, read at the next indices. -/
theorem df1Records_delayPairsFrom {s nb pf pb : Nat} {bs : List Biquad} {i : Nat} {u : Sample} {ff fb : Buffer}
    (hi : i + bs.length ≤ nb) (hf : ff.length = 2 * nb + 1) (hb : fb.length = 2 * nb + 1) :
    df1Records s bs (delayPairsFrom nb pf ff i bs.length) (delayPairsFrom nb pb fb i bs.length) u =
      (df1Cascade s nb pf pb bs i u ff fb).map fun r =>
        (r.1, delayPairsFrom nb (iirSlot nb pf nb) r.2.1 i bs.length,
          delayPairsFrom nb (iirSlot nb pb nb) r.2.2 i bs.length) := by
  induction bs generalizing i u ff fb with
  | nil => rfl
  | cons b bs ih =>
    rw [List.length_cons] at hi ⊢
    rw [delayPairsFrom_succ, delayPairsFrom_succ, df1Records, df1Cascade]
    cases df1Section s b u (cellAt ff (iirSlot nb pf (i + nb))) (cellAt ff (iirSlot nb pf i))
        (cellAt fb (iirSlot nb pb (i + nb))) (cellAt fb (iirSlot nb pb i)) with
    | error e => rfl
    | ok yy =>
      have hrest := ih (i := i + 1) (u := yy) (ff := setCell ff (iirSlot nb pf i) u)
        (fb := setCell fb (iirSlot nb pb i) yy) (by omega) (by simpa using hf) (by simpa using hb)
      rw [delayPairsFrom_setCell hi, delayPairsFrom_setCell hi] at hrest
      simp only [Exec.ok_bind, hrest]
      cases hc : df1Cascade s nb pf pb bs (i + 1) yy (setCell ff (iirSlot nb pf i) u)
          (setCell fb (iirSlot nb pb i) yy) with
      | error e => rfl
      | ok r =>
        obtain ⟨hsf, hsb⟩ := df1Cascade_sameOutsideSections (by omega) hc
        simp only [Except.map, Exec.ok_bind, delayPairsFrom_advance_written hi hf hsf,
          delayPairsFrom_advance_written hi hb hsb]

/-- One sample: the cascade of records on the records of two buffers. -/
theorem df1Records_delayPairs {c : Config} (hc : c.coef.length = c.nb) {pf pb : Nat} {u : Sample} {ff fb : Buffer}
    (hf : ff.length = 2 * c.nb + 1) (hb : fb.length = 2 * c.nb + 1) :
    df1Records (iirShift c) c.coef (delayPairs c.nb pf ff) (delayPairs c.nb pb fb) u =
      (df1Cascade (iirShift c) c.nb pf pb c.coef 0 u ff fb).map fun r =>
        (r.1, delayPairs c.nb (iirSlot c.nb pf c.nb) r.2.1, delayPairs c.nb (iirSlot c.nb pb c.nb) r.2.2) := by
  simpa only [delayPairs_eq_from, hc] using
    df1Records_delayPairsFrom (s := iirShift c) (pf := pf) (pb := pb) (i := 0) (u := u)
      (by omega : 0 + c.coef.length ≤ c.nb) hf hb

/-- The run over the records two buffers hold is the loop on those buffers, result for result and stop for stop. -/
theorem df1RecordsRun_delayPairs {c : Config} (hc : c.coef.length = c.nb) {x : List Sample} {ff fb : Buffer} {pf pb : Nat}
    (hf : ff.length = 2 * c.nb + 1) (hb : fb.length = 2 * c.nb + 1) :
    df1RecordsRun c x (delayPairs c.nb pf ff) (delayPairs c.nb pb fb) =
      (df1Loop c x ff fb pf pb).map fun r => (r.y, delayPairs c.nb r.pf r.ff, delayPairs c.nb r.pb r.fb) := by
  induction x generalizing ff fb pf pb with
  | nil => rfl
  | cons a xs ih =>
    rw [df1RecordsRun, df1Loop]
    cases iirGain c.iirGain a with
    | error e => rfl
    | ok u =>
      simp only [Exec.ok_bind, df1Records_delayPairs hc hf hb]
      cases hcas : df1Cascade (iirShift c) c.nb pf pb c.coef 0 u ff fb with
      | error e => rfl
      | ok r =>
        obtain ⟨hf', hb'⟩ := df1Cascade_length hcas
        simp only [Except.map, Exec.ok_bind, ih (hf'.trans hf) (hb'.trans hb)]
        cases df1Loop c xs r.2.1 r.2.2 (iirSlot c.nb pf c.nb) (iirSlot c.nb pb c.nb) <;> rfl

/-- Settles O36: the run over records and the loop are related by `df1RecordsRun_delayPairs`, whichever way the loop ends. -/
theorem iir1IsACascadeOfDelayRecords : Obligations.Iir1IsACascadeOfDelayRecords := by
  intro c x ff fb pf pb hwf hf hb _ _ _ _
  obtain ⟨-, -, -, -, -, hcoef, -⟩ := (configWellFormed_iff c).mp hwf
  rw [df1RecordsRun_delayPairs hcoef hf hb]
  cases df1Loop c x ff fb pf pb with
  | error e => rfl
  | ok r => exact ⟨r, rfl, rfl, rfl, rfl⟩

end Sys2Proof.Machine
end

section
/-!
PROOFS. The commands with a lane select as one operation: `FIR`, `IIR1` and `IIR2` take their samples, run a computation on the
configuration, their lane and the samples alone, and write that lane back.
-/

namespace Sys2Proof.Machine

/-- What a command with a lane select computes, from the configuration, its lane and its samples: the outputs and the lane. -/
abbrev LaneComputation := Config → Lane → List Sample → Exec (List Sample × Lane)

/-- The computation of `FIR` (rule R140). -/
def firOnLane (st : Stage) : LaneComputation := fun c l x => do
  let (y, dl) ← firCommand (tapCount c st) (taps c st) x (l.fir st)
  .ok (y, l.setFir st dl)

/-- The computation of `IIR1` (rule R186). -/
def iir1OnLane : LaneComputation := fun c l x => do
  let (y, ff, fb) ← iir1Command c x l.ff l.fb
  .ok (y, { l with ff := ff, fb := fb })

/-- The computation of `IIR2` (rule R176). -/
def iir2OnLane : LaneComputation := fun c l x => do
  let (y, d) ← iir2Command c x l.d
  .ok (y, { l with d := d })

/-- The command on lane `ch` with computation `f`. -/
def onLane (ch : Chan) (len : Nat) (f : LaneComputation) (s : State) : Host.Outcome State Fault Refusal := conclude do
  let x ← takeSamples len s
  let (y, l) ← f s.config (s.lane ch) x
  .ok ((s.setLane ch l).answer (.samples y))

theorem exec_fir_eq_onLane (st : Stage) (ch : Chan) (len : Nat) (s : State) :
    exec (.fir st ch len) s = onLane ch len (firOnLane st) s := by
  rw [exec, execFir, onLane]
  cases takeSamples len s with
  | error e => rfl
  | ok x =>
    simp only [Exec.ok_bind, firOnLane]
    cases firCommand (tapCount s.config st) (taps s.config st) x ((s.lane ch).fir st) <;> rfl

theorem exec_iir1_eq_onLane (ch : Chan) (len : Nat) (s : State) :
    exec (.iir1 ch len) s = onLane ch len iir1OnLane s := by
  rw [exec, execIir1, onLane]
  cases takeSamples len s with
  | error e => rfl
  | ok x =>
    simp only [Exec.ok_bind, iir1OnLane]
    cases iir1Command s.config x (s.lane ch).ff (s.lane ch).fb <;> rfl

theorem exec_iir2_eq_onLane (ch : Chan) (len : Nat) (s : State) :
    exec (.iir2 ch len) s = onLane ch len iir2OnLane s := by
  rw [exec, execIir2, onLane]
  cases takeSamples len s with
  | error e => rfl
  | ok x =>
    simp only [Exec.ok_bind, iir2OnLane]
    cases iir2Command s.config x (s.lane ch).d <;> rfl

/-- A command with a lane select completes exactly with its operands and when its computation does. -/
theorem onLane_eq_next {ch : Chan} {len : Nat} {f : LaneComputation} {s t : State} :
    onLane ch len f s = .next t ↔
      configWellFormed s.config = true ∧ ∃ x y l, s.operands = .samples x ∧ x.length = len ∧
        f s.config (s.lane ch) x = .ok (y, l) ∧ t = (s.setLane ch l).answer (.samples y) := by
  simp only [onLane, conclude_eq_next, Exec.bind_eq_ok, takeSamples_eq_ok, Except.ok.injEq]
  constructor
  · rintro ⟨x, ⟨hc, ho, hl⟩, ⟨y, l⟩, hf, rfl⟩
    exact ⟨hc, x, y, l, ho, hl, hf, rfl⟩
  · rintro ⟨hc, x, y, l, ho, hl, hf, rfl⟩
    exact ⟨x, ⟨hc, ho, hl⟩, (y, l), hf, rfl⟩

/-- The three commands with a lane select. -/
theorem exec_eq_onLane {st : Stage} {ch : Chan} {len : Nat} {i : Instr}
    (hi : i ∈ [Instr.fir st ch len, .iir1 ch len, .iir2 ch len]) : ∃ f, ∀ s, exec i s = onLane ch len f s := by
  simp only [List.mem_cons, List.not_mem_nil, or_false] at hi
  rcases hi with rfl | rfl | rfl
  · exact ⟨_, exec_fir_eq_onLane st ch len⟩
  · exact ⟨_, exec_iir1_eq_onLane ch len⟩
  · exact ⟨_, exec_iir2_eq_onLane ch len⟩

end Sys2Proof.Machine
end

section
/-!
PROOFS. The two lanes (rule R21): what a command does to a lane depends on the configuration, on that lane and on its data
alone.
-/

namespace Sys2Proof.Machine

theorem otherLane_ne (ch : Chan) : otherLane ch ≠ ch := by cases ch <;> decide

/-- The outputs of `CIC` and its two lanes, each a function of that lane and its words. -/
theorem exec_cic_lanes {s t : State} {len : Nat} {l r : List Pdm} (ho : s.operands = .pdm l r)
    (h : exec (.cic len) s = .next t) :
    t.outputs = s.outputs ++ [.cic (cicRun l s.left.cic).1 (cicRun r s.right.cic).1] ∧
      t.left = { s.left with cic := (cicRun l s.left.cic).2 } ∧
      t.right = { s.right with cic := (cicRun r s.right.cic).2 } := by
  obtain ⟨_, l', r', ho', _, _, rfl⟩ := execCic_eq_next.mp h
  cases ho.symm.trans ho'
  exact ⟨rfl, rfl, rfl⟩

/-- One lane of `FRAME` (rule R212): its words through the CIC, and then the chain. -/
def frameLane (c : Config) (ws : List Pdm) (l : Lane) : Exec (List Pcm × Lane) :=
  chainLane c (cicRun ws l.cic).1 { l with cic := (cicRun ws l.cic).2 }

/-- The outputs of `FRAME` and its two lanes, each a function of the configuration, that lane and its words. -/
theorem exec_frame_lanes {s t : State} {len : Nat} {l r : List Pdm} (ho : s.operands = .pdm l r)
    (h : exec (.frame len) s = .next t) :
    ∃ pcmL pcmR, t.outputs = s.outputs ++ [.frame pcmL pcmR] ∧ frameLane s.config l s.left = .ok (pcmL, t.left) ∧
      frameLane s.config r s.right = .ok (pcmR, t.right) := by
  obtain ⟨_, _, l', r', pcmL, left, pcmR, right, ho', _, _, hl, hr, rfl⟩ := execFrame_eq_next.mp h
  cases ho.symm.trans ho'
  exact ⟨pcmL, pcmR, rfl, hl, hr⟩

/-- A lane's computation has one result. -/
theorem Exec.ok_pair_unique {α β : Type} {x y : Exec (α × β)} {a a' : α} {b b' : β} (hxy : x = y) (hx : x = .ok (a, b))
    (hy : y = .ok (a', b')) : b = b' ∧ a = a' := by
  cases hx.symm.trans (hxy.trans hy)
  exact ⟨rfl, rfl⟩

/-- A command with a lane select completes in either of two states that agree in what it reads, with the same new lane and
outputs, and leaves the other lane as it was. -/
theorem onLane_noninterference {s1 s2 t1 : State} {ch : Chan} {len : Nat} {f : LaneComputation}
    (hc : s1.config = s2.config) (hl : s1.lane ch = s2.lane ch) (ho : s1.operands = s2.operands)
    (h : onLane ch len f s1 = .next t1) :
    ∃ t2 y, onLane ch len f s2 = .next t2 ∧ t2.lane ch = t1.lane ch ∧ t1.outputs = s1.outputs ++ [.samples y] ∧
      t2.outputs = s2.outputs ++ [.samples y] ∧ t1.lane (otherLane ch) = s1.lane (otherLane ch) ∧
      t2.lane (otherLane ch) = s2.lane (otherLane ch) := by
  obtain ⟨hwf, x, y, l, hx, hlen, hf, rfl⟩ := onLane_eq_next.mp h
  rw [hc] at hwf
  rw [hc, hl] at hf
  refine ⟨(s2.setLane ch l).answer (.samples y), y,
    onLane_eq_next.mpr ⟨hwf, x, y, l, ho.symm.trans hx, hlen, hf, rfl⟩, ?_⟩
  simp [setLane_lane_of_ne, otherLane_ne]

/-- Settles O48: each lane of `CIC` and `FRAME` is a function of its own data (`exec_cic_lanes`, `exec_frame_lanes`), and so is
the lane of a command with a lane select (`onLane_noninterference`). -/
theorem lanesNeverExchangeData : Obligations.LanesNeverExchangeData := by
  refine ⟨fun s1 s2 len l1 r1 l2 r2 hc ho1 ho2 => ⟨fun t1 t2 h1 h2 => ?_, fun t1 t2 h1 h2 => ?_⟩,
    fun s1 s2 ch st len x hc hl ho1 ho2 i hi t1 h1 => ?_⟩
  · obtain ⟨hout1, hl1, hr1⟩ := exec_cic_lanes ho1 h1
    obtain ⟨hout2, hl2, hr2⟩ := exec_cic_lanes ho2 h2
    refine ⟨_, _, _, _, hout1, hout2, fun hs hw => ?_, fun hs hw => ?_⟩
    · rw [hl1, hl2, hs, hw]
      exact ⟨rfl, rfl⟩
    · rw [hr1, hr2, hs, hw]
      exact ⟨rfl, rfl⟩
  · obtain ⟨aL, aR, hout1, hl1, hr1⟩ := exec_frame_lanes ho1 h1
    obtain ⟨bL, bR, hout2, hl2, hr2⟩ := exec_frame_lanes ho2 h2
    exact ⟨aL, aR, bL, bR, hout1, hout2, fun hs hw => Exec.ok_pair_unique (by rw [hc, hs, hw]) hl1 hl2,
      fun hs hw => Exec.ok_pair_unique (by rw [hc, hs, hw]) hr1 hr2⟩
  · obtain ⟨f, hf⟩ := exec_eq_onLane hi
    rw [hf] at h1 ⊢
    exact onLane_noninterference hc hl (ho1.trans ho2.symm) h1

end Sys2Proof.Machine
end

section
/-!
PROOFS. The invariant (rules R26, R30): it holds at reset (rule R40), every command and every step keep it, and a step from a
state that meets it stops in none of the conditions the invariant rules out (rule R233), so no run from reset does.
-/

namespace Sys2Proof.Machine

/-! ### Reset -/

/-- Settles O50: every buffer of a reset lane is a list of zeros of its own length. -/
theorem resetStateIsAllZero : Obligations.ResetStateIsAllZero := by
  intro c
  have hlane : ∀ b ∈ [(Lane.zero c).cic.cells, (Lane.zero c).fir1, (Lane.zero c).fir2, (Lane.zero c).d,
      (Lane.zero c).ff, (Lane.zero c).fb], ∃ n, b = List.replicate n 0 := by
    simp only [List.forall_mem_cons, List.not_mem_nil, false_imp_iff, implies_true, and_true]
    exact ⟨⟨8, rfl⟩, ⟨_, rfl⟩, ⟨_, rfl⟩, ⟨_, rfl⟩, ⟨_, rfl⟩, ⟨_, rfl⟩⟩
  refine ⟨rfl, fun l hl => ?_⟩
  obtain rfl : l = .zero c := by simpa using hl
  refine ⟨fun b hb v hv => ?_, ?_⟩
  · obtain ⟨n, rfl⟩ := hlane b hb
    exact List.eq_of_mem_replicate hv
  · simp [Lane.zero, Cic.cells]

/-- A buffer of zeros is in form: its stored index is 0. -/
theorem bufferOk_replicate_zero (n : Nat) : BufferOk n (List.replicate (n + 1) 0) := by
  simp [BufferOk, cellAt, List.replicate_succ]

theorem laneOk_zero (c : Config) : LaneOk c (.zero c) :=
  ⟨bufferOk_replicate_zero _, bufferOk_replicate_zero _, bufferOk_replicate_zero _, bufferOk_replicate_zero _,
    bufferOk_replicate_zero _⟩

theorem inv_resetWith {c : Config} (hc : configWellFormed c = true) : Inv (State.resetWith c) :=
  ⟨hc, laneOk_zero c, laneOk_zero c⟩

/-- Settles O51: both lanes of a reset state are `laneOk_zero`. -/
theorem resetMeetsTheInvariant : Obligations.ResetMeetsTheInvariant := ⟨fun _ => inv_resetWith, inv_resetWith (by decide)⟩

/-! ### What a command does to the invariant -/

theorem forall_chan {p : Chan → Prop} : (∀ ch, p ch) ↔ p .L ∧ p .R :=
  ⟨fun h => ⟨h .L, h .R⟩, fun h ch => by cases ch; exacts [h.1, h.2]⟩

/-- The invariant, lane by lane. -/
theorem inv_iff {s : State} : Inv s ↔ configWellFormed s.config = true ∧ ∀ ch, LaneOk s.config (s.lane ch) := by
  rw [forall_chan]
  rfl

/-- A buffer a command has left, with its index on a slot, is in form. -/
theorem bufferOk_of_shape {n : Nat} {b : Buffer}
    (h : b.length = n + 1 ∧ 1 ≤ (cellAt b 0).toInt ∧ (cellAt b 0).toInt ≤ n) : BufferOk n b :=
  ⟨h.1, by omega, h.2.2⟩

theorem nb_pos {c : Config} (hc : configWellFormed c = true) : 0 < c.nb := by
  obtain ⟨-, -, -, -, hnb, -⟩ := (configWellFormed_iff c).mp hc
  exact hnb

section LaneOk
variable {c : Config} {l : Lane} {x : List Sample}

theorem laneOk_fir (h : LaneOk c l) (st : Stage) : BufferOk (tapCount c st + 2) (l.fir st) := by
  obtain ⟨h1, h2, -⟩ := h
  cases st
  · exact h1
  · exact h2

/-- The CIC cells are free (rule R22). -/
theorem laneOk_withCic (h : LaneOk c l) (cic : Cic) : LaneOk c { l with cic := cic } := h

theorem laneOk_setFir (h : LaneOk c l) {st : Stage} {b : Buffer} (hb : BufferOk (tapCount c st + 2) b) :
    LaneOk c (l.setFir st b) := by
  obtain ⟨h1, h2, h3⟩ := h
  cases st
  · exact ⟨hb, h2, h3⟩
  · exact ⟨h1, hb, h3⟩

theorem laneOk_of_firCommand (h : LaneOk c l) {st : Stage} {y : List Sample} {dl : Buffer}
    (hr : firCommand (tapCount c st) (taps c st) x (l.fir st) = .ok (y, dl)) : LaneOk c (l.setFir st dl) :=
  laneOk_setFir h (bufferOk_of_shape (firCommand_shape hr).2)

theorem laneOk_of_iir1Command (hc : configWellFormed c = true) (h : LaneOk c l) {y : List Sample} {ff fb : Buffer}
    (hr : iir1Command c x l.ff l.fb = .ok (y, ff, fb)) : LaneOk c { l with ff := ff, fb := fb } := by
  obtain ⟨h1, h2, h3, -⟩ := h
  obtain ⟨-, hf, hb⟩ := iir1Command_shape (nb_pos hc) hr
  exact ⟨h1, h2, h3, bufferOk_of_shape hf, bufferOk_of_shape hb⟩

theorem laneOk_of_iir2Command (hc : configWellFormed c = true) (h : LaneOk c l) {y : List Sample} {d : Buffer}
    (hr : iir2Command c x l.d = .ok (y, d)) : LaneOk c { l with d := d } := by
  obtain ⟨h1, h2, -, h3⟩ := h
  exact ⟨h1, h2, bufferOk_of_shape (iir2Command_shape (nb_pos hc) hr).2, h3⟩

theorem laneOk_of_chainIir (hc : configWellFormed c = true) (h : LaneOk c l) {y : List Sample} {l' : Lane}
    (hr : chainIir c x l = .ok (y, l')) : LaneOk c l' := by
  obtain ⟨-, heq⟩ | ⟨-, ff, fb, hcmd, rfl⟩ | ⟨-, d, hcmd, rfl⟩ := chainIir_eq_ok.mp hr
  · cases heq
    exact h
  · exact laneOk_of_iir1Command hc h hcmd
  · exact laneOk_of_iir2Command hc h hcmd

theorem laneOk_of_chainLane (hc : configWellFormed c = true) (h : LaneOk c l) {pcm : List Pcm} {l' : Lane}
    (hr : chainLane c x l = .ok (pcm, l')) : LaneOk c l' := by
  obtain ⟨f1, b1, f2, b2, g, h1, h2, h3, -⟩ := chainLane_eq_ok.mp hr
  have hl1 : LaneOk c (l.setFir .one b1) := laneOk_of_firCommand h h1
  have hl2 : LaneOk c ((l.setFir .one b1).setFir .two b2) := laneOk_of_firCommand hl1 h2
  exact laneOk_of_chainIir hc hl2 h3

end LaneOk

/-- A command on one lane keeps both lanes in form when its computation keeps its own. -/
theorem laneOk_of_onLane {ch : Chan} {len : Nat} {f : LaneComputation} {s t : State}
    (hf : ∀ {l x r}, LaneOk s.config l → f s.config l x = .ok r → LaneOk s.config r.2)
    (hs : ∀ a, LaneOk s.config (s.lane a)) (h : onLane ch len f s = .next t) :
    t.config = s.config ∧ ∀ a, LaneOk s.config (t.lane a) := by
  obtain ⟨_, x, y, l, _, _, hr, rfl⟩ := onLane_eq_next.mp h
  refine ⟨by simp, fun a => ?_⟩
  by_cases ha : a = ch
  · subst ha
    simpa only [answer_lane, setLane_lane] using hf (hs a) hr
  · simpa only [answer_lane, setLane_lane_of_ne s l ha] using hs a

/-- Every command leaves the configuration alone and keeps both lanes in form. -/
theorem exec_laneOk {i : Instr} {s t : State} (hs : Inv s) (h : exec i s = .next t) :
    t.config = s.config ∧ ∀ a, LaneOk s.config (t.lane a) := by
  obtain ⟨hc, hl⟩ := inv_iff.mp hs
  cases i with
  | nop =>
    obtain ⟨_, _, rfl⟩ := execNop_eq_next.mp h
    exact ⟨rfl, hl⟩
  | cic len =>
    obtain ⟨_, inL, inR, _, _, _, rfl⟩ := execCic_eq_next.mp h
    exact ⟨rfl, forall_chan.mpr ⟨hl .L, hl .R⟩⟩
  | fir st ch len =>
    rw [exec_fir_eq_onLane] at h
    refine laneOk_of_onLane (fun hlane hr => ?_) hl h
    obtain ⟨⟨y, dl⟩, hcmd, hr⟩ := Exec.bind_eq_ok.mp hr
    cases hr
    exact laneOk_of_firCommand hlane hcmd
  | iir1 ch len =>
    rw [exec_iir1_eq_onLane] at h
    refine laneOk_of_onLane (fun hlane hr => ?_) hl h
    obtain ⟨⟨y, ff, fb⟩, hcmd, hr⟩ := Exec.bind_eq_ok.mp hr
    cases hr
    exact laneOk_of_iir1Command hc hlane hcmd
  | iir2 ch len =>
    rw [exec_iir2_eq_onLane] at h
    refine laneOk_of_onLane (fun hlane hr => ?_) hl h
    obtain ⟨⟨y, d⟩, hcmd, hr⟩ := Exec.bind_eq_ok.mp hr
    cases hr
    exact laneOk_of_iir2Command hc hlane hcmd
  | gain len =>
    obtain ⟨_, x, y, _, _, _, rfl⟩ := execGain_eq_next.mp h
    exact ⟨rfl, hl⟩
  | frame len =>
    obtain ⟨_, _, inL, inR, pcmL, left, pcmR, right, _, _, _, hleft, hright, rfl⟩ := execFrame_eq_next.mp h
    exact ⟨rfl, forall_chan.mpr ⟨laneOk_of_chainLane hc (laneOk_withCic (hl .L) _) hleft,
      laneOk_of_chainLane hc (laneOk_withCic (hl .R) _) hright⟩⟩
  | reset =>
    obtain ⟨_, _, rfl⟩ := execReset_eq_next.mp h
    exact ⟨rfl, forall_chan.mpr ⟨laneOk_zero _, laneOk_zero _⟩⟩

/-- A step from a state that meets the invariant leaves the configuration alone and answers a state that meets it. -/
theorem step_inv {s t : State} (hs : Inv s) (h : step s = .next t) : t.config = s.config ∧ Inv t := by
  obtain ⟨hc, ⟨-, rfl⟩ | ⟨c, rest, i, -, -, hexec⟩⟩ := step_eq_next.mp h
  · exact ⟨rfl, hs⟩
  · obtain ⟨hconfig, hl⟩ := exec_laneOk (s := { s with pending := rest, operands := c.data }) hs hexec
    refine ⟨hconfig, inv_iff.mpr ?_⟩
    rw [hconfig]
    exact ⟨hc, hl⟩

/-- Settles O52: a step waits, or runs a command, and every command keeps the lanes in form (`exec_laneOk`). -/
theorem everyStepKeepsTheInvariant : Obligations.EveryStepKeepsTheInvariant := fun _ _ hs h => (step_inv hs h).2

/-! ### The stops the invariant rules out -/

/-- The stops of rule R233 that say the state is not in form: `U_IDX`, `U_CONFIG`, `U_RELOC`. -/
def Stop.outOfForm : Stop → Bool
  | .fault .idx => true
  | .refused .config => true
  | .refused .relocated => true
  | _ => false

/-- The computation does not stop because the state is not in form. -/
def StaysInForm {α : Type} (x : Exec α) : Prop := ∀ e, x = .error e → e.outOfForm = false

@[simp] theorem staysInForm_ok {α : Type} (a : α) : StaysInForm (.ok a : Exec α) := nofun

/-- A computation stays in form exactly when its first part does and the rest does from there. -/
@[simp] theorem staysInForm_bind {α β : Type} {x : Exec α} {f : α → Exec β} :
    StaysInForm (x >>= f) ↔ StaysInForm x ∧ ∀ a, x = .ok a → StaysInForm (f a) := by
  cases x <;> simp [StaysInForm]

@[simp] theorem staysInForm_acc40 (v : Int) : StaysInForm (acc40 v) := by
  intro e h
  obtain ⟨-, rfl⟩ := acc40_eq_error.mp h
  rfl

@[simp] theorem staysInForm_store32 (v : Int) : StaysInForm (store32 v) := by
  intro e h
  obtain ⟨-, rfl⟩ := store32_eq_error.mp h
  rfl

@[simp] theorem staysInForm_storeIndex (p : Nat) (b : Buffer) : StaysInForm (storeIndex p b) := by simp [storeIndex]

theorem staysInForm_checkConfig {c : Config} (h : configWellFormed c = true) : StaysInForm (checkConfig c) := by
  rw [checkConfig_of_wellFormed h]
  exact staysInForm_ok ()

theorem staysInForm_checkSize {n : Nat} {b : Buffer} (h : BufferOk n b) : StaysInForm (checkSize n b) := by
  rw [checkSize_eq_ok.mpr h.1]
  exact staysInForm_ok ()

theorem staysInForm_startIndex {n : Nat} {b : Buffer} (h : BufferOk n b) : StaysInForm (startIndex n b) := by
  obtain ⟨-, hlo, hhi⟩ := h
  intro e he
  obtain ⟨hout, -⟩ := startIndex_eq_error.mp he
  omega

@[simp] theorem staysInForm_refuse_operands {α : Type} : StaysInForm (refuse .operands : Exec α) := by
  rintro e ⟨⟩
  rfl

section Take
variable {s : State}

theorem staysInForm_takeNone (h : configWellFormed s.config = true) : StaysInForm (takeNone s) := by
  refine staysInForm_bind.mpr ⟨staysInForm_checkConfig h, fun _ _ => ?_⟩
  cases s.operands <;> simp

theorem staysInForm_takePdm (h : configWellFormed s.config = true) (len : Nat) : StaysInForm (takePdm len s) := by
  refine staysInForm_bind.mpr ⟨staysInForm_checkConfig h, fun _ _ => ?_⟩
  cases s.operands with
  | pdm l r => dsimp only; split <;> simp
  | _ => simp

theorem staysInForm_takeSamples (h : configWellFormed s.config = true) (len : Nat) : StaysInForm (takeSamples len s) := by
  refine staysInForm_bind.mpr ⟨staysInForm_checkConfig h, fun _ _ => ?_⟩
  cases s.operands with
  | samples x => dsimp only; split <;> simp
  | _ => simp

end Take

/-! The units' loops check ranges only. -/

@[simp] theorem staysInForm_firSum (slots p : Nat) (dl : Buffer) (h : List Int) (k : Nat) (acc : Int) :
    StaysInForm (firSum slots p dl h k acc) := by
  induction h generalizing k acc with
  | nil => exact staysInForm_ok acc
  | cons a h ih => simp [firSum, ih]

@[simp] theorem staysInForm_firOut (slots : Nat) (h : List Int) (dl : Buffer) (p : Nat) :
    StaysInForm (firOut slots h dl p) := by simp [firOut]

theorem staysInForm_firLoop (slots : Nat) (h : List Int) (x : List Sample) (dl : Buffer) (p : Nat) :
    StaysInForm (firLoop slots h x dl p) := by
  induction x, dl, p using firLoop.induct slots with
  | case1 x0 x1 xs dl p dl1 p1 h1 dl2 p2 h2 ih =>
    simp only [firLoop, h1, h2, staysInForm_bind, staysInForm_firOut, staysInForm_ok, ih, implies_true, and_self]
  | case2 x dl p hne =>
    rw [firLoop]
    · exact staysInForm_ok _
    · exact hne

@[simp] theorem staysInForm_iirGain (g : Nat) (x : Sample) : StaysInForm (iirGain g x) := by simp [iirGain]

@[simp] theorem staysInForm_df1Section (s : Nat) (b : Biquad) (u x1 x2 y1 y2 : Sample) :
    StaysInForm (df1Section s b u x1 x2 y1 y2) := by simp [df1Section]

@[simp] theorem staysInForm_df2Section (s : Nat) (b : Biquad) (u d1 d2 : Sample) :
    StaysInForm (df2Section s b u d1 d2) := by simp [df2Section]

@[simp] theorem staysInForm_df1Cascade (s nb pf pb : Nat) (bs : List Biquad) (i : Nat) (u : Sample) (ff fb : Buffer) :
    StaysInForm (df1Cascade s nb pf pb bs i u ff fb) := by
  induction bs generalizing i u ff fb with
  | nil => exact staysInForm_ok _
  | cons b bs ih => simp [df1Cascade, ih]

@[simp] theorem staysInForm_df2Cascade (s nb p : Nat) (bs : List Biquad) (i : Nat) (u : Sample) (buf : Buffer) :
    StaysInForm (df2Cascade s nb p bs i u buf) := by
  induction bs generalizing i u buf with
  | nil => exact staysInForm_ok _
  | cons b bs ih => simp [df2Cascade, ih]

theorem staysInForm_df1Loop (c : Config) (x : List Sample) (ff fb : Buffer) (pf pb : Nat) :
    StaysInForm (df1Loop c x ff fb pf pb) := by
  induction x generalizing ff fb pf pb with
  | nil => exact staysInForm_ok _
  | cons a x ih => simp [df1Loop, ih]

theorem staysInForm_df2Loop (c : Config) (x : List Sample) (buf : Buffer) (p : Nat) :
    StaysInForm (df2Loop c x buf p) := by
  induction x generalizing buf p with
  | nil => exact staysInForm_ok _
  | cons a x ih => simp [df2Loop, ih]

theorem staysInForm_gainCommand (g : Nat) (x : List Sample) : StaysInForm (gainCommand g x) := by
  induction x with
  | nil => exact staysInForm_ok _
  | cons a x ih => simp [gainCommand, gainSample, ih]

/-! The commands on buffers in form pass their checks of size and index. -/

theorem staysInForm_firCommand {nc : Nat} {dl : Buffer} (hb : BufferOk (nc + 2) dl) (h : List Int) (x : List Sample) :
    StaysInForm (firCommand nc h x dl) := by
  unfold firCommand
  split
  · rintro e ⟨⟩
    rfl
  · simp [staysInForm_checkSize hb, staysInForm_startIndex hb, staysInForm_firLoop]

theorem staysInForm_iir1Command {c : Config} {ff fb : Buffer} (hf : BufferOk (2 * c.nb) ff) (hb : BufferOk (2 * c.nb) fb)
    (x : List Sample) : StaysInForm (iir1Command c x ff fb) := by
  simp [iir1Command, staysInForm_checkSize hf, staysInForm_checkSize hb, staysInForm_startIndex hf,
    staysInForm_startIndex hb, staysInForm_df1Loop]

theorem staysInForm_iir2Command {c : Config} {d : Buffer} (hd : BufferOk (2 * c.nb) d) (x : List Sample) :
    StaysInForm (iir2Command c x d) := by
  simp [iir2Command, staysInForm_checkSize hd, staysInForm_startIndex hd, staysInForm_df2Loop]

section LaneOk
variable {c : Config} {l : Lane} (h : LaneOk c l) (x : List Sample)
include h

theorem staysInForm_chainIir : StaysInForm (chainIir c x l) := by
  obtain ⟨-, -, hd, hf, hb⟩ := h
  unfold chainIir
  cases c.iirMode with
  | bypass => exact staysInForm_ok _
  | df1 => simp [staysInForm_iir1Command hf hb]
  | df2 => simp [staysInForm_iir2Command hd]

theorem staysInForm_chainLane : StaysInForm (chainLane c x l) := by
  refine staysInForm_bind.mpr ⟨staysInForm_firCommand (laneOk_fir h .one) _ _, fun ⟨f1, b1⟩ h1 => ?_⟩
  have hl1 : LaneOk c (l.setFir .one b1) := laneOk_of_firCommand h h1
  refine staysInForm_bind.mpr ⟨staysInForm_firCommand (laneOk_fir hl1 .two) _ _, fun ⟨f2, b2⟩ h2 => ?_⟩
  have hl2 : LaneOk c ((l.setFir .one b1).setFir .two b2) := laneOk_of_firCommand hl1 h2
  refine staysInForm_bind.mpr ⟨staysInForm_chainIir hl2 f2, fun ⟨g, l'⟩ _ => ?_⟩
  simp [staysInForm_gainCommand]

end LaneOk

/-- The outcome is none of the stops the invariant rules out. -/
def EndsInForm (o : Host.Outcome State Fault Refusal) : Prop :=
  o ≠ .fault .idx ∧ o ≠ .refused .config ∧ o ≠ .refused .relocated

theorem endsInForm_conclude {x : Exec State} (h : StaysInForm x) : EndsInForm (conclude x) := by
  refine ⟨fun he => ?_, fun he => ?_, fun he => ?_⟩
  · exact absurd (h _ (conclude_eq_fault.mp he)) (by decide)
  · exact absurd (h _ (conclude_eq_refused.mp he)) (by decide)
  · exact absurd (h _ (conclude_eq_refused.mp he)) (by decide)

theorem endsInForm_onLane {ch : Chan} {len : Nat} {f : LaneComputation} {s : State}
    (hc : configWellFormed s.config = true) (hf : ∀ x, StaysInForm (f s.config (s.lane ch) x)) :
    EndsInForm (onLane ch len f s) :=
  endsInForm_conclude (by simp [staysInForm_takeSamples hc, hf])

/-- From a state that meets the invariant no command ends in one of the stops it rules out. -/
theorem exec_endsInForm {s : State} (hs : Inv s) (i : Instr) : EndsInForm (exec i s) := by
  obtain ⟨hc, hl⟩ := inv_iff.mp hs
  cases i with
  | nop => exact endsInForm_conclude (by simp [staysInForm_takeNone hc])
  | cic len => exact endsInForm_conclude (by simp [staysInForm_takePdm hc])
  | fir st ch len =>
    rw [exec_fir_eq_onLane]
    exact endsInForm_onLane hc fun x => by simp [firOnLane, staysInForm_firCommand (laneOk_fir (hl ch) st)]
  | iir1 ch len =>
    obtain ⟨-, -, -, hf, hb⟩ := hl ch
    rw [exec_iir1_eq_onLane]
    exact endsInForm_onLane hc fun x => by simp [iir1OnLane, staysInForm_iir1Command hf hb]
  | iir2 ch len =>
    obtain ⟨-, -, hd, -⟩ := hl ch
    rw [exec_iir2_eq_onLane]
    exact endsInForm_onLane hc fun x => by simp [iir2OnLane, staysInForm_iir2Command hd]
  | gain len => exact endsInForm_conclude (by simp [staysInForm_takeSamples hc, staysInForm_gainCommand])
  | frame len =>
    refine endsInForm_conclude (staysInForm_bind.mpr ⟨staysInForm_takePdm hc len, fun ⟨inL, inR⟩ _ => ?_⟩)
    dsimp only
    split
    · rintro e ⟨⟩
      rfl
    · have hleft : ∀ x, StaysInForm (chainLane s.config x { s.left with cic := (cicRun inL s.left.cic).2 }) :=
        staysInForm_chainLane (laneOk_withCic (hl .L) _)
      have hright : ∀ x, StaysInForm (chainLane s.config x { s.right with cic := (cicRun inR s.right.cic).2 }) :=
        staysInForm_chainLane (laneOk_withCic (hl .R) _)
      simp [hleft, hright]
  | reset => exact endsInForm_conclude (by simp [staysInForm_takeNone hc])

/-- From a state that meets the invariant no step ends in one of the stops it rules out: a reserved word is none of them. -/
theorem step_endsInForm {s : State} (hs : Inv s) : EndsInForm (step s) := by
  rw [step, fetch, checkConfig_of_wellFormed hs.1, Exec.ok_bind]
  cases s.pending with
  | nil => exact ⟨nofun, nofun, nofun⟩
  | cons c rest =>
    dsimp only
    cases decode c.word with
    | error why => exact ⟨nofun, nofun, nofun⟩
    | ok i => exact exec_endsInForm (s := { s with pending := rest, operands := c.data }) hs i

/-! ### Runs -/

/-- Every state of a run meets the invariant and has the configuration the run began with. -/
theorem reachable_inv {c : Config} (hc : configWellFormed c = true) {s : State} (h : Reachable c s) :
    Inv s ∧ s.config = c := by
  induction h with
  | reset => exact ⟨inv_resetWith hc, rfl⟩
  | offer cmd _ ih => exact ih
  | step _ hstep ih =>
    obtain ⟨hconfig, hinv⟩ := step_inv ih.1 hstep
    exact ⟨hinv, hconfig.trans ih.2⟩

/-- Settles O53: every state of a run meets the invariant (`reachable_inv`), and from there `step_endsInForm`. -/
theorem reachableRunsNeverMeetBadIndices : Obligations.ReachableRunsNeverMeetBadIndices := by
  intro c s hc h
  obtain ⟨hinv, hconfig⟩ := reachable_inv hc h
  exact ⟨hinv, hconfig, step_endsInForm hinv⟩

end Sys2Proof.Machine
end

section
/-!
PROOFS. The step as `exec` of the decoded command (rules R37, R59), and the stored index of a delay buffer before and after a
command, for FIR (rules R26, R143) and for both IIR forms (rules R30, R192).
-/

namespace Sys2Proof.Machine

/-! ### The step -/

/-- Settles O7: `fetch` takes the first pending command and hands over its data. -/
theorem stepRunsTheDecodedCommand : Obligations.StepRunsTheDecodedCommand := by
  intro s c rest i hc hp hd
  simp only [step, fetch, checkConfig_of_wellFormed hc, Exec.ok_bind, hp, hd]

/-! ### The stored index at command start -/

/-- A stored index outside the slots is `U_IDX` (rule R26). -/
theorem startIndex_of_outside {n : Nat} {b : Buffer} (h : (cellAt b 0).toInt < 0 ∨ (n : Int) < (cellAt b 0).toInt) :
    startIndex n b = .error (.fault .idx) := startIndex_eq_error.mpr ⟨h, rfl⟩

theorem startIndex_eq_indexOf {n : Nat} {b : Buffer} {p : Nat} (h : startIndex n b = .ok p) : p = indexOf b := by
  rw [startIndex_eq_ok] at h
  unfold indexOf
  split <;> omega

/-- A buffer whose stored index is 0 starts where one does whose stored index is 1. -/
theorem startIndex_setCell_one {n : Nat} {b : Buffer} (hn : 1 ≤ n) (hb : 0 < b.length) (h : (cellAt b 0).toInt = 0) :
    startIndex n (setCell b 0 1) = startIndex n b := by
  have hone : startIndex n (setCell b 0 1) = .ok 1 := by
    rw [startIndex_eq_ok, cellAt_setCell_self 1 hb, show (1 : Cell).toInt = 1 by decide]
    omega
  rw [hone, startIndex_eq_ok.mpr (.inl ⟨h, rfl⟩)]

theorem checkSize_of_length {n : Nat} {b : Buffer} (h : b.length = n + 1) : checkSize n b = .ok () := if_pos h

/-! ### A command on one lane, its operands given -/

/-- A fault of the computation is the fault of the command. -/
theorem onLane_fault {ch : Chan} {len : Nat} {f : LaneComputation} {s : State} {x : List Sample} {e : Fault}
    (hc : configWellFormed s.config = true) (ho : s.operands = .samples x) (hx : x.length = len)
    (hf : f s.config (s.lane ch) x = .error (.fault e)) : onLane ch len f s = .fault e := by
  rw [onLane, takeSamples_eq_ok.mpr ⟨hc, ho, hx⟩, Exec.ok_bind, hf]
  rfl

/-- A lane written twice holds what was written last. -/
@[simp] theorem setLane_setLane (s : State) (ch : Chan) (l l' : Lane) : (s.setLane ch l).setLane ch l' = s.setLane ch l' := by
  cases ch <;> rfl

@[simp] theorem setFir_setFir (l : Lane) (st : Stage) (b b' : Buffer) : (l.setFir st b).setFir st b' = l.setFir st b' := by
  cases st <;> rfl

/-- The command does not tell apart two lanes its computation does not. -/
theorem onLane_setLane {ch : Chan} {len : Nat} {f : LaneComputation} {s : State} {x : List Sample} {l : Lane}
    (ho : s.operands = .samples x) (hf : f s.config l x = f s.config (s.lane ch) x) :
    onLane ch len f (s.setLane ch l) = onLane ch len f s := by
  have htake : takeSamples len (s.setLane ch l) = takeSamples len s := by
    simp only [takeSamples, setLane_config, setLane_operands]
  rw [onLane, onLane, htake]
  cases hx : takeSamples len s with
  | error e => rfl
  | ok x' =>
    obtain ⟨-, ho', -⟩ := takeSamples_eq_ok.mp hx
    cases ho.symm.trans ho'
    simp only [Exec.ok_bind, setLane_config, setLane_lane, setLane_setLane, hf]

/-! ### FIR -/

/-- An even number of samples on a buffer of its size: the index, the loop, the index written back. -/
theorem firCommand_of_even {nc : Nat} {h : List Int} {x : List Sample} {dl : Buffer} (hx : x.length % 2 = 0)
    (hdl : dl.length = nc + 3) :
    firCommand nc h x dl = (do
      let p ← startIndex (nc + 2) dl
      let r ← firLoop (nc + 2) h x dl p
      let dl' ← storeIndex r.2.2 r.2.1
      .ok (r.1, dl')) := by
  rw [firCommand, if_neg (by omega), checkSize_of_length hdl]
  rfl

/-- The index cell and a sample cell are written in either order. -/
theorem setCell_zero_comm {p : Nat} (hp : 1 ≤ p) (dl : Buffer) (v x : Cell) :
    setCell (setCell dl 0 v) p x = setCell (setCell dl p x) 0 v := List.set_comm v x (by omega)

/-- The sum of rule R133 does not read the index cell. -/
theorem firSum_setCell_zero (slots p : Nat) (dl : Buffer) (v : Cell) (h : List Int) (k : Nat) (acc : Int) :
    firSum slots p (setCell dl 0 v) h k acc = firSum slots p dl h k acc := by
  induction h generalizing k acc with
  | nil => rfl
  | cons a h ih =>
    have hcell : cellAt (setCell dl 0 v) (newestSlot slots p k) = cellAt dl (newestSlot slots p k) :=
      cellAt_setCell_of_ne v (Nat.succ_ne_zero _).symm
    simp only [firSum, hcell, ih]

theorem firOut_setCell_zero (slots : Nat) (h : List Int) (dl : Buffer) (p : Nat) (v : Cell) :
    firOut slots h (setCell dl 0 v) p = firOut slots h dl p := by
  simp only [firOut, firSum_setCell_zero]

/-- The loop of rule R140 neither reads nor writes the index cell. -/
theorem firLoop_setCell_zero {slots : Nat} {h : List Int} {x : List Sample} {dl : Buffer} {p : Nat} (v : Cell)
    (hp : 1 ≤ p) :
    firLoop slots h x (setCell dl 0 v) p =
      (firLoop slots h x dl p).map fun r => (r.1, setCell r.2.1 0 v, r.2.2) := by
  induction x, dl, p using firLoop.induct slots with
  | case1 x0 x1 xs dl p dl1 p1 h1 dl2 p2 h2 ih =>
    simp only [firPush, Prod.mk.injEq] at h1 h2
    obtain ⟨rfl, rfl⟩ := h1
    obtain ⟨rfl, rfl⟩ := h2
    simp only [firLoop, firPush, setCell_zero_comm hp, setCell_zero_comm (Nat.le_add_left 1 _),
      firOut_setCell_zero, ih (Nat.le_add_left 1 _)]
    cases firOut slots h (setCell (setCell dl p x0) (p % slots + 1) x1) ((p % slots + 1) % slots + 1) with
    | error e => rfl
    | ok y =>
      cases firLoop slots h xs (setCell (setCell dl p x0) (p % slots + 1) x1) ((p % slots + 1) % slots + 1) <;> rfl
  | case2 x dl p hne =>
    rw [firLoop, firLoop]
    · rfl
    · exact hne
    · exact hne

theorem storeIndex_setCell_zero (p : Nat) (b : Buffer) (v : Cell) : storeIndex p (setCell b 0 v) = storeIndex p b := by
  simp only [storeIndex, setCell, List.set_set]

/-- A command on a buffer whose stored index is 0 does what it does on that buffer with 1 stored. -/
theorem firCommand_setCell_one {nc : Nat} {h : List Int} {x : List Sample} {dl : Buffer} (hx : x.length % 2 = 0)
    (hdl : dl.length = nc + 3) (hzero : (cellAt dl 0).toInt = 0) :
    firCommand nc h x (setCell dl 0 1) = firCommand nc h x dl := by
  rw [firCommand_of_even hx hdl, firCommand_of_even hx (by simpa using hdl),
    startIndex_setCell_one (by omega) (by omega) hzero, startIndex_eq_ok.mpr (.inl ⟨hzero, rfl⟩)]
  simp only [Exec.ok_bind, firLoop_setCell_zero 1 (Nat.le_refl 1)]
  cases firLoop (nc + 2) h x dl 1 with
  | error e => rfl
  | ok r => simp only [Except.map, Exec.ok_bind, storeIndex_setCell_zero]

/-- Settles O29: the index at command start is `startIndex`, a stored 0 and a stored 1 run the same command
(`firCommand_setCell_one`), and `firCommand_shape` gives the index at command end. -/
theorem firStoredIndexStaysOnASlot : Obligations.FirStoredIndexStaysOnASlot := by
  intro s st ch len x hc ho hx heven hlen
  simp only [exec_fir_eq_onLane]
  have hxe : x.length % 2 = 0 := by omega
  refine ⟨fun hout => onLane_fault hc ho hx ?_, fun hzero => (onLane_setLane ho ?_).symm, fun t ht => ?_⟩
  · rw [firOnLane, firCommand_of_even hxe hlen, startIndex_of_outside hout]
    rfl
  · simp only [firOnLane, setFir_fir, setFir_setFir]
    rw [firCommand_setCell_one hxe hlen hzero]
  · obtain ⟨_, x', y, l, _, _, hf, rfl⟩ := onLane_eq_next.mp ht
    obtain ⟨⟨y', dl⟩, hcmd, hl⟩ := Exec.bind_eq_ok.mp hf
    cases hl
    simpa using (firCommand_shape hcmd).2.2

/-! ### The two IIR forms -/

/-- Advancing by `NB` comes back to the same slot after an even number of advances. -/
theorem iirSlot_mul_nb {nb p : Nat} (hp : 1 ≤ p ∧ p ≤ 2 * nb) (n : Nat) :
    iirSlot nb p (n * nb) = if n % 2 = 0 then p else iirSlot nb p nb := by
  have hn : n * nb = n % 2 * nb + 2 * nb * (n / 2) := by
    conv_lhs => rw [← Nat.mod_add_div n 2]
    ring
  rw [hn, iirSlot_add_mul_period]
  obtain h | h := Nat.mod_two_eq_zero_or_one n
  · simp [h, iirSlot_zero hp]
  · simp [h]

/-- One advance by `NB` for each sample (rule R176). -/
theorem df2Loop_index {c : Config} (hn : 0 < c.nb) {x : List Sample} {buf : Buffer} {p : Nat}
    (hp : 1 ≤ p ∧ p ≤ 2 * c.nb) {r : List Sample × Buffer × Nat} (h : df2Loop c x buf p = .ok r) :
    r.2.2 = iirSlot c.nb p (x.length * c.nb) := by
  induction x generalizing buf p r with
  | nil =>
    cases h
    simp [iirSlot_zero hp]
  | cons a xs ih =>
    rw [df2Loop] at h
    obtain ⟨u, _, h⟩ := Exec.bind_eq_ok.mp h
    obtain ⟨⟨y, b1⟩, _, h⟩ := Exec.bind_eq_ok.mp h
    obtain ⟨⟨ys, b2, p2⟩, hl, h⟩ := Exec.bind_eq_ok.mp h
    cases h
    rw [ih (iirSlot_range hn _ _) hl, iirSlot_iirSlot, List.length_cons, Nat.succ_mul, Nat.add_comm]

/-- One advance by `NB` of either index for each sample (rule R186). -/
theorem df1Loop_index {c : Config} (hn : 0 < c.nb) {x : List Sample} {ff fb : Buffer} {pf pb : Nat}
    (hf : 1 ≤ pf ∧ pf ≤ 2 * c.nb) (hb : 1 ≤ pb ∧ pb ≤ 2 * c.nb) {r : Df1Result}
    (h : df1Loop c x ff fb pf pb = .ok r) :
    r.pf = iirSlot c.nb pf (x.length * c.nb) ∧ r.pb = iirSlot c.nb pb (x.length * c.nb) := by
  induction x generalizing ff fb pf pb r with
  | nil =>
    cases h
    simp [iirSlot_zero hf, iirSlot_zero hb]
  | cons a xs ih =>
    rw [df1Loop] at h
    obtain ⟨u, _, h⟩ := Exec.bind_eq_ok.mp h
    obtain ⟨⟨y, f1, b1⟩, _, h⟩ := Exec.bind_eq_ok.mp h
    obtain ⟨r', hl, h⟩ := Exec.bind_eq_ok.mp h
    cases h
    obtain ⟨h1, h2⟩ := ih (iirSlot_range hn _ _) (iirSlot_range hn _ _) hl
    rw [h1, h2, iirSlot_iirSlot, iirSlot_iirSlot, List.length_cons, Nat.succ_mul, Nat.add_comm]
    exact ⟨rfl, rfl⟩

/-- The stored index an IIR command leaves after `n` samples in a buffer that was `b`: where it started, or `NB` slots on. -/
def iirNextIndex (nb n : Nat) (b : Buffer) : Nat := if n % 2 = 0 then indexOf b else iirSlot nb (indexOf b) nb

theorem iir2Command_index {c : Config} (hn : 0 < c.nb) {x : List Sample} {d : Buffer} {r : List Sample × Buffer}
    (h : iir2Command c x d = .ok r) : (cellAt r.2 0).toInt = iirNextIndex c.nb x.length d := by
  obtain ⟨hl, p, d1, p1, hp, hloop, hst⟩ := iir2Command_eq_ok.mp h
  have hrange := startIndex_range (by omega) hp
  obtain ⟨-, hlen, -⟩ := df2Loop_shape hn hrange hloop
  have hindex := df2Loop_index hn hrange hloop
  rw [iirSlot_mul_nb hrange, startIndex_eq_indexOf hp] at hindex
  rw [(storeIndex_toInt (by simp only at hlen; omega) hst).1, iirNextIndex, ← hindex]

theorem iir1Command_index {c : Config} (hn : 0 < c.nb) {x : List Sample} {ff fb : Buffer}
    {r : List Sample × Buffer × Buffer} (h : iir1Command c x ff fb = .ok r) :
    (cellAt r.2.1 0).toInt = iirNextIndex c.nb x.length ff ∧ (cellAt r.2.2 0).toInt = iirNextIndex c.nb x.length fb := by
  obtain ⟨hlf, hlb, pf, pb, q, hpf, hpb, hloop, -, hsf, hsb⟩ := iir1Command_eq_ok.mp h
  have hrf := startIndex_range (by omega) hpf
  have hrb := startIndex_range (by omega) hpb
  obtain ⟨-, hlenf, hlenb, -⟩ := df1Loop_shape hn hrf hrb hloop
  obtain ⟨hif, hib⟩ := df1Loop_index hn hrf hrb hloop
  rw [iirSlot_mul_nb hrf, startIndex_eq_indexOf hpf] at hif
  rw [iirSlot_mul_nb hrb, startIndex_eq_indexOf hpb] at hib
  rw [(storeIndex_toInt (by omega) hsf).1, (storeIndex_toInt (by omega) hsb).1, iirNextIndex, iirNextIndex, ← hif, ← hib]
  exact ⟨rfl, rfl⟩

/-- A stored index outside the slots stops `IIR2`. -/
theorem iir2Command_of_outside {c : Config} {x : List Sample} {d : Buffer} (hd : d.length = 2 * c.nb + 1)
    (h : (cellAt d 0).toInt < 0 ∨ (2 * c.nb : Nat) < (cellAt d 0).toInt) :
    iir2Command c x d = .error (.fault .idx) := by
  rw [iir2Command, checkSize_of_length hd, Exec.ok_bind, startIndex_of_outside h]
  rfl

/-- A stored index outside the slots, in either buffer, stops `IIR1`. -/
theorem iir1Command_of_outside {c : Config} {x : List Sample} {ff fb : Buffer} (hf : ff.length = 2 * c.nb + 1)
    (hb : fb.length = 2 * c.nb + 1)
    (h : ((cellAt ff 0).toInt < 0 ∨ (2 * c.nb : Nat) < (cellAt ff 0).toInt) ∨
      ((cellAt fb 0).toInt < 0 ∨ (2 * c.nb : Nat) < (cellAt fb 0).toInt)) :
    iir1Command c x ff fb = .error (.fault .idx) := by
  rw [iir1Command, checkSize_of_length hf, checkSize_of_length hb, Exec.ok_bind, Exec.ok_bind]
  cases hpf : startIndex (2 * c.nb) ff with
  | error e =>
    obtain ⟨-, rfl⟩ := startIndex_eq_error.mp hpf
    rfl
  | ok pf =>
    obtain h | h := h
    · rw [startIndex_of_outside h] at hpf
      cases hpf
    · rw [startIndex_of_outside h]
      rfl

/-- Settles O34: each loop advances its indices by `NB` for each sample, and two advances return to the same slot
(`iirSlot_mul_nb`). -/
theorem iirStoredIndexAlternates : Obligations.IirStoredIndexAlternates := by
  intro s ch len x hc ho hx hd hff hfb bad next
  have hnext : ∀ b, (iirNextIndex s.config.nb x.length b : Int) = next b := by
    intro b
    simp only [next, iirNextIndex, hx]
    split <;> rfl
  simp only [exec_iir1_eq_onLane, exec_iir2_eq_onLane]
  refine ⟨fun hbad => onLane_fault hc ho hx ?_, fun hbad => onLane_fault hc ho hx ?_, fun t ht => ?_, fun t ht => ?_⟩
  · rw [iir2OnLane, iir2Command_of_outside hd hbad]
    rfl
  · rw [iir1OnLane, iir1Command_of_outside hff hfb hbad]
    rfl
  · obtain ⟨_, x', y, l, hx', _, hf, rfl⟩ := onLane_eq_next.mp ht
    cases ho.symm.trans hx'
    obtain ⟨⟨y', d⟩, hcmd, hl⟩ := Exec.bind_eq_ok.mp hf
    cases hl
    simpa [← hnext] using iir2Command_index (nb_pos hc) hcmd
  · obtain ⟨_, x', y, l, hx', _, hf, rfl⟩ := onLane_eq_next.mp ht
    cases ho.symm.trans hx'
    obtain ⟨⟨y', ff, fb⟩, hcmd, hl⟩ := Exec.bind_eq_ok.mp hf
    cases hl
    simpa [← hnext] using iir1Command_index (nb_pos hc) hcmd

end Sys2Proof.Machine
end

section
/-!
PROOFS. The command word (spec/30_encoding.md part 2). A word decodes to a command exactly when it has the command's fields
(`decode_eq_ok_iff`), and a row of rule R81 is selected exactly by the words with the fields of its command
(`selectsRow_iff`); the decoder, the encoder, the table and the list of reserved words (rule R83) agree through these two.
-/

namespace Sys2Proof

open Machine

/-! ### The fields of a word -/

theorem field_lt (w : Word) (lo n : Nat) : field w lo n < 2 ^ n := Nat.mod_lt _ (Nat.two_pow_pos n)

theorem stField_lt (w : Word) : stField w < 2 := field_lt w 25 1

theorem chField_lt (w : Word) : chField w < 2 := field_lt w 24 1

/-- The fields of rule R80, with the two fields marked zero, are all the bits of a word. -/
theorem word_ext_iff {w v : Word} :
    w = v ↔ opField w = opField v ∧ stField w = stField v ∧ chField w = chField v ∧ lenField w = lenField v ∧
      field w 26 2 = field v 26 2 ∧ field w 16 8 = field v 16 8 := by
  constructor
  · rintro rfl
    simp
  · intro h
    simp only [opField, stField, chField, lenField, field] at h
    apply BitVec.eq_of_toNat_eq
    have hw := w.isLt
    have hv := v.isLt
    omega

theorem zerosClear_iff {w : Word} : zerosClear w = true ↔ field w 26 2 = 0 ∧ field w 16 8 = 0 := by
  simp [zerosClear]

/-! ### The fields of a command -/

theorem stageCode_lt (st : Stage) : st.code < 2 := by cases st <;> decide

theorem chanCode_lt (ch : Chan) : ch.code < 2 := by cases ch <;> decide

@[simp] theorem stageOf_code (st : Stage) : stageOf st.code = st := by cases st <;> rfl

@[simp] theorem chanOf_code (ch : Chan) : chanOf ch.code = ch := by cases ch <;> rfl

theorem code_stageOf {n : Nat} (h : n < 2) : (stageOf n).code = n := by
  interval_cases n <;> rfl

theorem code_chanOf {n : Nat} (h : n < 2) : (chanOf n).code = n := by
  interval_cases n <;> rfl

/-- Field `op` of a command's row (rule R81). -/
def Instr.opCode : Instr → Nat
  | .nop => 0
  | .cic _ => 1
  | .fir _ _ _ => 2
  | .iir1 _ _ => 3
  | .iir2 _ _ => 4
  | .gain _ => 5
  | .frame _ => 6
  | .reset => 7

/-- Field `st` of a command: 0 outside `FIR` (rule R83). -/
def Instr.stCode : Instr → Nat
  | .fir st _ _ => st.code
  | _ => 0

/-- Field `ch` of a command: 0 outside `FIR`, `IIR1` and `IIR2` (rule R83). -/
def Instr.chCode : Instr → Nat
  | .fir _ ch _ => ch.code
  | .iir1 ch _ => ch.code
  | .iir2 ch _ => ch.code
  | _ => 0

/-- Field `len` of a command: 0 in `NOP` and `RESET` (rule R83). -/
def Instr.count : Instr → Nat
  | .nop => 0
  | .cic len => len
  | .fir _ _ len => len
  | .iir1 _ len => len
  | .iir2 _ len => len
  | .gain len => len
  | .frame len => len
  | .reset => 0

theorem encode_eq_packFields (i : Instr) : encode i = packFields i.opCode i.stCode i.chCode i.count := by
  cases i <;> rfl

theorem wellFormed_iff (i : Instr) : i.wellFormed = true ↔ i.count < 65536 := by
  cases i <;> simp [Instr.wellFormed, Instr.count, lenFits]

theorem opCode_lt (i : Instr) : i.opCode < 8 := by cases i <;> simp [Instr.opCode]

theorem stCode_lt (i : Instr) : i.stCode < 2 := by
  cases i with
  | fir st _ _ => exact stageCode_lt st
  | _ => exact Nat.two_pos

theorem chCode_lt (i : Instr) : i.chCode < 2 := by
  cases i with
  | fir _ ch _ => exact chanCode_lt ch
  | iir1 ch _ => exact chanCode_lt ch
  | iir2 ch _ => exact chanCode_lt ch
  | _ => exact Nat.two_pos

/-- The word has the fields of the command, and its zero fields are 0. -/
structure HasFields (w : Word) (i : Instr) : Prop where
  zeros : zerosClear w = true
  op : opField w = i.opCode
  st : stField w = i.stCode
  ch : chField w = i.chCode
  len : lenField w = i.count

/-- Two words with the fields of one command are one word. -/
theorem HasFields.word_unique {w v : Word} {i : Instr} (hw : HasFields w i) (hv : HasFields v i) : w = v := by
  obtain ⟨hw1, hw2⟩ := zerosClear_iff.mp hw.zeros
  obtain ⟨hv1, hv2⟩ := zerosClear_iff.mp hv.zeros
  exact word_ext_iff.mpr ⟨hw.op.trans hv.op.symm, hw.st.trans hv.st.symm, hw.ch.trans hv.ch.symm,
    hw.len.trans hv.len.symm, hw1.trans hv1.symm, hw2.trans hv2.symm⟩

/-- The word put together from fields in range has those fields (rule R80). -/
theorem fields_packFields {op st ch len : Nat} (hop : op < 16) (hst : st < 2) (hch : ch < 2) (hlen : len < 65536) :
    zerosClear (packFields op st ch len) = true ∧ opField (packFields op st ch len) = op ∧
      stField (packFields op st ch len) = st ∧ chField (packFields op st ch len) = ch ∧
      lenField (packFields op st ch len) = len := by
  simp only [zerosClear_iff, opField, stField, chField, lenField, field, packFields, BitVec.toNat_ofNat]
  omega

/-- The encoded word of a well-formed command has the command's fields. -/
theorem hasFields_encode {i : Instr} (h : i.wellFormed = true) : HasFields (encode i) i := by
  obtain ⟨hz, hop, hst, hch, hlen⟩ := fields_packFields (Nat.lt_trans (opCode_lt i) (by decide)) (stCode_lt i)
    (chCode_lt i) ((wellFormed_iff i).mp h)
  rw [encode_eq_packFields]
  exact ⟨hz, hop, hst, hch, hlen⟩

theorem HasFields.wellFormed {w : Word} {i : Instr} (h : HasFields w i) : i.wellFormed = true :=
  (wellFormed_iff i).mpr (h.len ▸ field_lt w 0 16)

/-! ### The decoder -/

theorem decodePlain_eq_ok {w : Word} {i j : Instr} :
    decodePlain w i = .ok j ↔ stField w = 0 ∧ chField w = 0 ∧ j = i := by
  unfold decodePlain
  split_ifs with hst hch
  · simp [hst]
  · simp [hch]
  · simp_all [eq_comm]

theorem decodeBare_eq_ok {w : Word} {i j : Instr} :
    decodeBare w i = .ok j ↔ stField w = 0 ∧ chField w = 0 ∧ lenField w = 0 ∧ j = i := by
  unfold decodeBare
  split_ifs with hlen
  · simp [hlen]
  · rw [decodePlain_eq_ok]
    simp_all

theorem decodeLaned_eq_ok {w : Word} {i j : Instr} : decodeLaned w i = .ok j ↔ stField w = 0 ∧ j = i := by
  unfold decodeLaned
  split_ifs with hst
  · simp [hst]
  · simp_all [eq_comm]

/-- What the decoder reads is the word's fields. -/
theorem hasFields_of_decode {w : Word} {i : Instr} (h : decode w = .ok i) : HasFields w i := by
  unfold decode at h
  split at h
  next hz =>
    have hstage := (code_stageOf (stField_lt w)).symm
    have hchan := (code_chanOf (chField_lt w)).symm
    split at h
    next hop =>
      obtain ⟨hst, hch, hlen, rfl⟩ := decodeBare_eq_ok.mp h
      exact ⟨hz, hop, hst, hch, hlen⟩
    next hop =>
      obtain ⟨hst, hch, rfl⟩ := decodePlain_eq_ok.mp h
      exact ⟨hz, hop, hst, hch, rfl⟩
    next hop =>
      cases h
      exact ⟨hz, hop, hstage, hchan, rfl⟩
    next hop =>
      obtain ⟨hst, rfl⟩ := decodeLaned_eq_ok.mp h
      exact ⟨hz, hop, hst, hchan, rfl⟩
    next hop =>
      obtain ⟨hst, rfl⟩ := decodeLaned_eq_ok.mp h
      exact ⟨hz, hop, hst, hchan, rfl⟩
    next hop =>
      obtain ⟨hst, hch, rfl⟩ := decodePlain_eq_ok.mp h
      exact ⟨hz, hop, hst, hch, rfl⟩
    next hop =>
      obtain ⟨hst, hch, rfl⟩ := decodePlain_eq_ok.mp h
      exact ⟨hz, hop, hst, hch, rfl⟩
    next hop =>
      obtain ⟨hst, hch, hlen, rfl⟩ := decodeBare_eq_ok.mp h
      exact ⟨hz, hop, hst, hch, hlen⟩
    next => cases h
  next => split at h <;> cases h

/-- A word with a command's fields is read as that command. -/
theorem decode_of_hasFields {w : Word} {i : Instr} (h : HasFields w i) : decode w = .ok i := by
  obtain ⟨hz, hop, hst, hch, hlen⟩ := h
  rw [decode, if_pos hz, hop]
  cases i with
  | nop => exact decodeBare_eq_ok.mpr ⟨hst, hch, hlen, rfl⟩
  | cic len => exact decodePlain_eq_ok.mpr ⟨hst, hch, congrArg _ hlen.symm⟩
  | fir st ch len => simp [Instr.opCode, hst, hch, hlen, Instr.stCode, Instr.chCode, Instr.count]
  | iir1 ch len => exact decodeLaned_eq_ok.mpr ⟨hst, by simp [hch, hlen, Instr.chCode, Instr.count]⟩
  | iir2 ch len => exact decodeLaned_eq_ok.mpr ⟨hst, by simp [hch, hlen, Instr.chCode, Instr.count]⟩
  | gain len => exact decodePlain_eq_ok.mpr ⟨hst, hch, congrArg _ hlen.symm⟩
  | frame len => exact decodePlain_eq_ok.mpr ⟨hst, hch, congrArg _ hlen.symm⟩
  | reset => exact decodeBare_eq_ok.mpr ⟨hst, hch, hlen, rfl⟩

theorem decode_eq_ok_iff {w : Word} {i : Instr} : decode w = .ok i ↔ HasFields w i :=
  ⟨hasFields_of_decode, decode_of_hasFields⟩

/-- Settles O1: the encoded word has the command's fields, and the decoder reads the fields. -/
theorem encodeThenDecode : Obligations.EncodeThenDecode := fun _ h => decode_eq_ok_iff.mpr (hasFields_encode h)

/-- Settles O2: the word and the encoding of its command have the same fields, and the fields are all the bits. -/
theorem decodeThenEncode : Obligations.DecodeThenEncode := fun _ _ h =>
  have hf := decode_eq_ok_iff.mp h
  ⟨hf.wellFormed, (hasFields_encode hf.wellFormed).word_unique hf⟩

/-! ### Rows (rule R81) -/

theorem field_and (w m : Word) (lo n : Nat) : field (w &&& m) lo n = field w lo n &&& field m lo n := by
  rw [field, BitVec.toNat_and, Nat.and_div_two_pow, Nat.and_mod_two_pow]
  rfl

/-- A field the mask covers is kept. -/
theorem field_and_of_ones {m : Word} {lo n : Nat} (h : field m lo n = 2 ^ n - 1) (w : Word) :
    field (w &&& m) lo n = field w lo n := by
  rw [field_and, h, Nat.and_two_pow_sub_one_of_lt_two_pow (field_lt w lo n)]

/-- A field the mask leaves out is cleared. -/
theorem field_and_of_zero {m : Word} {lo n : Nat} (h : field m lo n = 0) (w : Word) : field (w &&& m) lo n = 0 := by
  rw [field_and, h, Nat.and_zero]

/-- A field the mask covers is 0 in the masked word when it is 0 in the word. -/
theorem field_and_eq_zero_of_ones {m : Word} {lo n : Nat} (h : field m lo n = 2 ^ n - 1) (w : Word) :
    field (w &&& m) lo n = 0 ↔ field w lo n = 0 := by
  rw [field_and_of_ones h]

/-- Every row's mask covers `op` and the fields marked zero (rule R81). -/
theorem fields_and_rowMask (w : Word) (i : Instr) :
    opField (w &&& rowMask i) = opField w ∧ field (w &&& rowMask i) 26 2 = field w 26 2 ∧
      field (w &&& rowMask i) 16 8 = field w 16 8 := by
  have hmask : field (rowMask i) 28 4 = 2 ^ 4 - 1 ∧ field (rowMask i) 26 2 = 2 ^ 2 - 1 ∧
      field (rowMask i) 16 8 = 2 ^ 8 - 1 := by
    cases i <;> simp [rowMask, field]
  obtain ⟨hop, hhi, hlo⟩ := hmask
  exact ⟨field_and_of_ones hop w, field_and_of_ones hhi w, field_and_of_ones hlo w⟩

/-- Every row's match holds the row's `op` and is 0 elsewhere (rule R81). -/
theorem fields_rowMatch (i : Instr) :
    opField (rowMatch i) = i.opCode ∧ stField (rowMatch i) = 0 ∧ chField (rowMatch i) = 0 ∧ lenField (rowMatch i) = 0 ∧
      field (rowMatch i) 26 2 = 0 ∧ field (rowMatch i) 16 8 = 0 := by
  cases i <;> simp [rowMatch, opField, stField, chField, lenField, field, Instr.opCode]

/-- The mask leaves out `st` in the one row that has it as an operand. -/
theorem stField_and_rowMask (w : Word) (i : Instr) :
    stField (w &&& rowMask i) = 0 ↔ stField w = (withWordFields w i).stCode := by
  cases i with
  | fir => exact iff_of_true (field_and_of_zero (by simp [rowMask, field]) w) (code_stageOf (stField_lt w)).symm
  | _ => exact field_and_eq_zero_of_ones (by simp [rowMask, field]) w

/-- The mask leaves out `ch` in the three rows that have it as an operand. -/
theorem chField_and_rowMask (w : Word) (i : Instr) :
    chField (w &&& rowMask i) = 0 ↔ chField w = (withWordFields w i).chCode := by
  cases i with
  | fir | iir1 | iir2 =>
    exact iff_of_true (field_and_of_zero (by simp [rowMask, field]) w) (code_chanOf (chField_lt w)).symm
  | _ => exact field_and_eq_zero_of_ones (by simp [rowMask, field]) w

/-- The mask covers `len` in the two rows that have no operand. -/
theorem lenField_and_rowMask (w : Word) (i : Instr) :
    lenField (w &&& rowMask i) = 0 ↔ lenField w = (withWordFields w i).count := by
  cases i with
  | nop | reset => exact field_and_eq_zero_of_ones (by simp [rowMask, field]) w
  | _ => exact iff_of_true (field_and_of_zero (by simp [rowMask, field]) w) rfl

@[simp] theorem opCode_withWordFields (w : Word) (i : Instr) : (withWordFields w i).opCode = i.opCode := by
  cases i <;> rfl

/-- A row is selected exactly by the words with the fields of its command, the operands read from the word (rule R81). -/
theorem selectsRow_iff {w : Word} {i : Instr} : selectsRow w i = true ↔ HasFields w (withWordFields w i) := by
  obtain ⟨hop, hhi, hlo⟩ := fields_and_rowMask w i
  obtain ⟨mop, mst, mch, mlen, mhi, mlo⟩ := fields_rowMatch i
  rw [selectsRow, beq_iff_eq, word_ext_iff, hop, hhi, hlo, mop, mst, mch, mlen, mhi, mlo, stField_and_rowMask,
    chField_and_rowMask, lenField_and_rowMask, ← zerosClear_iff, ← opCode_withWordFields w i]
  constructor
  · rintro ⟨hop, hst, hch, hlen, hz⟩
    exact ⟨hz, hop, hst, hch, hlen⟩
  · rintro ⟨hz, hop, hst, hch, hlen⟩
    exact ⟨hop, hst, hch, hlen, hz⟩

/-- The operands of a command are those read from any word with its fields. -/
theorem HasFields.withWordFields_eq {w : Word} {i : Instr} (h : HasFields w i) : withWordFields w i = i := by
  obtain ⟨-, -, hst, hch, hlen⟩ := h
  cases i <;> simp [withWordFields, hst, hch, hlen, Instr.stCode, Instr.chCode, Instr.count]

/-- Every command stands in one of the rows. -/
theorem exists_row (i : Instr) : ∃ r ∈ rows, ∀ w, withWordFields w r = withWordFields w i := by
  cases i <;> simp [rows, withWordFields]

theorem rows_eq_of_opCode : ∀ r ∈ rows, ∀ r' ∈ rows, r.opCode = r'.opCode → r = r' := by decide

/-- A selected row's command is what the word decodes to. -/
theorem decode_of_selectsRow {w : Word} {r : Instr} (h : selectsRow w r = true) : decode w = .ok (withWordFields w r) :=
  decode_eq_ok_iff.mpr (selectsRow_iff.mp h)

/-- A word that decodes selects a row, and decodes to its command. -/
theorem selectsRow_of_decode {w : Word} {i : Instr} (h : decode w = .ok i) :
    ∃ r ∈ rows, selectsRow w r = true ∧ i = withWordFields w r := by
  have hf := decode_eq_ok_iff.mp h
  obtain ⟨r, hr, hrow⟩ := exists_row i
  have hi : withWordFields w r = i := (hrow w).trans hf.withWordFields_eq
  exact ⟨r, hr, selectsRow_iff.mpr (hi.symm ▸ hf), hi.symm⟩

/-- Settles O3: selecting a row is having the fields of its command (`selectsRow_iff`), and the rows differ in `op`. -/
theorem wordDecodesByItsRow : Obligations.WordDecodesByItsRow :=
  ⟨fun _ _ _ => decode_of_selectsRow, fun _ _ => selectsRow_of_decode, fun w r1 hr1 r2 hr2 h1 h2 =>
    rows_eq_of_opCode r1 hr1 r2 hr2 <| by
      rw [← opCode_withWordFields w r1, ← (selectsRow_iff.mp h1).op, ← opCode_withWordFields w r2,
        ← (selectsRow_iff.mp h2).op]⟩

/-! ### Reserved words (rule R83) -/

/-- A word is reserved exactly when the decoder rejects it. -/
theorem isReserved_iff {w : Word} : IsReserved w ↔ ∃ why, decode w = .error why := by
  constructor
  · intro h
    cases hd : decode w with
    | error why => exact ⟨why, rfl⟩
    | ok i =>
      obtain ⟨r, hr, hsel, -⟩ := selectsRow_of_decode hd
      simp [h r hr] at hsel
  · rintro ⟨why, hd⟩ r -
    by_contra hsel
    rw [Bool.not_eq_false] at hsel
    simp [decode_of_selectsRow hsel] at hd

/-- The row's command allows the word's `st` (rule R83). -/
theorem stField_eq_stCode_iff (w : Word) (i : Instr) :
    stField w = (withWordFields w i).stCode ↔ (stField w = 1 → i.opCode = 2) := by
  cases i with
  | fir => exact iff_of_true (code_stageOf (stField_lt w)).symm fun _ => rfl
  | _ =>
    have hst := stField_lt w
    simp only [withWordFields, Instr.stCode, Instr.opCode]
    omega

/-- The row's command allows the word's `ch` (rule R83). -/
theorem chField_eq_chCode_iff (w : Word) (i : Instr) :
    chField w = (withWordFields w i).chCode ↔ (chField w = 1 → i.opCode ∈ [2, 3, 4]) := by
  cases i with
  | fir | iir1 | iir2 => exact iff_of_true (code_chanOf (chField_lt w)).symm fun _ => by simp [Instr.opCode]
  | _ =>
    have hch := chField_lt w
    simp only [withWordFields, Instr.chCode, Instr.opCode, List.mem_cons, List.not_mem_nil, or_false]
    omega

/-- The row's command allows the word's `len` (rule R83). -/
theorem lenField_eq_count_iff (w : Word) (i : Instr) :
    lenField w = (withWordFields w i).count ↔ (lenField w ≠ 0 → i.opCode ∉ [0, 7]) := by
  cases i <;> simp [withWordFields, Instr.count, Instr.opCode]

/-- A row is selected by its `op`, and otherwise by conditions on the word alone (rule R83). -/
theorem selectsRow_iff_fields {w : Word} {i : Instr} : selectsRow w i = true ↔
    opField w = i.opCode ∧ zerosClear w = true ∧ (stField w = 1 → opField w = 2) ∧
      (chField w = 1 → opField w ∈ [2, 3, 4]) ∧ (lenField w ≠ 0 → opField w ∉ [0, 7]) := by
  rw [selectsRow_iff]
  constructor
  · rintro ⟨hz, hop, hst, hch, hlen⟩
    rw [opCode_withWordFields] at hop
    rw [hop]
    exact ⟨rfl, hz, (stField_eq_stCode_iff w i).mp hst, (chField_eq_chCode_iff w i).mp hch,
      (lenField_eq_count_iff w i).mp hlen⟩
  · rintro ⟨hop, hz, hst, hch, hlen⟩
    rw [hop] at hst hch hlen
    exact ⟨hz, hop.trans (opCode_withWordFields w i).symm, (stField_eq_stCode_iff w i).mpr hst,
      (chField_eq_chCode_iff w i).mpr hch, (lenField_eq_count_iff w i).mpr hlen⟩

theorem exists_row_of_opCode : ∀ n < 8, ∃ r ∈ rows, n = r.opCode := by decide

/-- A word is reserved when its `op` has no row, or it fails a condition every row has. -/
theorem isReserved_iff_fields (w : Word) : IsReserved w ↔
    8 ≤ opField w ∨ zerosClear w = false ∨ (stField w = 1 ∧ opField w ≠ 2) ∨
      (chField w = 1 ∧ opField w ∉ [2, 3, 4]) ∨ (lenField w ≠ 0 ∧ opField w ∈ [0, 7]) := by
  have hrow : (∃ r ∈ rows, opField w = r.opCode) ↔ opField w < 8 :=
    ⟨fun ⟨r, _, hop⟩ => hop ▸ opCode_lt r, exists_row_of_opCode _⟩
  calc IsReserved w
    _ ↔ ¬∃ r ∈ rows, selectsRow w r = true := by simp only [IsReserved, not_exists, not_and, Bool.not_eq_true]
    _ ↔ ¬(opField w < 8 ∧ zerosClear w = true ∧ (stField w = 1 → opField w = 2) ∧
        (chField w = 1 → opField w ∈ [2, 3, 4]) ∧ (lenField w ≠ 0 → opField w ∉ [0, 7])) := by
      simp only [selectsRow_iff_fields, ← hrow, ← and_assoc, exists_and_right]
    _ ↔ _ := by simp only [not_and_or, Classical.not_imp, Nat.not_lt, Bool.not_eq_true, not_not, ne_eq]

/-- A step on a word the decoder rejects is refused for its reason. -/
theorem step_of_reserved {s : State} {w : Word} {data : Operands} {rest : List Command} {why : Reserved}
    (hc : configWellFormed s.config = true) (hp : s.pending = { word := w, data := data } :: rest)
    (hd : decode w = .error why) : step s = .refused (.reserved why) := by
  simp only [step, fetch, checkConfig_of_wellFormed hc, Exec.ok_bind, hp, hd]
  rfl

/-- Settles O4: the rows' conditions field by field (`isReserved_iff_fields`), the refusal of `fetch`, and that a command's
fields are all the bits of its word. -/
theorem reservedWordsAreRefused : Obligations.ReservedWordsAreRefused := by
  refine ⟨isReserved_iff_fields, fun s w data rest hw hc hp => ?_, fun w v i hw hv => ?_⟩
  · obtain ⟨why, hd⟩ := isReserved_iff.mp hw
    exact ⟨why, step_of_reserved hc hp hd⟩
  · exact (decode_eq_ok_iff.mp hw).word_unique (decode_eq_ok_iff.mp hv)

end Sys2Proof
end

section
/-!
PROOFS. What every command takes, returns and writes (rule R82), and the commands with an odd count (rule R84).
-/

namespace Sys2Proof.Machine

/-! ### Odd counts -/

/-- The odd count is checked first (rule R235). -/
theorem firCommand_of_odd {x : List Sample} (hx : x.length % 2 = 1) (nc : Nat) (h : List Int) (dl : Buffer) :
    firCommand nc h x dl = .error (.fault .oddLen) := by
  rw [firCommand, if_pos hx]
  rfl

theorem exec_fir_of_odd {st : Stage} {ch : Chan} {len : Nat} {s : State} {x : List Sample} (hodd : len % 2 = 1)
    (hc : configWellFormed s.config = true) (ho : s.operands = .samples x) (hx : x.length = len) :
    exec (.fir st ch len) s = .fault .oddLen := by
  rw [exec_fir_eq_onLane]
  refine onLane_fault hc ho hx ?_
  rw [firOnLane, firCommand_of_odd (hx ▸ hodd)]
  rfl

theorem exec_frame_of_odd {len : Nat} {s : State} {inL inR : List Pdm} (hodd : len % 2 = 1)
    (hc : configWellFormed s.config = true) (ho : s.operands = .pdm inL inR) (hL : inL.length = len)
    (hR : inR.length = len) : exec (.frame len) s = .fault .oddLen := by
  have htake : takePdm len s = .ok (inL, inR) := takePdm_eq_ok.mpr ⟨hc, ho, hL, hR⟩
  simp only [exec, execFrame, htake, Exec.ok_bind, if_pos hodd]
  rfl

/-- Settles O6: the words decode as every well-formed command's do, and the odd count is checked before the buffers. -/
theorem oddCountsDecodeAndFault : Obligations.OddCountsDecodeAndFault := fun _ _ _ hlen hodd =>
  ⟨encodeThenDecode _ ((wellFormed_iff _).mpr hlen), encodeThenDecode _ ((wellFormed_iff _).mpr hlen), fun _ hc =>
    ⟨fun _ ho hx => exec_fir_of_odd hodd hc ho hx, fun _ _ ho hL hR => exec_frame_of_odd hodd hc ho hL hR⟩⟩

/-! ### Buffers a lane's computation writes -/

theorem sameBut_refl (w : Touches) (l : Lane) : SameBut w l l :=
  ⟨fun _ => rfl, fun _ => rfl, fun _ => rfl, fun _ => rfl, fun _ => rfl, fun _ => rfl⟩

section Lane
variable {c : Config} {l l' : Lane} {x y : List Sample}

theorem firOnLane_returns {st : Stage} (h : firOnLane st c l x = .ok (y, l')) :
    x.length % 2 = 0 ∧ y.length = x.length / 2 ∧ SameBut { fir1 := st = .one, fir2 := st = .two } l l' := by
  obtain ⟨⟨y, dl⟩, hcmd, h⟩ := Exec.bind_eq_ok.mp h
  cases h
  refine ⟨(firCommand_eq_ok.mp hcmd).1, (firCommand_shape hcmd).1, ?_⟩
  cases st <;> simp [SameBut]

theorem iir1OnLane_returns (hc : configWellFormed c = true) (h : iir1OnLane c l x = .ok (y, l')) :
    y.length = x.length ∧ SameBut { ff := true, fb := true } l l' := by
  obtain ⟨⟨y, ff, fb⟩, hcmd, h⟩ := Exec.bind_eq_ok.mp h
  cases h
  exact ⟨(iir1Command_shape (nb_pos hc) hcmd).1, by simp [SameBut]⟩

theorem iir2OnLane_returns (hc : configWellFormed c = true) (h : iir2OnLane c l x = .ok (y, l')) :
    y.length = x.length ∧ SameBut { d := true } l l' := by
  obtain ⟨⟨y, d⟩, hcmd, h⟩ := Exec.bind_eq_ok.mp h
  cases h
  exact ⟨(iir2Command_shape (nb_pos hc) hcmd).1, by simp [SameBut]⟩

theorem chainIir_returns (hc : configWellFormed c = true) (h : chainIir c x l = .ok (y, l')) :
    y.length = x.length ∧
      SameBut { d := c.iirMode = .df2, ff := c.iirMode = .df1, fb := c.iirMode = .df1 } l l' := by
  obtain ⟨hm, heq⟩ | ⟨hm, ff, fb, hcmd, rfl⟩ | ⟨hm, d, hcmd, rfl⟩ := chainIir_eq_ok.mp h
  · cases heq
    exact ⟨rfl, sameBut_refl _ l⟩
  · exact ⟨(iir1Command_shape (nb_pos hc) hcmd).1, by simp [SameBut, hm]⟩
  · exact ⟨(iir2Command_shape (nb_pos hc) hcmd).1, by simp [SameBut, hm]⟩

/-- One lane of `FRAME` after the CIC returns a sample for every four it takes (rule R211), and keeps the CIC cells. -/
theorem chainLane_returns (hc : configWellFormed c = true) {pcm : List Pcm} (h : chainLane c x l = .ok (pcm, l')) :
    pcm.length = x.length / 2 / 2 ∧ SameBut
      { fir1 := true, fir2 := true, d := c.iirMode = .df2, ff := c.iirMode = .df1, fb := c.iirMode = .df1 } l l' := by
  obtain ⟨f1, b1, f2, b2, g, h1, h2, h3, h4⟩ := chainLane_eq_ok.mp h
  obtain ⟨hg, hcic, -, -, hiir⟩ := chainIir_returns hc h3
  refine ⟨?_, hcic, nofun, nofun, hiir⟩
  calc pcm.length
    _ = f2.length := (gainCommand_length h4).trans hg
    _ = f1.length / 2 := (firCommand_shape h2).1
    _ = x.length / 2 / 2 := by rw [(firCommand_shape h1).1]

/-- One lane of `FRAME` returns half as many samples as it takes words (rule R212). -/
theorem frameLane_returns (hc : configWellFormed c = true) {ws : List Pdm} {pcm : List Pcm}
    (h : frameLane c ws l = .ok (pcm, l')) :
    pcm.length = ws.length / 2 ∧ ∀ ch len, SameBut (touched c.iirMode ch (.frame len)) l l' := by
  obtain ⟨hpcm, -, hrest⟩ := chainLane_returns hc h
  rw [cicRun_length] at hpcm
  exact ⟨by omega, fun _ _ => ⟨nofun, hrest⟩⟩

end Lane

/-! ### What a command takes, returns and writes -/

/-- A command with a lane select takes its samples, returns one sequence, and writes at most what its computation writes. -/
theorem onLane_keeps {ch : Chan} {len : Nat} {f : LaneComputation} {s t : State} {w : Touches} {fits : Nat → Nat → Prop}
    (hf : configWellFormed s.config = true → ∀ {x y l}, f s.config (s.lane ch) x = .ok (y, l) →
      fits x.length y.length ∧ SameBut w (s.lane ch) l)
    (h : onLane ch len f s = .next t) :
    (∃ x, s.operands = .samples x ∧ x.length = len) ∧ (∃ y, fits len y.length ∧ t.outputs = s.outputs ++ [.samples y]) ∧
      t.operands = .none ∧ t.config = s.config ∧ t.pending = s.pending ∧
      ∀ a, SameBut (if ch = a then w else {}) (s.lane a) (t.lane a) := by
  obtain ⟨hc, x, y, l, ho, rfl, hr, rfl⟩ := onLane_eq_next.mp h
  obtain ⟨hy, hl⟩ := hf hc hr
  refine ⟨⟨x, ho, rfl⟩, ⟨y, hy, by simp⟩, by simp, by simp, by simp, fun a => ?_⟩
  split
  next ha =>
    subst ha
    simpa using hl
  next ha =>
    rw [answer_lane, setLane_lane_of_ne s l (Ne.symm ha)]
    exact sameBut_refl _ _

/-- A command that completes had the operands of the table of rule R82, returns its outputs, and writes in each lane at most
the buffers it names. -/
theorem exec_keeps {i : Instr} {s t : State} (h : exec i s = .next t) :
    OperandsFit i s.operands ∧ (∃ o, OutputsFit i o ∧ t.outputs = s.outputs ++ o) ∧ t.operands = .none ∧
      t.config = s.config ∧ t.pending = s.pending ∧
      ∀ ch, SameBut (touched s.config.iirMode ch i) (s.lane ch) (t.lane ch) := by
  cases i with
  | nop =>
    obtain ⟨_, ho, rfl⟩ := execNop_eq_next.mp h
    exact ⟨ho, ⟨[], rfl, by simp⟩, rfl, rfl, rfl, fun ch => sameBut_refl _ _⟩
  | cic len =>
    obtain ⟨_, inL, inR, ho, hL, hR, rfl⟩ := execCic_eq_next.mp h
    refine ⟨⟨inL, inR, ho, hL, hR⟩, ⟨_, ⟨_, _, rfl, ?_, ?_⟩, rfl⟩, rfl, rfl, rfl, forall_chan.mpr ⟨?_, ?_⟩⟩
    · rw [cicRun_length, hL]
    · rw [cicRun_length, hR]
    · simp [SameBut, touched]
    · simp [SameBut, touched]
  | fir st ch len =>
    rw [exec_fir_eq_onLane] at h
    obtain ⟨hx, ⟨y, ⟨heven, hy⟩, ht⟩, hrest⟩ := onLane_keeps (fits := fun n m => n % 2 = 0 ∧ m = n / 2)
      (fun _ _ _ _ hr => and_assoc.mpr (firOnLane_returns hr)) h
    exact ⟨hx, ⟨_, ⟨heven, y, rfl, hy⟩, ht⟩, hrest⟩
  | iir1 ch len =>
    rw [exec_iir1_eq_onLane] at h
    obtain ⟨hx, ⟨y, hy, ht⟩, hrest⟩ := onLane_keeps (fits := fun n m => m = n)
      (fun hc _ _ _ hr => iir1OnLane_returns hc hr) h
    exact ⟨hx, ⟨_, ⟨y, rfl, hy⟩, ht⟩, hrest⟩
  | iir2 ch len =>
    rw [exec_iir2_eq_onLane] at h
    obtain ⟨hx, ⟨y, hy, ht⟩, hrest⟩ := onLane_keeps (fits := fun n m => m = n)
      (fun hc _ _ _ hr => iir2OnLane_returns hc hr) h
    exact ⟨hx, ⟨_, ⟨y, rfl, hy⟩, ht⟩, hrest⟩
  | gain len =>
    obtain ⟨_, x, y, ho, hx, hy, rfl⟩ := execGain_eq_next.mp h
    refine ⟨⟨x, ho, hx⟩, ⟨_, ⟨y, rfl, (gainCommand_length hy).trans hx⟩, rfl⟩, rfl, rfl, rfl, fun ch => ?_⟩
    rw [answer_lane]
    exact sameBut_refl _ _
  | frame len =>
    obtain ⟨hc, heven, inL, inR, pcmL, left, pcmR, right, ho, hL, hR, hleft, hright, rfl⟩ := execFrame_eq_next.mp h
    obtain ⟨hpL, hsL⟩ := frameLane_returns hc hleft
    obtain ⟨hpR, hsR⟩ := frameLane_returns hc hright
    exact ⟨⟨inL, inR, ho, hL, hR⟩, ⟨_, ⟨heven, pcmL, pcmR, rfl, hL ▸ hpL, hR ▸ hpR⟩, rfl⟩, rfl, rfl, rfl,
      forall_chan.mpr ⟨hsL _ _, hsR _ _⟩⟩
  | reset =>
    obtain ⟨_, ho, rfl⟩ := execReset_eq_next.mp h
    refine ⟨ho, ⟨[], rfl, by simp⟩, rfl, rfl, rfl, fun ch => ?_⟩
    simp [SameBut, touched]

/-- Settles O47: `exec_keeps` for each command, lane by lane; the lanes `RESET` leaves are the reset lanes. -/
theorem commandsKeepToTheirOperandsOutputsAndState : Obligations.CommandsKeepToTheirOperandsOutputsAndState := by
  intro i s t h
  obtain ⟨hoperands, houtputs, hnone, hconfig, hpending, hsame⟩ := exec_keeps h
  refine ⟨hoperands, houtputs, hnone, hconfig, hpending, hsame .L, hsame .R, ?_⟩
  rintro rfl
  obtain ⟨-, -, rfl⟩ := execReset_eq_next.mp h
  exact ⟨rfl, rfl⟩

end Sys2Proof.Machine
end

section
/-!
PROOFS. Section tables (rule R77): both forms are one reading of a table, five cells after five, each with its own order of the
cells.
-/

namespace Sys2Proof.Machine

/-- A table read as sections by a form's order of its five cells (rule R77). -/
def sectionsOfTable (f : BitVec 16 → BitVec 16 → BitVec 16 → BitVec 16 → BitVec 16 → Biquad) :
    List (BitVec 16) → Option (List Biquad)
  | [] => some []
  | c0 :: c1 :: c2 :: c3 :: c4 :: t => (sectionsOfTable f t).map (f c0 c1 c2 c3 c4 :: ·)
  | _ => none

/-- The section of five cells in the order of Direct Form II (rule R77). -/
def biquadOfDf2Cells (a1 a2 b2 b0 b1 : BitVec 16) : Biquad :=
  { b0 := b0.toInt, b1 := b1.toInt, b2 := b2.toInt, a1 := a1.toInt, a2 := a2.toInt }

/-- The section of five cells in the order of Direct Form I (rule R77). -/
def biquadOfDf1Cells (b0 b1 b2 a1 a2 : BitVec 16) : Biquad :=
  { b0 := b0.toInt, b1 := b1.toInt, b2 := b2.toInt, a1 := a1.toInt, a2 := a2.toInt }

theorem sectionsOfDf2Table_eq (t : List (BitVec 16)) : sectionsOfDf2Table t = sectionsOfTable biquadOfDf2Cells t := by
  fun_induction sectionsOfDf2Table t with
  | case1 => rfl
  | case2 a1 a2 b2 b0 b1 t ih => rw [sectionsOfTable, ← ih]; rfl
  | case3 t hnil hcons => rw [sectionsOfTable] <;> assumption

theorem sectionsOfDf1Table_eq (t : List (BitVec 16)) : sectionsOfDf1Table t = sectionsOfTable biquadOfDf1Cells t := by
  fun_induction sectionsOfDf1Table t with
  | case1 => rfl
  | case2 b0 b1 b2 a1 a2 t ih => rw [sectionsOfTable, ← ih]; rfl
  | case3 t hnil hcons => rw [sectionsOfTable] <;> assumption

section SectionsOfTable
variable {f : BitVec 16 → BitVec 16 → BitVec 16 → BitVec 16 → BitVec 16 → Biquad}

/-- A table that reads as sections holds five cells for each, section `i` from cell `5*i` on. -/
theorem sectionsOfTable_cells {t : List (BitVec 16)} {cs : List Biquad} (h : sectionsOfTable f t = some cs) :
    t.length = 5 * cs.length ∧ ∀ i, i < cs.length →
      cs.getD i default = f (t.getD (5 * i) 0) (t.getD (5 * i + 1) 0) (t.getD (5 * i + 2) 0) (t.getD (5 * i + 3) 0)
        (t.getD (5 * i + 4) 0) := by
  fun_induction sectionsOfTable f t generalizing cs with
  | case1 =>
    cases h
    exact ⟨rfl, nofun⟩
  | case2 c0 c1 c2 c3 c4 t ih =>
    obtain ⟨cs, hcs, rfl⟩ := Option.map_eq_some_iff.mp h
    obtain ⟨hlen, hcells⟩ := ih hcs
    refine ⟨by simp only [List.length_cons]; omega, fun i hi => ?_⟩
    cases i with
    | zero => rfl
    | succ i => exact hcells i (Nat.lt_of_succ_lt_succ hi)
  | case3 => cases h

/-- A table whose length is a multiple of five reads as sections. -/
theorem sectionsOfTable_isSome {t : List (BitVec 16)} (h : t.length % 5 = 0) : (sectionsOfTable f t).isSome := by
  fun_induction sectionsOfTable f t with
  | case1 => rfl
  | case2 c0 c1 c2 c3 c4 t ih =>
    rw [Option.isSome_map]
    exact ih (by simp only [List.length_cons] at h; omega)
  | case3 t hnil hcons =>
    match t with
    | [] => exact (hnil rfl).elim
    | [_] | [_, _] | [_, _, _] | [_, _, _, _] => simp at h
    | c0 :: c1 :: c2 :: c3 :: c4 :: t => exact (hcons c0 c1 c2 c3 c4 t rfl).elim

end SectionsOfTable

/-- Settles O55: both forms read five cells after five (`sectionsOfTable_cells`), each in its own order. -/
theorem sectionTablesHoldFiveCellsEach : Obligations.SectionTablesHoldFiveCellsEach := by
  refine ⟨fun t cs h => ?_, fun t cs h => ?_, fun t h => ?_⟩
  · rw [sectionsOfDf2Table_eq] at h
    obtain ⟨hlen, hcells⟩ := sectionsOfTable_cells h
    exact ⟨hlen, fun i hi => by simp only [hcells i hi, biquadOfDf2Cells, and_self]⟩
  · rw [sectionsOfDf1Table_eq] at h
    obtain ⟨hlen, hcells⟩ := sectionsOfTable_cells h
    exact ⟨hlen, fun i hi => by simp only [hcells i hi, biquadOfDf1Cells, and_self]⟩
  · rw [sectionsOfDf2Table_eq, sectionsOfDf1Table_eq]
    exact ⟨sectionsOfTable_isSome h, sectionsOfTable_isSome h⟩

end Sys2Proof.Machine
end

section
/-!
PROOFS. The micro-operations of the CIC (rules R101 to R103) and the command `CIC` (rules R104, R105): where it has its operands
it completes in one state, `State.afterCic`.
-/

namespace Sys2Proof.Machine

/-! ### The micro-operations -/

/-- Settles O14: the first integrator is `toInt_wrap32`, the others are cell sums (`add_eq_wrap32`). -/
theorem cicPushIntegratesInCascade : Obligations.CicPushIntegratesInCascade := by
  have hsum : ∀ a b : Cell, (a + b).toInt = wrapInt (a.toInt + b.toInt) := fun a b => by
    rw [add_eq_wrap32, toInt_wrap32]
  refine ⟨fun c b => ⟨toInt_wrap32 _, hsum _ _, hsum _ _, hsum _ _, rfl, rfl, rfl, rfl⟩, fun c hmax => ?_,
    by decide, by decide, by decide⟩
  rw [show (cicPush c true).acc0.toInt = wrapInt (c.acc0.toInt + 1) from toInt_wrap32 _, hmax]
  rfl

/-- Settles O15: every difference is a difference of cells (`sub_eq_wrap32`). -/
theorem cicCombTakesFourDifferences : Obligations.CicCombTakesFourDifferences := by
  have hdiff : ∀ a b : Cell, (a - b).toInt = wrapInt (a.toInt - b.toInt) := fun a b => by
    rw [sub_eq_wrap32, toInt_wrap32]
  refine ⟨fun c => ?_, fun c h0 h1 h2 h3 h4 => ?_⟩
  · simp only [cicComb, hdiff, and_self]
  · simp only [cicComb, h0, h1, h2, h3, h4]
    decide

@[simp] theorem halfBits_length (h : Half) : (halfBits h).length = 16 := by simp [halfBits]

theorem getElem_halfBits (h : Half) (i : Nat) (hi : i < (halfBits h).length) :
    (halfBits h)[i] = h.getLsbD (15 - i) := by
  simp [halfBits]

/-- Settles O16: the state after `i` pushes is the fold over the first `i` bits. -/
theorem cicHalfPushesSixteenBitsMsbFirst : Obligations.CicHalfPushesSixteenBitsMsbFirst := by
  refine ⟨fun c h => ⟨fun i => ((halfBits h).take i).foldl cicPush c, rfl, fun i hi => ?_, ?_⟩, by decide, by decide⟩
  · have hlen : i < (halfBits h).length := by rwa [halfBits_length]
    dsimp only
    rw [List.take_succ_eq_append_getElem hlen, List.foldl_concat, getElem_halfBits]
  · dsimp only
    rw [List.take_of_length_le (halfBits_length h).le, cicHalf]

/-! ### The command -/

/-- The state in which `CIC` completes on the words `inL` and `inR` (rule R104). -/
def State.afterCic (s : State) (inL inR : List Pdm) : State :=
  ({ s with left := { s.left with cic := (cicRun inL s.left.cic).2 },
            right := { s.right with cic := (cicRun inR s.right.cic).2 } } : State).answer
    (.cic (cicRun inL s.left.cic).1 (cicRun inR s.right.cic).1)

/-- `CIC` completes wherever it has its operands. -/
theorem exec_cic {s : State} {len : Nat} {inL inR : List Pdm} (hc : configWellFormed s.config = true)
    (ho : s.operands = .pdm inL inR) (hL : inL.length = len) (hR : inR.length = len) :
    exec (.cic len) s = .next (s.afterCic inL inR) :=
  execCic_eq_next.mpr ⟨hc, inL, inR, ho, hL, hR, rfl⟩

theorem exec_cic_zero {s : State} (hc : configWellFormed s.config = true) (ho : s.operands = .pdm [] []) :
    exec (.cic 0) s = .next (s.answer (.cic [] [])) := exec_cic hc ho rfl rfl

/-- A lane's run has rule R104's shape: word by word, its high half before its low half. -/
theorem cicLaneRuns_cicRun (ws : List Pdm) (c : Cic) : CicLaneRuns ws c (cicRun ws c).1 (cicRun ws c).2 := by
  induction ws generalizing c with
  | nil => exact ⟨rfl, fun _ => c, rfl, rfl, nofun⟩
  | cons w ws ih =>
    obtain ⟨-, before, hstart, hend, hwords⟩ := ih (cicHalf (cicHalf c (highHalf w)).2 (lowHalf w)).2
    refine ⟨cicRun_length _ c, fun i => i.casesOn c before, rfl, hend, fun i hi => ?_⟩
    cases i with
    | zero => exact ⟨(cicHalf c (highHalf w)).2, rfl, congrArg (Prod.mk _) hstart.symm⟩
    | succ i => exact hwords i (Nat.lt_of_succ_lt_succ hi)

/-- Settles O17: the command completes (`exec_cic`) with each lane run as `cicLaneRuns_cicRun` says. -/
theorem cicCommandRunsBothLanes : Obligations.CicCommandRunsBothLanes := by
  refine ⟨fun s len inL inR hc ho hL hR => ⟨_, _, _, _, exec_cic hc ho hL hR, cicLaneRuns_cicRun _ _,
    cicLaneRuns_cicRun _ _⟩, fun s => exec_cic_zero, by decide, fun s hc ho hL hR => ?_⟩
  have hones : (cicRun [0xFFFFFFFF] .zero).1 = [3876, 36856] ∧
      (cicRun [0xFFFFFFFF] .zero).2.cells = [32, 528, 5984, 52360, 52360, 48484, 44608, 40732] := by decide +kernel
  have hzeros : (cicRun [0x00000000] .zero).1 = [-3876, -36856] ∧
      (cicRun [0x00000000] .zero).2.cells = [-32, -528, -5984, -52360, -52360, -48484, -44608, -40732] := by
    decide +kernel
  refine ⟨_, exec_cic hc ho rfl rfl, ?_⟩
  simp only [State.afterCic, answer_outputs, answer_left, answer_right, hL, hR, hones, hzeros, and_self]

/-- Settles O19: all three commands complete (`exec_cic`), and the joined run is the run over the parts (`cicRun_append`). -/
theorem cicStreamsAcrossCommands : Obligations.CicStreamsAcrossCommands := by
  intro s l1 r1 l2 r2 hc h1 h2
  have hlen : (r1 ++ r2).length = l1.length + l2.length := by rw [List.length_append, h1, h2]
  refine ⟨_, _, _, _, _, _, _, exec_cic hc rfl rfl h1.symm, exec_cic hc rfl rfl h2.symm,
    exec_cic hc rfl List.length_append hlen, ?_, ?_, List.append_assoc _ _ _, ?_⟩
  · simp only [State.afterCic, answer_left, cicRun_append]
  · simp only [State.afterCic, answer_right, cicRun_append]
  · simp only [State.afterCic, answer_outputs, answer_left, answer_right, cicRun_append]

end Sys2Proof.Machine
end

section
/-!
PROOFS. The CIC as four moving sums (rule R106). A register of the unbounded CIC is a function of the impulses pushed so far:
an integrator is a running sum, a comb stage a difference over sixteen impulses. A difference of a running sum is a moving sum
of sixteen values (`combed_runningSum`), so an output from reset is four moving sums, one of another, of the impulses. The
bound and the settled value follow from that, and carry over to the registers that wrap through `cicRun_wrap`.
-/

namespace Sys2Proof.Machine

/-! ### Signals -/

/-- A value that depends on the impulses pushed so far, the newest first. -/
abbrev Signal := List Int → Int

/-- The newest impulse; 0 before the first. -/
def newestImpulse : Signal := fun g => g.headD 0

/-- An integrator that adds `f` at every push. -/
def runningSum (f : Signal) : Signal
  | [] => 0
  | x :: g => runningSum f g + f (x :: g)

/-- A comb stage on `f`: the difference over one output period. -/
def combed (f : Signal) : Signal := fun g => f g - f (g.drop cicDf)

/-- The sum of the newest sixteen values of `f`. -/
def movingSum (f : Signal) : Signal := fun g => ∑ j ∈ Finset.range cicDf, f (g.drop j)

theorem runningSum_eq_add_drop_one {f : Signal} (hf : f [] = 0) (g : List Int) :
    runningSum f g = f g + runningSum f (g.drop 1) := by
  cases g with
  | nil => simp [runningSum, hf]
  | cons x g => exact Int.add_comm _ _

theorem runningSum_eq_sum_add {f : Signal} (hf : f [] = 0) (n : Nat) (g : List Int) :
    runningSum f g = (∑ j ∈ Finset.range n, f (g.drop j)) + runningSum f (g.drop n) := by
  induction n with
  | zero => simp
  | succ n ih =>
    rw [ih, Finset.sum_range_succ, runningSum_eq_add_drop_one hf (g.drop n), List.drop_drop, Int.add_assoc]

/-- The comb undoes the integrator but for the newest sixteen values. -/
theorem combed_runningSum {f : Signal} (hf : f [] = 0) : combed (runningSum f) = movingSum f := by
  funext g
  rw [combed, runningSum_eq_sum_add hf cicDf g, Int.add_sub_cancel, movingSum]

theorem combed_commute_movingSum : Function.Commute combed movingSum := by
  intro f
  funext g
  simp only [combed, movingSum, ← Finset.sum_sub_distrib, List.drop_drop, Nat.add_comm]

theorem runningSum_iterate_nil {f : Signal} (hf : f [] = 0) (n : Nat) : runningSum^[n] f [] = 0 := by
  cases n with
  | zero => exact hf
  | succ n => rw [Function.iterate_succ_apply', runningSum]

/-- As many combs as integrators leave as many moving sums. -/
theorem combed_iterate_runningSum_iterate {f : Signal} (hf : f [] = 0) (n : Nat) :
    combed^[n] (runningSum^[n] f) = movingSum^[n] f := by
  induction n with
  | zero => rfl
  | succ n ih =>
    calc combed^[n + 1] (runningSum^[n + 1] f)
      _ = combed^[n] (combed (runningSum (runningSum^[n] f))) := by
        rw [Function.iterate_succ_apply, Function.iterate_succ_apply']
      _ = combed^[n] (movingSum (runningSum^[n] f)) := by rw [combed_runningSum (runningSum_iterate_nil hf n)]
      _ = movingSum (combed^[n] (runningSum^[n] f)) := combed_commute_movingSum.iterate_left n _
      _ = movingSum^[n + 1] f := by rw [ih, Function.iterate_succ_apply']

/-- Moving sums of impulses of magnitude at most 1. -/
theorem abs_movingSum_iterate_le (n : Nat) {g : List Int} (hg : ∀ x ∈ g, |x| ≤ 1) :
    |movingSum^[n] newestImpulse g| ≤ 16 ^ n := by
  induction n generalizing g with
  | zero =>
    cases g with
    | nil => decide
    | cons x g => exact hg x List.mem_cons_self
  | succ n ih =>
    rw [Function.iterate_succ_apply', movingSum]
    calc |∑ j ∈ Finset.range cicDf, movingSum^[n] newestImpulse (g.drop j)|
      _ ≤ ∑ j ∈ Finset.range cicDf, |movingSum^[n] newestImpulse (g.drop j)| := Finset.abs_sum_le_sum_abs _ _
      _ ≤ ∑ _j ∈ Finset.range cicDf, 16 ^ n :=
        Finset.sum_le_sum fun j _ => ih fun x hx => hg x (List.mem_of_mem_drop hx)
      _ = 16 ^ (n + 1) := by rw [Finset.sum_const, Finset.card_range, nsmul_eq_mul, pow_succ']; rfl

/-- Moving sums of a constant stream, once the stream fills the windows. -/
theorem movingSum_iterate_replicate (n : Nat) {m : Nat} (hm : 15 * n < m) (v : Int) :
    movingSum^[n] newestImpulse (List.replicate m v) = 16 ^ n * v := by
  induction n generalizing m with
  | zero =>
    obtain ⟨m, rfl⟩ := Nat.exists_eq_succ_of_ne_zero (Nat.ne_of_gt hm)
    exact (Int.one_mul v).symm
  | succ n ih =>
    rw [Function.iterate_succ_apply', movingSum]
    calc ∑ j ∈ Finset.range cicDf, movingSum^[n] newestImpulse ((List.replicate m v).drop j)
      _ = ∑ _j ∈ Finset.range cicDf, 16 ^ n * v := Finset.sum_congr rfl fun j hj => by
        have hj : j < 16 := Finset.mem_range.mp hj
        rw [List.drop_replicate, ih (by omega)]
      _ = 16 ^ (n + 1) * v := by rw [Finset.sum_const, Finset.card_range, nsmul_eq_mul, pow_succ', Int.mul_assoc]; rfl

/-! ### The registers as signals -/

/-- The unbounded CIC that has taken the impulses `g` from reset, its last comb step being after the impulses `k`. -/
def cicAfter (g k : List Int) : CicExact where
  acc0 := runningSum^[1] newestImpulse g
  acc1 := runningSum^[2] newestImpulse g
  acc2 := runningSum^[3] newestImpulse g
  acc3 := runningSum^[4] newestImpulse g
  dly0 := runningSum^[4] newestImpulse k
  dly1 := combed^[1] (runningSum^[4] newestImpulse) k
  dly2 := combed^[2] (runningSum^[4] newestImpulse) k
  dly3 := combed^[3] (runningSum^[4] newestImpulse) k

theorem cicAfter_nil_wrap : (cicAfter [] []).wrap = .zero := rfl

theorem cicAfter_push (g k : List Int) (b : Bool) : (cicAfter g k).push b = cicAfter (impulse b :: g) k := rfl

/-- A comb step one output period after the last answers four moving sums. -/
theorem cicAfter_comb (g : List Int) :
    (cicAfter g (g.drop cicDf)).comb = (movingSum^[4] newestImpulse g, cicAfter g g) := by
  rw [← combed_iterate_runningSum_iterate rfl 4]
  rfl

/-- The impulses once a half-word has been pushed after `g`. -/
def pushHalf (g : List Int) (h : Half) : List Int := ((halfBits h).map impulse).reverse ++ g

theorem drop_pushHalf (g : List Int) (h : Half) : (pushHalf g h).drop cicDf = g :=
  List.drop_left' (by simp [cicDf])

theorem cicAfter_foldl_push (bs : List Bool) (g k : List Int) :
    bs.foldl CicExact.push (cicAfter g k) = cicAfter ((bs.map impulse).reverse ++ g) k := by
  induction bs generalizing g with
  | nil => rfl
  | cons b bs ih => simp [cicAfter_push, ih]

theorem cicExactHalf_cicAfter (g : List Int) (h : Half) :
    cicExactHalf (cicAfter g g) h =
      (movingSum^[4] newestImpulse (pushHalf g h), cicAfter (pushHalf g h) (pushHalf g h)) := by
  have hcomb := cicAfter_comb (pushHalf g h)
  rw [drop_pushHalf] at hcomb
  rw [cicExactHalf, cicAfter_foldl_push, ← hcomb, pushHalf]

/-- The impulses once a word has been pushed after `g`: its high half, then its low half (rule R104). -/
def pushWord (g : List Int) (w : Pdm) : List Int := pushHalf (pushHalf g (highHalf w)) (lowHalf w)

theorem cicExactRun_cicAfter_state (ws : List Pdm) (g : List Int) :
    (CicExact.run ws (cicAfter g g)).2 = cicAfter (ws.foldl pushWord g) (ws.foldl pushWord g) := by
  induction ws generalizing g with
  | nil => rfl
  | cons w ws ih =>
    simp only [cicExactRun_cons, cicExactHalf_cicAfter, List.foldl_cons]
    exact ih _

/-- What holds of the impulses at every comb step of a run gives what holds of every output. -/
theorem forall_cicExactRun_cicAfter {P : List Int → Prop} {Q : Int → Prop} {ws : List Pdm}
    (hpush : ∀ w ∈ ws, ∀ h ∈ [highHalf w, lowHalf w], ∀ g, P g → P (pushHalf g h))
    (hout : ∀ g, P g → Q (movingSum^[4] newestImpulse g)) {g : List Int} (hg : P g) :
    ∀ y ∈ (CicExact.run ws (cicAfter g g)).1, Q y := by
  induction ws generalizing g with
  | nil => nofun
  | cons w ws ih =>
    have hhigh : P (pushHalf g (highHalf w)) := hpush w List.mem_cons_self _ List.mem_cons_self _ hg
    have hlow : P (pushWord g w) := hpush w List.mem_cons_self _ (by simp) _ hhigh
    simp only [cicExactRun_cons, cicExactHalf_cicAfter, List.forall_mem_cons]
    exact ⟨hout _ hhigh, hout _ hlow, ih (fun v hv => hpush v (List.mem_cons_of_mem w hv)) hlow⟩

/-! ### The bound -/

theorem abs_impulse_le (b : Bool) : |impulse b| ≤ 1 := by cases b <;> decide

/-- Every output of the unbounded CIC from reset is at most 65536 in magnitude. -/
theorem abs_cicExactRun_le (ws : List Pdm) : ∀ y ∈ (CicExact.run ws (cicAfter [] [])).1, |y| ≤ 65536 := by
  refine forall_cicExactRun_cicAfter (P := fun g => ∀ x ∈ g, |x| ≤ 1) (fun w _ h _ g hg x hx => ?_)
    (fun g hg => abs_movingSum_iterate_le 4 hg) nofun
  rw [pushHalf, List.mem_append, List.mem_reverse, List.mem_map] at hx
  obtain ⟨b, -, rfl⟩ | hx := hx
  · exact abs_impulse_le b
  · exact hg x hx

/-- From reset the outputs never wrap: their values are those of the unbounded CIC (rule R108). -/
theorem cicRun_zero_toInt (ws : List Pdm) :
    (cicRun ws .zero).1.map BitVec.toInt = (CicExact.run ws (cicAfter [] [])).1 := by
  rw [← cicAfter_nil_wrap, cicRun_wrap, List.map_map]
  refine (List.map_congr_left (g := id) fun y hy => ?_).trans (List.map_id _)
  have hy := abs_le.mp (abs_cicExactRun_le ws y hy)
  exact toInt_ofInt_of_range (by omega)

theorem within_of_mem_cicRun_zero {ws : List Pdm} {y : Sample} (hy : y ∈ (cicRun ws .zero).1) : Within 65536 y := by
  refine abs_le.mp (abs_cicExactRun_le ws y.toInt ?_)
  rw [← cicRun_zero_toInt]
  exact List.mem_map_of_mem hy

/-! ### The constant stream -/

theorem cicExactRun_append (xs ys : List Pdm) (e : CicExact) :
    CicExact.run (xs ++ ys) e =
      ((CicExact.run xs e).1 ++ (CicExact.run ys (CicExact.run xs e).2).1,
        (CicExact.run ys (CicExact.run xs e).2).2) := by
  induction xs generalizing e with
  | nil => rfl
  | cons x xs ih => simp only [List.cons_append, cicExactRun_cons, ih]

theorem cicExactRun_length (ws : List Pdm) (e : CicExact) : (CicExact.run ws e).1.length = 2 * ws.length := by
  simpa only [cicRun_wrap, List.length_map] using cicRun_length ws e.wrap

section ConstantWord
variable {w : Pdm} {b : Bool} (hw : ∀ h ∈ [highHalf w, lowHalf w], halfBits h = List.replicate 16 b)
include hw

theorem pushHalf_replicate {h : Half} (hh : h ∈ [highHalf w, lowHalf w]) (m : Nat) :
    pushHalf (List.replicate m (impulse b)) h = List.replicate (16 + m) (impulse b) := by
  rw [pushHalf, hw h hh, List.map_replicate, List.reverse_replicate, List.replicate_append_replicate]

/-- Once the constant stream fills the windows, every output is the settled value. -/
theorem cicExactRun_settled {m : Nat} (hm : 60 < m) (n : Nat) :
    (CicExact.run (List.replicate n w)
        (cicAfter (List.replicate m (impulse b)) (List.replicate m (impulse b)))).1 =
      List.replicate (2 * n) (65536 * impulse b) := by
  refine List.eq_replicate_iff.mpr ⟨by rw [cicExactRun_length, List.length_replicate], ?_⟩
  refine forall_cicExactRun_cicAfter (P := fun g => ∃ k, 60 < k ∧ g = List.replicate k (impulse b)) ?_ ?_ ⟨m, hm, rfl⟩
  · rintro v hv h hh _ ⟨k, hk, rfl⟩
    cases List.eq_of_mem_replicate hv
    exact ⟨16 + k, by omega, pushHalf_replicate hw hh k⟩
  · rintro _ ⟨k, hk, rfl⟩
    exact movingSum_iterate_replicate 4 hk (impulse b)

/-- Two words from reset fill the windows. -/
theorem cicExactRun_two_words_state :
    (CicExact.run (List.replicate 2 w) (cicAfter [] [])).2 =
      cicAfter (List.replicate 64 (impulse b)) (List.replicate 64 (impulse b)) := by
  have hpush : ∀ m, pushWord (List.replicate m (impulse b)) w = List.replicate (32 + m) (impulse b) := fun m => by
    rw [pushWord, pushHalf_replicate hw (by simp), pushHalf_replicate hw (by simp), ← Nat.add_assoc]
  have hwords : (List.replicate 2 w).foldl pushWord [] = List.replicate 64 (impulse b) := by
    calc pushWord (pushWord (List.replicate 0 (impulse b)) w) w
      _ = List.replicate 64 (impulse b) := by rw [hpush, hpush]
  rw [cicExactRun_cicAfter_state, hwords]

/-- The outputs on a constant stream from reset: three of the transient, which two words give, and the settled value. -/
theorem cicRun_zero_constant {y0 y1 y2 : Int}
    (hfirst : (cicRun (List.replicate 2 w) .zero).1.map BitVec.toInt = [y0, y1, y2, 65536 * impulse b]) (n : Nat) :
    (cicRun (List.replicate n w) .zero).1.map BitVec.toInt =
      ([y0, y1, y2] ++ List.replicate (2 * n) (65536 * impulse b)).take (2 * n) := by
  rw [cicRun_zero_toInt] at hfirst ⊢
  have hlong : (CicExact.run (List.replicate 2 w ++ List.replicate n w) (cicAfter [] [])).1 =
      [y0, y1, y2] ++ List.replicate (2 * n + 1) (65536 * impulse b) := by
    rw [cicExactRun_append, hfirst, cicExactRun_two_words_state hw, cicExactRun_settled hw (by omega)]
    rfl
  have hcomm : List.replicate 2 w ++ List.replicate n w = List.replicate n w ++ List.replicate 2 w := by
    rw [List.replicate_append_replicate, List.replicate_append_replicate, Nat.add_comm]
  have hlen : (CicExact.run (List.replicate n w) (cicAfter [] [])).1.length = 2 * n := by
    rw [cicExactRun_length, List.length_replicate]
  calc (CicExact.run (List.replicate n w) (cicAfter [] [])).1
    _ = (CicExact.run (List.replicate 2 w ++ List.replicate n w) (cicAfter [] [])).1.take (2 * n) := by
      rw [hcomm, cicExactRun_append, List.take_left' hlen]
    _ = ([y0, y1, y2] ++ List.replicate (2 * n) (65536 * impulse b)).take (2 * n) := by
      rw [hlong, List.replicate_succ', ← List.append_assoc, List.take_append_of_le_length]
      rw [List.length_append, List.length_replicate]
      omega

end ConstantWord

/-- All bits 1 (rule R106). -/
theorem cicRun_zero_ones (n : Nat) :
    (cicRun (List.replicate n 0xFFFFFFFF) .zero).1.map BitVec.toInt =
      (([3876, 36856, 63716] : List Int) ++ List.replicate (2 * n) 65536).take (2 * n) := by
  have hhalves : [highHalf 0xFFFFFFFF, lowHalf 0xFFFFFFFF] = List.replicate 2 0xFFFF := by decide
  have hbits : halfBits 0xFFFF = List.replicate 16 true := by decide
  have hfirst : (cicRun (List.replicate 2 0xFFFFFFFF) .zero).1 = [3876, 36856, 63716, 65536] := by decide +kernel
  exact cicRun_zero_constant (fun h hh => List.eq_of_mem_replicate (hhalves ▸ hh) ▸ hbits)
    (congrArg (List.map BitVec.toInt) hfirst) n

/-- All bits 0 (rule R106). -/
theorem cicRun_zero_zeros (n : Nat) :
    (cicRun (List.replicate n 0x00000000) .zero).1.map BitVec.toInt =
      (([-3876, -36856, -63716] : List Int) ++ List.replicate (2 * n) (-65536)).take (2 * n) := by
  have hhalves : [highHalf 0x00000000, lowHalf 0x00000000] = List.replicate 2 0x0000 := by decide
  have hbits : halfBits 0x0000 = List.replicate 16 false := by decide
  have hfirst : (cicRun (List.replicate 2 0x00000000) .zero).1 = [-3876, -36856, -63716, -65536] := by decide +kernel
  exact cicRun_zero_constant (fun h hh => List.eq_of_mem_replicate (hhalves ▸ hh) ▸ hbits)
    (congrArg (List.map BitVec.toInt) hfirst) n

/-! ### The statements -/

/-- Settles O20: the outputs of the completed command (`exec_cic`) are the constant streams' `cicRun_zero_ones` and
`cicRun_zero_zeros`. -/
theorem cicSettlesOnConstantInput : Obligations.CicSettlesOnConstantInput := by
  intro s len hc hL hR ho
  refine ⟨_, _, _, exec_cic hc ho List.length_replicate List.length_replicate, rfl, ?_, ?_⟩
  · rw [hL]
    exact cicRun_zero_ones len
  · rw [hR]
    exact cicRun_zero_zeros len

/-- Settles O21: the outputs of the completed command (`exec_cic`) are bounded in each lane by `within_of_mem_cicRun_zero`. -/
theorem cicOutputsFromResetAreBounded : Obligations.CicOutputsFromResetAreBounded := by
  intro s len inL inR hc hL hR ho hlenL hlenR
  refine ⟨_, _, _, exec_cic hc ho hlenL hlenR, rfl, fun y hy => ?_, fun y hy => ?_⟩
  · rw [hL] at hy
    exact within_of_mem_cicRun_zero hy
  · rw [hR] at hy
    exact within_of_mem_cicRun_zero hy

end Sys2Proof.Machine
end

section
/-!
PROOFS. Commands with `len = 0` (decision D32): every loop is over no samples, so what is left of a command on a delay buffer is
its stored index, read and written back.
-/

namespace Sys2Proof.Machine

/-! ### The stored index, read and written back -/

theorem startIndex_of_bufferOk {n : Nat} {b : Buffer} (h : BufferOk n b) : startIndex n b = .ok (indexOf b) := by
  obtain ⟨-, hlo, hhi⟩ := h
  rw [startIndex_eq_ok, indexOf]
  split <;> omega

/-- The index was read from a cell, so it fits one. -/
theorem storeIndex_indexOf (b : Buffer) : storeIndex (indexOf b) b = .ok (normIndex b) := by
  refine storeIndex_eq_ok.mpr ⟨?_, rfl⟩
  have hrange := cell_range (cellAt b 0)
  unfold indexOf
  split <;> omega

/-! ### The units on no samples -/

theorem firCommand_nil {nc : Nat} {b : Buffer} (h : BufferOk (nc + 2) b) (coefs : List Int) :
    firCommand nc coefs [] b = .ok ([], normIndex b) :=
  firCommand_eq_ok.mpr ⟨rfl, h.1, _, _, _, startIndex_of_bufferOk h, rfl, storeIndex_indexOf b⟩

theorem iir2Command_nil {c : Config} {d : Buffer} (h : BufferOk (2 * c.nb) d) :
    iir2Command c [] d = .ok ([], normIndex d) :=
  iir2Command_eq_ok.mpr ⟨h.1, _, _, _, startIndex_of_bufferOk h, rfl, storeIndex_indexOf d⟩

theorem iir1Command_nil {c : Config} {ff fb : Buffer} (hf : BufferOk (2 * c.nb) ff) (hb : BufferOk (2 * c.nb) fb) :
    iir1Command c [] ff fb = .ok ([], normIndex ff, normIndex fb) :=
  iir1Command_eq_ok.mpr ⟨hf.1, hb.1, _, _, _, startIndex_of_bufferOk hf, startIndex_of_bufferOk hb, rfl, rfl,
    storeIndex_indexOf ff, storeIndex_indexOf fb⟩

section Lane
variable {c : Config} {l : Lane} (h : LaneOk c l)
include h

theorem firOnLane_nil (st : Stage) : firOnLane st c l [] = .ok ([], l.setFir st (normIndex (l.fir st))) := by
  rw [firOnLane, firCommand_nil (laneOk_fir h st)]
  rfl

theorem iir1OnLane_nil : iir1OnLane c l [] = .ok ([], { l with ff := normIndex l.ff, fb := normIndex l.fb }) := by
  obtain ⟨-, -, -, hff, hfb⟩ := h
  rw [iir1OnLane, iir1Command_nil hff hfb]
  rfl

theorem iir2OnLane_nil : iir2OnLane c l [] = .ok ([], { l with d := normIndex l.d }) := by
  obtain ⟨-, -, hd, -⟩ := h
  rw [iir2OnLane, iir2Command_nil hd]
  rfl

/-- The chain after the CIC, in each setting of `IIR_MODE`. -/
theorem chainLane_nil : chainLane c [] l = .ok ([], normLane c.iirMode l) := by
  obtain ⟨h1, h2, hd, hff, hfb⟩ := h
  refine chainLane_eq_ok.mpr ⟨_, _, _, _, [], firCommand_nil h1 _, firCommand_nil h2 _, ?_, rfl⟩
  cases hmode : c.iirMode with
  | bypass => exact chainIir_eq_ok.mpr (.inl ⟨hmode, rfl⟩)
  | df1 => exact chainIir_eq_ok.mpr (.inr (.inl ⟨hmode, _, _, iir1Command_nil hff hfb, rfl⟩))
  | df2 => exact chainIir_eq_ok.mpr (.inr (.inr ⟨hmode, _, iir2Command_nil hd, rfl⟩))

end Lane

/-! ### The commands -/

/-- A command with a lane select on no samples writes the lane its computation gives. -/
theorem onLane_nil {ch : Chan} {f : LaneComputation} {s : State} {l : Lane} (hc : configWellFormed s.config = true)
    (ho : s.operands = .samples []) (hf : f s.config (s.lane ch) [] = .ok ([], l)) :
    onLane ch 0 f s = .next ((s.setLane ch l).answer (.samples [])) :=
  onLane_eq_next.mpr ⟨hc, [], [], l, ho, rfl, hf, rfl⟩

theorem exec_frame_zero {s : State} (hs : Inv s) (ho : s.operands = .pdm [] []) :
    exec (.frame 0) s =
      .next (({ s with left := normLane s.config.iirMode s.left, right := normLane s.config.iirMode s.right } :
        State).answer (.frame [] [])) := by
  obtain ⟨hc, hL, hR⟩ := hs
  exact execFrame_eq_next.mpr ⟨hc, rfl, [], [], [], _, [], _, ho, rfl, rfl, chainLane_nil hL, chainLane_nil hR, rfl⟩

/-- Settles O49: each command on no samples, from the unit's `..._nil` lemma. -/
theorem emptyCommandsOnlyNormaliseIndices : Obligations.EmptyCommandsOnlyNormaliseIndices := by
  intro s hs _
  obtain ⟨hc, hl⟩ := inv_iff.mp hs
  simp only [exec_fir_eq_onLane, exec_iir1_eq_onLane, exec_iir2_eq_onLane]
  exact ⟨exec_cic_zero hc, fun st ch ho => onLane_nil hc ho (firOnLane_nil (hl ch) st),
    fun ch ho => onLane_nil hc ho (iir1OnLane_nil (hl ch)), fun ch ho => onLane_nil hc ho (iir2OnLane_nil (hl ch)),
    fun ho => execGain_eq_next.mpr ⟨hc, [], [], ho, rfl, rfl, rfl⟩, exec_frame_zero hs⟩

end Sys2Proof.Machine
end

section
/-!
PROOFS. The FIR output (rule R133): the sum of `fir_out` over the newest samples is the convolution of the taps with
`firHistory`, and its range checks are conditions on the convolutions of the leading parts of the table (`FirFits`). A trailing
zero tap (rule R145) and the headroom of a bounded signal (rule R270).
-/

namespace Sys2Proof.Machine

/-! ### Pushes (rule R132) -/

/-- Slot `S` is followed by slot 1. -/
theorem slot_succ {slots p : Nat} (hp : p ≤ slots) : p % slots + 1 = if p = slots then 1 else p + 1 := by
  split
  · rename_i heq
    rw [heq, Nat.mod_self]
  · rw [Nat.mod_eq_of_lt (by omega)]

theorem cellAt_firPush_self {slots p : Nat} {dl : Buffer} (x : Sample) (hp : p < dl.length) :
    cellAt (firPush slots x dl p).1 p = x := cellAt_setCell_self x hp

/-- Settles O22: a push is one cell written and one slot on (`slot_succ`), and the loop's two pushes are its definition. -/
theorem firPushOverwritesTheOldest : Obligations.FirPushOverwritesTheOldest := by
  refine ⟨fun slots p x dl hdl _ hp => ⟨cellAt_firPush_self x (by omega), fun j hj => cellAt_setCell_of_ne x hj.symm, ?_,
    slot_succ hp⟩, fun _ _ _ _ _ _ _ => rfl, fun dl hdl => ⟨cellAt_firPush_self 9 (by omega), rfl⟩⟩
  rw [firPush_length, hdl]

/-! ### The convolution -/

@[simp] theorem convolve_nil (hist : List Int) : convolve [] hist = 0 := rfl

@[simp] theorem convolve_nil_right (h : List Int) : convolve h [] = 0 := by simp [convolve]

@[simp] theorem convolve_cons (a v : Int) (h hist : List Int) :
    convolve (a :: h) (v :: hist) = a * v + convolve h hist := rfl

/-- Only as many samples as there are taps count. -/
theorem convolve_take {h : List Int} {n : Nat} (hn : h.length ≤ n) (hist : List Int) :
    convolve h (hist.take n) = convolve h hist := by
  induction h generalizing hist n with
  | nil => rfl
  | cons a h ih =>
    obtain ⟨n, rfl⟩ : ∃ k, n = k + 1 := ⟨n - 1, by rw [List.length_cons] at hn; omega⟩
    cases hist with
    | nil => rfl
    | cons v hist => rw [List.take_succ_cons, convolve_cons, convolve_cons, ih (by simpa using hn)]

/-- The convolution with the first `j` taps, as rule R133 writes the partial sum. -/
theorem convolve_take_map_range {h : List Int} {n j : Nat} (hj : j ≤ h.length) (hn : j ≤ n) (f : Nat → Int) :
    convolve (h.take j) ((List.range n).map f) = ((List.range j).map fun k => h.getD k 0 * f k).sum := by
  rw [convolve]
  congr 1
  refine List.ext_getElem (by simp; omega) fun k hk _ => ?_
  have hkh : k < h.length := by simp at hk; omega
  simp [hkh]

/-! ### The sum and its checks -/

/-- The values of `n` stored samples, working index `p`, from the `k`-th newest on. -/
def samplesFrom (slots p : Nat) (dl : Buffer) (k n : Nat) : List Int :=
  (List.range' k n).map fun i => (cellAt dl (newestSlot slots p i)).toInt

theorem samplesFrom_succ (slots p : Nat) (dl : Buffer) (k n : Nat) :
    samplesFrom slots p dl k (n + 1) =
      (cellAt dl (newestSlot slots p k)).toInt :: samplesFrom slots p dl (k + 1) n := rfl

theorem samplesFrom_zero (nc p : Nat) (dl : Buffer) : samplesFrom (nc + 2) p dl 0 nc = firHistory nc dl p := by
  rw [samplesFrom, firHistory, List.range_eq_range']

theorem inAcc_zero : InAcc 0 := by decide

/-- Added to `acc`, the products of every leading part of the table stay inside 40 bits. -/
def SumsFit (acc : Int) (h hist : List Int) : Prop := ∀ g, g <+: h → InAcc (acc + convolve g hist)

theorem sumsFit_nil (acc : Int) (hist : List Int) : SumsFit acc [] hist ↔ InAcc acc := by simp [SumsFit]

theorem sumsFit_cons (acc a v : Int) (h hist : List Int) :
    SumsFit acc (a :: h) (v :: hist) ↔ InAcc acc ∧ SumsFit (acc + a * v) h hist := by
  constructor
  · intro hfit
    refine ⟨by simpa using hfit [] List.nil_prefix, fun g hg => ?_⟩
    simpa [add_assoc] using hfit (a :: g) (List.cons_prefix_cons.mpr ⟨rfl, hg⟩)
  · rintro ⟨hacc, hfit⟩ g hg
    obtain rfl | ⟨g', rfl, hg'⟩ := List.prefix_cons_iff.mp hg
    · simpa using hacc
    · simpa [add_assoc] using hfit g' hg'

theorem SumsFit.inAcc {acc : Int} {h hist : List Int} (hfit : SumsFit acc h hist) : InAcc acc := by
  simpa using hfit [] List.nil_prefix

/-- The sum of rule R133 completes exactly when its sums fit, and is the convolution. -/
theorem firSum_eq_ok {slots p : Nat} {dl : Buffer} {h : List Int} {k : Nat} {acc v : Int} (hacc : InAcc acc) :
    firSum slots p dl h k acc = .ok v ↔
      SumsFit acc h (samplesFrom slots p dl k h.length) ∧ v = acc + convolve h (samplesFrom slots p dl k h.length) := by
  induction h generalizing k acc with
  | nil =>
    rw [firSum, Except.ok.injEq, sumsFit_nil, convolve_nil, add_zero, eq_comm]
    exact ⟨fun h => ⟨hacc, h⟩, And.right⟩
  | cons a h ih =>
    rw [firSum, Exec.bind_eq_ok, List.length_cons, samplesFrom_succ, sumsFit_cons, convolve_cons, ← add_assoc]
    constructor
    · rintro ⟨acc', hacc', hsum⟩
      obtain ⟨hr, rfl⟩ := acc40_eq_ok.mp hacc'
      obtain ⟨hfit, rfl⟩ := (ih hr).mp hsum
      exact ⟨⟨hacc, hfit⟩, rfl⟩
    · rintro ⟨⟨-, hfit⟩, rfl⟩
      exact ⟨_, acc40_of_range hfit.inAcc, (ih hfit.inAcc).mpr ⟨hfit, rfl⟩⟩

/-- The sum of rule R133 stops with `U_ACC40` and nothing else. -/
theorem firSum_eq_error {slots p : Nat} {dl : Buffer} {h : List Int} {k : Nat} {acc : Int} {e : Stop}
    (he : firSum slots p dl h k acc = .error e) : e = .fault .acc40 := by
  induction h generalizing k acc with
  | nil => cases he
  | cons a h ih =>
    obtain hacc | ⟨acc', -, hsum⟩ := Exec.bind_eq_error.mp he
    · exact (acc40_eq_error.mp hacc).2
    · exact ih hsum

/-! ### The output -/

/-- No check of `fir_out` fails on the given samples, the newest first. -/
def FirFits (h hist : List Int) : Prop := SumsFit 0 h hist ∧ InAcc (convolve h hist + 16384)

/-- A biased sum inside 40 bits, shifted by 15, fits its cell (rule R133). -/
theorem inCell_asr_of_inAcc {v : Int} (h : InAcc v) : InCell (asr v 15) := by
  have hb := asr_bounds v 15
  omega

/-- `fir_out` completes exactly when its checks pass, and is the rounded convolution. -/
theorem firOut_eq_ok {nc p : Nat} {h : List Int} {dl : Buffer} (hh : h.length = nc) {y : Sample} :
    firOut (nc + 2) h dl p = .ok y ↔
      FirFits h (firHistory nc dl p) ∧ y.toInt = rndShr (convolve h (firHistory nc dl p)) 15 := by
  simp only [firOut, Exec.bind_eq_ok, firSum_eq_ok inAcc_zero, acc40_eq_ok, hh, samplesFrom_zero, zero_add]
  constructor
  · rintro ⟨_, ⟨hfit, rfl⟩, _, ⟨hr, rfl⟩, hst⟩
    exact ⟨⟨hfit, hr⟩, (store32_eq_ok.mp hst).2⟩
  · rintro ⟨⟨hfit, hr⟩, hy⟩
    exact ⟨_, ⟨hfit, rfl⟩, _, ⟨hr, rfl⟩, store32_eq_ok.mpr ⟨inCell_asr_of_inAcc hr, hy⟩⟩

theorem firOut_of_fits {nc p : Nat} {h : List Int} {dl : Buffer} (hh : h.length = nc)
    (hfit : FirFits h (firHistory nc dl p)) :
    ∃ y, firOut (nc + 2) h dl p = .ok y ∧ y.toInt = rndShr (convolve h (firHistory nc dl p)) 15 := by
  have hcell : (BitVec.ofInt 32 (rndShr (convolve h (firHistory nc dl p)) 15)).toInt = _ :=
    toInt_ofInt_of_range (inCell_asr_of_inAcc hfit.2)
  exact ⟨_, (firOut_eq_ok hh).mpr ⟨hfit, hcell⟩, hcell⟩

/-- `fir_out` stops with `U_ACC40` and nothing else. -/
theorem firOut_eq_error {slots p : Nat} {h : List Int} {dl : Buffer} {e : Stop} (he : firOut slots h dl p = .error e) :
    e = .fault .acc40 := by
  obtain hsum | ⟨acc, -, he⟩ := Exec.bind_eq_error.mp he
  · exact firSum_eq_error hsum
  · obtain hacc | ⟨acc', hacc', hst⟩ := Exec.bind_eq_error.mp he
    · exact (acc40_eq_error.mp hacc).2
    · obtain ⟨hr, rfl⟩ := acc40_eq_ok.mp hacc'
      exact absurd (inCell_asr_of_inAcc hr) (store32_eq_error.mp hst).1

theorem firOut_of_not_fits {nc p : Nat} {h : List Int} {dl : Buffer} (hh : h.length = nc)
    (hfit : ¬FirFits h (firHistory nc dl p)) : firOut (nc + 2) h dl p = undefined .acc40 := by
  cases hout : firOut (nc + 2) h dl p with
  | ok y => exact absurd ((firOut_eq_ok hh).mp hout).1 hfit
  | error e => rw [firOut_eq_error hout, undefined]

/-! ### A trailing zero tap (rule R145) -/

/-- The zero product leaves a sum that has passed its check. -/
theorem firSum_append_zero {slots p : Nat} {dl : Buffer} (h : List Int) {k : Nat} {acc : Int} (hacc : InAcc acc) :
    firSum slots p dl (h ++ [0]) k acc = firSum slots p dl h k acc := by
  induction h generalizing k acc with
  | nil => simp [firSum, acc40_of_range hacc]
  | cons a h ih =>
    simp only [List.cons_append, firSum]
    cases hstep : acc40 (acc + a * (cellAt dl (newestSlot slots p k)).toInt) with
    | error e => rfl
    | ok acc' =>
      obtain ⟨hr, rfl⟩ := acc40_eq_ok.mp hstep
      exact ih hr

/-- Settles O24: the sum of `fir_out` starts from 0, which fits. -/
theorem firTrailingZeroTapChangesNothing : Obligations.FirTrailingZeroTapChangesNothing := by
  intro slots p h dl
  rw [firOut, firOut, firSum_append_zero h inAcc_zero]

/-! ### Headroom (rules R133, R270) -/

theorem tapMagnitude_nonneg (h : List Int) : 0 ≤ tapMagnitude h :=
  List.sum_nonneg fun v hv => by
    obtain ⟨a, -, rfl⟩ := List.mem_map.mp hv
    exact Int.natCast_nonneg _

theorem tapMagnitude_le_of_prefix {g h : List Int} (hg : g <+: h) : tapMagnitude g ≤ tapMagnitude h :=
  (hg.sublist.map mag).sum_le_sum fun v hv => by
    obtain ⟨a, -, rfl⟩ := List.mem_map.mp hv
    exact Int.natCast_nonneg _

/-- Coefficients in range (rule R5) are at most `2^15` in magnitude. -/
theorem tapMagnitude_le {h : List Int} (hr : ∀ v ∈ h, -32768 ≤ v ∧ v ≤ 32767) : tapMagnitude h ≤ 32768 * h.length := by
  have hsum := List.sum_le_card_nsmul (h.map mag) 32768 fun v hv => by
    obtain ⟨a, ha, rfl⟩ := List.mem_map.mp hv
    have := hr a ha
    rw [mag, ← Int.abs_eq_natAbs, abs_le]
    omega
  simpa [tapMagnitude, mul_comm] using hsum

theorem abs_convolve_le {m : Int} (hm : 0 ≤ m) (h : List Int) {hist : List Int} (hb : ∀ v ∈ hist, |v| ≤ m) :
    |convolve h hist| ≤ tapMagnitude h * m := by
  induction h generalizing hist with
  | nil => simp [tapMagnitude]
  | cons a h ih =>
    cases hist with
    | nil => simpa using mul_nonneg (tapMagnitude_nonneg (a :: h)) hm
    | cons v hist =>
      obtain ⟨hv, hb⟩ := List.forall_mem_cons.mp hb
      calc |convolve (a :: h) (v :: hist)| ≤ |a * v| + |convolve h hist| := abs_add_le _ _
        _ ≤ |a| * m + tapMagnitude h * m := by
          rw [abs_mul]
          exact add_le_add (mul_le_mul_of_nonneg_left hv (abs_nonneg a)) (ih hb)
        _ = tapMagnitude (a :: h) * m := by
          rw [← add_mul, Int.abs_eq_natAbs]
          rfl

/-- Samples in headroom pass every check of `fir_out`. -/
theorem firFits_of_headroom {h hist : List Int} {m : Int} (hm : 0 ≤ m) (hroom : tapMagnitude h * m + 16384 ≤ 2 ^ 39 - 1)
    (hb : ∀ v ∈ hist, |v| ≤ m) : FirFits h hist := by
  have hconv : ∀ g, g <+: h → |convolve g hist| ≤ tapMagnitude h * m := fun g hg =>
    (abs_convolve_le hm g hb).trans (mul_le_mul_of_nonneg_right (tapMagnitude_le_of_prefix hg) hm)
  have habs := fun g hg => abs_le.mp (hconv g hg)
  refine ⟨fun g hg => ?_, ?_⟩
  · have := habs g hg
    omega
  · have := habs h List.prefix_rfl
    omega

/-- At most 127 taps and nominal samples (rule R133). -/
theorem tapMagnitude_headroom {h : List Int} (hr : ∀ v ∈ h, -32768 ≤ v ∧ v ≤ 32767) (hn : h.length ≤ 127) :
    tapMagnitude h * 131072 + 16384 ≤ 2 ^ 39 - 1 := by
  have := tapMagnitude_le hr
  omega

section Taps
variable {c : Config} (hc : configWellFormed c = true) (st : Stage)
include hc

theorem taps_length : (taps c st).length = tapCount c st := by
  obtain ⟨-, -, h1, h2, -⟩ := (configWellFormed_iff c).mp hc
  cases st
  · exact h1
  · exact h2

theorem taps_range : ∀ v ∈ taps c st, -32768 ≤ v ∧ v ≤ 32767 := by
  obtain ⟨-, -, -, -, -, -, -, h1, h2, -⟩ := (configWellFormed_iff c).mp hc
  cases st
  · exact h1
  · exact h2

end Taps

/-- Settles O25: the taps are in range, so `tapMagnitude_headroom` applies. -/
theorem firNominalSignalHasHeadroom : Obligations.FirNominalSignalHasHeadroom := by
  intro c st hc hn
  have hroom := tapMagnitude_headroom (taps_range hc st) (by rwa [taps_length hc])
  have hnonneg := tapMagnitude_nonneg (taps c st)
  exact ⟨2 ^ 39, by omega, hroom, by omega⟩

/-! ### The statement on the output -/

/-- The slot of the `k`-th newest sample by rule R133's formula on integers. -/
theorem newestSlot_eq {slots p k : Nat} (hp : 1 ≤ p) (hk : k < slots) :
    (((p : Int) - 2 - k) % slots).toNat + 1 = newestSlot slots p k := by
  have hcast : ((p + slots - 2 - k : Nat) : Int) = (p : Int) - 2 - k + slots := by omega
  rw [newestSlot, ← Int.add_emod_right, ← hcast, ← Int.natCast_mod, Int.toNat_natCast]

/-- The checks of `fir_out` as rule R133 numbers them. -/
theorem firFits_map_range_iff {h : List Int} {nc : Nat} (hh : h.length = nc) (f : Nat → Int) :
    FirFits h ((List.range nc).map f) ↔
      (∀ j, 1 ≤ j → j ≤ nc → InAcc ((List.range j).map fun k => h.getD k 0 * f k).sum) ∧
        InAcc (((List.range nc).map fun k => h.getD k 0 * f k).sum + 16384) := by
  have hpart : ∀ j ≤ nc, convolve (h.take j) ((List.range nc).map f) = _ := fun j hj =>
    convolve_take_map_range (hh ▸ hj) hj f
  have hwhole := hpart nc le_rfl
  rw [List.take_of_length_le hh.le] at hwhole
  rw [FirFits, hwhole, SumsFit]
  refine and_congr_left fun _ => ⟨fun hfit j _ hj => ?_, fun hfit g hg => ?_⟩
  · rw [← hpart j hj, ← zero_add (convolve _ _)]
    exact hfit _ (List.take_prefix j h)
  · have hlen : g.length ≤ nc := hh ▸ hg.length_le
    rw [List.prefix_iff_eq_take.mp hg, zero_add, hpart _ hlen]
    by_cases hj : 1 ≤ g.length
    · exact hfit _ hj hlen
    · rw [show g.length = 0 by omega]
      exact inAcc_zero

/-- Settles O23: rule R133's samples are `firHistory`, its checks are `FirFits`, and `firOut_eq_ok` decides the rest. -/
theorem firOutRoundsTheConvolution : Obligations.FirOutRoundsTheConvolution := by
  refine ⟨fun nc p h dl hh hp _ => ?_, by decide, by decide, by decide, by decide⟩
  intro newest partialSum fits
  have hhist : firHistory nc dl p = (List.range nc).map newest := List.map_congr_left fun k hk => by
    rw [List.mem_range] at hk
    simp only [newest, newestSlot_eq hp (show k < nc + 2 by omega)]
  have hfits : fits ↔ FirFits h (firHistory nc dl p) := by
    rw [hhist]
    exact (firFits_map_range_iff hh newest).symm
  have hsum : convolve h (firHistory nc dl p) = partialSum nc := by
    rw [hhist]
    simpa only [List.take_of_length_le hh.le] using convolve_take_map_range hh.ge le_rfl newest
  rw [hfits, ← hsum]
  refine ⟨firOut_of_fits hh, firOut_of_not_fits hh, fun hn hr hnew => ?_⟩
  refine firFits_of_headroom (m := 131072) (by decide) (tapMagnitude_headroom hr (hh ▸ hn)) fun v hv => ?_
  rw [hhist, List.mem_map] at hv
  obtain ⟨k, hk, rfl⟩ := hv
  have := hnew k (List.mem_range.mp hk)
  exact abs_le.mpr (by omega)

end Sys2Proof.Machine
end

section
/-!
PROOFS. The FIR command as the textbook filter (rules R140, R143). What a command leaves in the buffer is `firPushes`, its
samples pushed one by one; after each push the newest samples are that sample and the earlier ones (`firHistory_firPush`). The
`m`-th output is therefore the rounded convolution with `firWindow`, the samples seen by then, wherever its checks pass, and in
headroom they do.
-/

namespace Sys2Proof.Machine

/-! ### The samples pushed one by one -/

/-- A delay buffer and its working index: the buffer has its size and the index is one of the slots. -/
def FirStateOk (slots : Nat) (r : Buffer × Nat) : Prop := r.1.length = slots + 1 ∧ 1 ≤ r.2 ∧ r.2 ≤ slots

theorem FirStateOk.firPush {slots : Nat} {r : Buffer × Nat} (h : FirStateOk slots r) (x : Sample) :
    FirStateOk slots (firPush slots x r.1 r.2) := by
  obtain ⟨hlen, hlo, hhi⟩ := h
  have hlt := Nat.mod_lt r.2 (show 0 < slots by omega)
  exact ⟨by rw [firPush_length, hlen], Nat.le_add_left 1 _, hlt⟩

/-- The samples pushed in order, from a buffer and its working index (rule R132). -/
def firPushes (slots : Nat) (x : List Sample) (r : Buffer × Nat) : Buffer × Nat :=
  x.foldl (fun r v => firPush slots v r.1 r.2) r

@[simp] theorem firPushes_nil (slots : Nat) (r : Buffer × Nat) : firPushes slots [] r = r := rfl

@[simp] theorem firPushes_cons (slots : Nat) (v : Sample) (x : List Sample) (r : Buffer × Nat) :
    firPushes slots (v :: x) r = firPushes slots x (firPush slots v r.1 r.2) := rfl

theorem FirStateOk.firPushes {slots : Nat} {r : Buffer × Nat} (h : FirStateOk slots r) (x : List Sample) :
    FirStateOk slots (firPushes slots x r) := by
  induction x generalizing r with
  | nil => exact h
  | cons v x ih => exact ih (h.firPush v)

/-- The index moves on one slot for each sample (rule R143). -/
theorem firPushes_index {slots : Nat} {r : Buffer × Nat} (h : FirStateOk slots r) (x : List Sample) :
    (firPushes slots x r).2 = (r.2 - 1 + x.length) % slots + 1 := by
  obtain ⟨-, hlo, hhi⟩ := id h
  induction x generalizing r with
  | nil =>
    rw [firPushes_nil, List.length_nil, add_zero, Nat.mod_eq_of_lt (by omega)]
    omega
  | cons v x ih =>
    obtain ⟨-, hlo', hhi'⟩ := id (h.firPush v)
    rw [firPushes_cons, ih (h.firPush v) hlo' hhi', firPush, Nat.add_sub_cancel, Nat.mod_add_mod, List.length_cons]
    congr 2
    omega

theorem cellsWithin_setCell {m : Int} {b : Buffer} {v : Cell} (hb : CellsWithin m b) (hv : Within m v) (j : Nat) :
    CellsWithin m (setCell b j v) := by
  intro w hw
  cases b with
  | nil => exact hb w hw
  | cons a b =>
    cases j with
    | zero => exact hb w hw
    | succ j =>
      obtain hw | rfl := List.mem_or_eq_of_mem_set hw
      · exact hb w hw
      · exact hv

/-- The index cell is no sample cell. -/
theorem cellsWithin_setCell_zero {m : Int} {b : Buffer} (hb : CellsWithin m b) (v : Cell) :
    CellsWithin m (setCell b 0 v) := by
  cases b <;> exact hb

theorem firPushes_cellsWithin {m : Int} {slots : Nat} {r : Buffer × Nat} {x : List Sample} (hr : CellsWithin m r.1)
    (hx : ∀ v ∈ x, Within m v) : CellsWithin m (firPushes slots x r).1 := by
  induction x generalizing r with
  | nil => exact hr
  | cons v x ih =>
    obtain ⟨hv, hx⟩ := List.forall_mem_cons.mp hx
    exact ih (cellsWithin_setCell hr hv r.2) hx

/-! ### The newest samples (rule R133) -/

section Slots
variable {slots p : Nat} (hp : 1 ≤ p ∧ p ≤ slots)
include hp

/-- The newest sample stands where the last push put it. -/
theorem newestSlot_next_zero (hs : 2 ≤ slots) : newestSlot slots (p % slots + 1) 0 = p := by
  rw [slot_succ hp.2, newestSlot]
  split
  · rw [Nat.mod_eq_of_lt (by omega)]
    omega
  · rw [show p + 1 + slots - 2 - 0 = p - 1 + slots by omega, Nat.add_mod_right, Nat.mod_eq_of_lt (by omega)]
    omega

/-- Every other sample has become one older. -/
theorem newestSlot_next_succ {k : Nat} (hk : k + 1 < slots) :
    newestSlot slots (p % slots + 1) (k + 1) = newestSlot slots p k := by
  rw [slot_succ hp.2, newestSlot, newestSlot]
  split
  · rw [show p + slots - 2 - k = 1 + slots - 2 - (k + 1) + slots by omega, Nat.add_mod_right]
  · congr 2
    omega

/-- The oldest slot, where the next push goes, holds none of the samples still needed. -/
theorem newestSlot_ne {k : Nat} (hk : k + 1 < slots) : newestSlot slots p k ≠ p := by
  rw [newestSlot]
  by_cases hlt : p + slots - 2 - k < slots
  · rw [Nat.mod_eq_of_lt hlt]
    omega
  · rw [Nat.mod_eq_sub_mod (by omega), Nat.mod_eq_of_lt (by omega)]
    omega

end Slots

theorem getElem_firHistory {nc : Nat} {dl : Buffer} {p k : Nat} (hk : k < (firHistory nc dl p).length) :
    (firHistory nc dl p)[k] = (cellAt dl (newestSlot (nc + 2) p k)).toInt := by
  simp [firHistory]

@[simp] theorem firHistory_length (nc : Nat) (dl : Buffer) (p : Nat) : (firHistory nc dl p).length = nc := by
  simp [firHistory]

/-- After a push the newest samples are that sample and the earlier ones. -/
theorem firHistory_firPush {nc : Nat} {r : Buffer × Nat} (h : FirStateOk (nc + 2) r) (x : Sample) :
    firHistory nc (firPush (nc + 2) x r.1 r.2).1 (firPush (nc + 2) x r.1 r.2).2 =
      (x.toInt :: firHistory nc r.1 r.2).take nc := by
  obtain ⟨hlen, hp⟩ := h
  refine List.ext_getElem (by simp) fun k hk _ => ?_
  rw [firHistory_length] at hk
  rw [getElem_firHistory, List.getElem_take, firPush]
  cases k with
  | zero => rw [newestSlot_next_zero hp (by omega), cellAt_setCell_self x (by omega), List.getElem_cons_zero]
  | succ k =>
    rw [newestSlot_next_succ hp (by omega), cellAt_setCell_of_ne x (newestSlot_ne hp (by omega)).symm,
      List.getElem_cons_succ, getElem_firHistory]

/-- Of a longer history only the newest samples are kept. -/
theorem take_append_take {α : Type} (n : Nat) (a b : List α) : (a ++ b.take n).take n = (a ++ b).take n := by
  simp [List.take_append, List.take_take]

theorem firHistory_firPushes {nc : Nat} {r : Buffer × Nat} (h : FirStateOk (nc + 2) r) (x : List Sample) :
    firHistory nc (firPushes (nc + 2) x r).1 (firPushes (nc + 2) x r).2 =
      ((x.map BitVec.toInt).reverse ++ firHistory nc r.1 r.2).take nc := by
  induction x generalizing r with
  | nil => rw [firPushes_nil, List.map_nil, List.reverse_nil, List.nil_append, List.take_of_length_le (by simp)]
  | cons v x ih =>
    rw [firPushes_cons, ih (h.firPush v), firHistory_firPush h, take_append_take, List.map_cons, List.reverse_cons,
      List.append_assoc, List.singleton_append]

/-- The index cell is not among the samples. -/
theorem firHistory_setCell_zero (nc : Nat) (dl : Buffer) (v : Cell) (p : Nat) :
    firHistory nc (setCell dl 0 v) p = firHistory nc dl p :=
  List.map_congr_left fun _ _ => congrArg BitVec.toInt (cellAt_setCell_of_ne v (Nat.succ_ne_zero _).symm)

theorem cellAt_mem_tail {b : Buffer} {j : Nat} (hj : j + 1 < b.length) : cellAt b (j + 1) ∈ b.tail := by
  have hj' : j < b.tail.length := by rw [List.length_tail]; omega
  rw [cellAt, List.getD_eq_getElem _ _ hj, ← List.getElem_tail hj']
  exact List.getElem_mem hj'

theorem abs_le_of_mem_firHistory {m : Int} {nc p : Nat} {dl : Buffer} (hdl : dl.length = nc + 3) (hb : CellsWithin m dl) :
    ∀ v ∈ firHistory nc dl p, |v| ≤ m := by
  intro v hv
  obtain ⟨k, -, rfl⟩ := List.mem_map.mp hv
  have hlt := Nat.mod_lt (p + (nc + 2) - 2 - k) (show 0 < nc + 2 by omega)
  exact abs_le.mpr (hb _ (cellAt_mem_tail (by omega)))

/-! ### The textbook filter's windows -/

/-- The samples seen when the `m`-th output is computed, the newest first: `h[t], h[t - 1], ...` at `t = 2m + 1` (rule R140). -/
def firWindow (hist : List Int) (x : List Sample) (m : Nat) : List Int :=
  ((x.take (2 * m + 2)).map BitVec.toInt).reverse ++ hist

theorem firWindow_cons_cons_zero (hist : List Int) (x0 x1 : Sample) (x : List Sample) :
    firWindow hist (x0 :: x1 :: x) 0 = x1.toInt :: x0.toInt :: hist := rfl

theorem firWindow_cons_cons_succ (hist : List Int) (x0 x1 : Sample) (x : List Sample) (m : Nat) :
    firWindow hist (x0 :: x1 :: x) (m + 1) = firWindow (x1.toInt :: x0.toInt :: hist) x m := by
  simp [firWindow, Nat.mul_add]

theorem length_cons_cons_div_two (x0 x1 : Sample) (x : List Sample) :
    (x0 :: x1 :: x).length / 2 = x.length / 2 + 1 := Nat.add_div_right x.length two_pos

theorem even_length_of_cons_cons {x0 x1 : Sample} {x : List Sample} (h : (x0 :: x1 :: x).length % 2 = 0) :
    x.length % 2 = 0 := (Nat.add_mod_right x.length 2).symm.trans h

/-- The textbook filter's outputs, each as the rounded convolution with its window. -/
theorem firTextbook_eq_map (h hist : List Int) (x : List Sample) :
    firTextbook h hist x = (List.range (x.length / 2)).map fun m => rndShr (convolve h (firWindow hist x m)) 15 := by
  induction x using List.twoStepInduction generalizing hist with
  | nil => rfl
  | singleton => simp [firTextbook]
  | cons_cons x0 x1 x ih =>
    rw [firTextbook, ih, length_cons_cons_div_two, List.range_succ_eq_map, List.map_cons, List.map_map]
    simp only [Function.comp_def, firWindow_cons_cons_zero, firWindow_cons_cons_succ]

theorem abs_le_of_mem_firWindow {m : Int} {hist : List Int} {x : List Sample} {k : Nat} (hh : ∀ v ∈ hist, |v| ≤ m)
    (hx : ∀ v ∈ x, Within m v) : ∀ v ∈ firWindow hist x k, |v| ≤ m := by
  intro v hv
  obtain hv | hv := List.mem_append.mp hv
  · obtain ⟨w, hw, rfl⟩ := List.mem_map.mp (List.mem_reverse.mp hv)
    exact abs_le.mpr (hx w (List.mem_of_mem_take hw))
  · exact hh v hv

/-! ### The loop (rule R140) -/

/-- What the loop leaves in the buffer does not depend on the taps: it is the samples pushed. -/
theorem firLoop_eq_firPushes {slots : Nat} {h : List Int} {x : List Sample} {dl : Buffer} {p : Nat}
    {r : List Sample × Buffer × Nat} (hx : x.length % 2 = 0) (hr : firLoop slots h x dl p = .ok r) :
    r.2 = firPushes slots x (dl, p) := by
  induction x using List.twoStepInduction generalizing dl p r with
  | nil =>
    cases hr
    rfl
  | singleton => cases hx
  | cons_cons x0 x1 x ih =>
    obtain ⟨y, ys, -, hloop, -⟩ := firLoop_cons_cons_eq_ok.mp hr
    exact ih (r := (ys, r.2)) (even_length_of_cons_cons hx) hloop

theorem firFits_take {h : List Int} {n : Nat} (hn : h.length ≤ n) (hist : List Int) :
    FirFits h (hist.take n) ↔ FirFits h hist := by
  have hsums : SumsFit 0 h (hist.take n) ↔ SumsFit 0 h hist := forall₂_congr fun g hg => by
    rw [convolve_take (hg.length_le.trans hn)]
  rw [FirFits, FirFits, hsums, convolve_take hn]

/-- Where the checks of every output pass, the loop completes and is the textbook filter. -/
theorem firLoop_of_fits {nc : Nat} {h : List Int} (hh : h.length = nc) {x : List Sample} {r : Buffer × Nat}
    {hist : List Int} (hx : x.length % 2 = 0) (hok : FirStateOk (nc + 2) r)
    (hhist : firHistory nc r.1 r.2 = hist.take nc) (hfit : ∀ m < x.length / 2, FirFits h (firWindow hist x m)) :
    ∃ out, firLoop (nc + 2) h x r.1 r.2 = .ok (out, firPushes (nc + 2) x r) ∧
      out.map BitVec.toInt = firTextbook h hist x := by
  induction x using List.twoStepInduction generalizing r hist with
  | nil => exact ⟨[], rfl, rfl⟩
  | singleton => cases hx
  | cons_cons x0 x1 x ih =>
    rw [length_cons_cons_div_two, Nat.forall_lt_succ_left] at hfit
    obtain ⟨hfit0, hfit⟩ := hfit
    simp only [firWindow_cons_cons_zero, firWindow_cons_cons_succ] at hfit0 hfit
    have hok' : FirStateOk (nc + 2) (firPushes (nc + 2) [x0, x1] r) := hok.firPushes _
    have hhist' : firHistory nc (firPushes (nc + 2) [x0, x1] r).1 (firPushes (nc + 2) [x0, x1] r).2 =
        (x1.toInt :: x0.toInt :: hist).take nc := by
      rw [firHistory_firPushes hok, hhist, take_append_take]
      rfl
    obtain ⟨y, hy, hyv⟩ := firOut_of_fits hh (hhist' ▸ (firFits_take hh.le _).mpr hfit0)
    obtain ⟨ys, hys, hysv⟩ := ih (even_length_of_cons_cons hx) hok' hhist' hfit
    refine ⟨y :: ys, firLoop_cons_cons_eq_ok.mpr ⟨y, ys, hy, hys, rfl⟩, ?_⟩
    rw [List.map_cons, hyv, hysv, hhist', convolve_take hh.le, firTextbook]

/-! ### The command (rules R140, R143) -/

/-- The delay buffer after a command: the samples pushed and the index written back. -/
def firWritten (nc : Nat) (x : List Sample) (dl : Buffer) : Buffer :=
  setCell (firPushes (nc + 2) x (dl, indexOf dl)).1 0 (BitVec.ofNat 32 (firPushes (nc + 2) x (dl, indexOf dl)).2)

section Command
variable {nc : Nat} {dl : Buffer} (hdl : BufferOk (nc + 2) dl)
include hdl

theorem firStateOk_of_bufferOk : FirStateOk (nc + 2) (dl, indexOf dl) :=
  ⟨hdl.1, startIndex_range (by omega) (startIndex_of_bufferOk hdl)⟩

theorem firWritten_length (x : List Sample) : (firWritten nc x dl).length = nc + 3 := by
  rw [firWritten, setCell_length]
  exact ((firStateOk_of_bufferOk hdl).firPushes x).1

/-- Where the checks of every output pass, the command completes and is the textbook filter. -/
theorem firCommand_of_fits {h : List Int} (hh : h.length = nc) (hnc : nc + 2 ≤ 2 ^ 31 - 1) {x : List Sample}
    (hx : x.length % 2 = 0)
    (hfit : ∀ m < x.length / 2, FirFits h (firWindow (firHistory nc dl (indexOf dl)) x m)) :
    ∃ out, firCommand nc h x dl = .ok (out, firWritten nc x dl) ∧
      out.map BitVec.toInt = firTextbook h (firHistory nc dl (indexOf dl)) x := by
  have hok := firStateOk_of_bufferOk hdl
  obtain ⟨out, hloop, hout⟩ := firLoop_of_fits hh hx hok (List.take_of_length_le (by simp)).symm hfit
  obtain ⟨-, -, hle⟩ := hok.firPushes x
  have hstore : storeIndex (firPushes (nc + 2) x (dl, indexOf dl)).2 (firPushes (nc + 2) x (dl, indexOf dl)).1 =
      .ok (firWritten nc x dl) := storeIndex_eq_ok.mpr ⟨by omega, rfl⟩
  exact ⟨out, firCommand_eq_ok.mpr ⟨hx, hdl.1, _, _, _, startIndex_of_bufferOk hdl, hloop, hstore⟩, hout⟩

section Written
variable (hnc : nc + 2 ≤ 2 ^ 31 - 1) (x : List Sample)
include hnc

/-- The index after a command (rule R143). -/
theorem firWritten_index :
    (cellAt (firWritten nc x dl) 0).toInt = (firPushes (nc + 2) x (dl, indexOf dl)).2 := by
  obtain ⟨hlen, -, hle⟩ := (firStateOk_of_bufferOk hdl).firPushes x
  exact (storeIndex_toInt (by omega) (storeIndex_eq_ok.mpr ⟨by omega, rfl⟩)).1

theorem indexOf_firWritten : indexOf (firWritten nc x dl) = (firPushes (nc + 2) x (dl, indexOf dl)).2 := by
  obtain ⟨-, hlo, -⟩ := (firStateOk_of_bufferOk hdl).firPushes x
  rw [indexOf, firWritten_index hdl hnc, if_neg (by omega), Int.toNat_natCast]

/-- The newest samples after a command are its own, followed by the earlier ones. -/
theorem firHistory_firWritten :
    firHistory nc (firWritten nc x dl) (indexOf (firWritten nc x dl)) =
      ((x.map BitVec.toInt).reverse ++ firHistory nc dl (indexOf dl)).take nc := by
  rw [indexOf_firWritten hdl hnc, firWritten, firHistory_setCell_zero,
    firHistory_firPushes (firStateOk_of_bufferOk hdl)]

end Written
end Command

/-! ### The command in headroom (rule R270) -/

/-- An output of a filter in headroom is as small as the headroom says. -/
theorem abs_rndShr_convolve_le {h hist : List Int} {m y : Int} (hroom : FirHeadroom h m y) (hb : ∀ v ∈ hist, |v| ≤ m) :
    |rndShr (convolve h hist) 15| ≤ y := by
  obtain ⟨hm, -, hy⟩ := hroom
  have hconv := abs_le.mp (abs_convolve_le hm h hb)
  have hround := rndShr_bounds (convolve h hist) (s := 15) (by decide)
  rw [abs_le]
  omega

/-- In headroom the command completes, is the textbook filter, and keeps both the outputs and the buffer bounded. -/
theorem firCommand_of_headroom {nc : Nat} {h : List Int} {x : List Sample} {dl : Buffer} {m y : Int}
    (hdl : BufferOk (nc + 2) dl) (hh : h.length = nc) (hnc : nc + 2 ≤ 2 ^ 31 - 1) (hx : x.length % 2 = 0)
    (hroom : FirHeadroom h m y) (hcells : CellsWithin m dl) (hxm : ∀ v ∈ x, Within m v) :
    ∃ out, firCommand nc h x dl = .ok (out, firWritten nc x dl) ∧
      out.map BitVec.toInt = firTextbook h (firHistory nc dl (indexOf dl)) x ∧
      (∀ v ∈ out, Within y v) ∧ CellsWithin m (firWritten nc x dl) := by
  have hwindow : ∀ k, ∀ v ∈ firWindow (firHistory nc dl (indexOf dl)) x k, |v| ≤ m := fun k =>
    abs_le_of_mem_firWindow (abs_le_of_mem_firHistory hdl.1 hcells) hxm
  obtain ⟨hm, hacc, -⟩ := id hroom
  obtain ⟨out, hcmd, hout⟩ := firCommand_of_fits hdl hh hnc hx fun k _ => firFits_of_headroom hm hacc (hwindow k)
  refine ⟨out, hcmd, hout, fun v hv => ?_, cellsWithin_setCell_zero (firPushes_cellsWithin hcells hxm) _⟩
  have hmem : v.toInt ∈ out.map BitVec.toInt := List.mem_map_of_mem hv
  rw [hout, firTextbook_eq_map, List.mem_map] at hmem
  obtain ⟨k, -, hk⟩ := hmem
  rw [Within, ← abs_le, ← hk]
  exact abs_rndShr_convolve_le hroom (hwindow k)

/-- `FIR` with its operands completes when its computation does. -/
theorem exec_fir_of_firCommand {s : State} {st : Stage} {ch : Chan} {len : Nat} {x y : List Sample} {dl : Buffer}
    (hc : configWellFormed s.config = true) (ho : s.operands = .samples x) (hx : x.length = len)
    (hcmd : firCommand (tapCount s.config st) (taps s.config st) x ((s.lane ch).fir st) = .ok (y, dl)) :
    exec (.fir st ch len) s = .next ((s.setLane ch ((s.lane ch).setFir st dl)).answer (.samples y)) :=
  execFir_eq_next.mpr ⟨hc, x, y, dl, ho, hx, hcmd, rfl⟩

theorem tapCount_fits {c : Config} (h : IndicesFit c) (st : Stage) : tapCount c st + 2 ≤ 2 ^ 31 - 1 := by
  obtain ⟨h1, h2, -⟩ := h
  cases st
  · exact h1
  · exact h2

/-- Settles O26: the command on the buffer by `firCommand_of_headroom`, and what it leaves there by the lemmas on
`firWritten`. -/
theorem firCommandIsTheTextbookFilter : Obligations.FirCommandIsTheTextbookFilter := by
  intro s st ch len x m y hs hfits ho hx heven hroom hcells hxm
  obtain ⟨hc, hl⟩ := inv_iff.mp hs
  have hdl := laneOk_fir (hl ch) st
  have hnc := tapCount_fits hfits st
  obtain ⟨out, hcmd, hout, hy, hm⟩ :=
    firCommand_of_headroom hdl (taps_length hc st) hnc (hx ▸ heven) hroom hcells hxm
  refine ⟨out, firWritten _ x _, exec_fir_of_firCommand hc ho hx hcmd, hout, hy, hm, firWritten_length hdl x,
    firHistory_firWritten hdl hnc x, ?_⟩
  rw [firWritten_index hdl hnc, firPushes_index (firStateOk_of_bufferOk hdl), hx]

end Sys2Proof.Machine
end

section
/-!
PROOFS. The impulse response of an FIR stage from reset (rule R144). A window of the textbook filter on an impulse is 0 but
in one place, so its convolution is one product, and so is that of every leading part of the table: the checks pass for tables
of any length.
-/

namespace Sys2Proof.Machine

/-! ### Convolution with an impulse -/

/-- The window of a single sample `v`, `j` samples ago, among `n` earlier zeros. -/
def impulseWindow (j n : Nat) (v : Int) : List Int := List.replicate j 0 ++ v :: List.replicate n 0

theorem convolve_replicate_zero (h : List Int) (n : Nat) : convolve h (List.replicate n 0) = 0 := by
  induction h generalizing n with
  | nil => rfl
  | cons a h ih =>
    cases n with
    | zero => rfl
    | succ n => rw [List.replicate_succ, convolve_cons, ih, mul_zero, add_zero]

theorem convolve_impulseWindow (h : List Int) (j n : Nat) (v : Int) :
    convolve h (impulseWindow j n v) = h.getD j 0 * v := by
  induction h generalizing j with
  | nil => simp
  | cons a h ih =>
    cases j with
    | zero =>
      rw [impulseWindow, List.replicate_zero, List.nil_append, convolve_cons, convolve_replicate_zero, add_zero]
      rfl
    | succ j => simpa [impulseWindow, List.replicate_succ] using ih j

/-- A coefficient in range, or the 0 past the table. -/
theorem getD_range {h : List Int} (hr : ∀ v ∈ h, -32768 ≤ v ∧ v ≤ 32767) (j : Nat) :
    -32768 ≤ h.getD j 0 ∧ h.getD j 0 ≤ 32767 := by
  by_cases hj : j < h.length
  · rw [List.getD_eq_getElem _ _ hj]
    exact hr _ (List.getElem_mem hj)
  · rw [List.getD_eq_default _ _ (by omega)]
    decide

/-- Each sum is a coefficient times 1.0. -/
theorem firFits_impulseWindow {h : List Int} (hr : ∀ v ∈ h, -32768 ≤ v ∧ v ≤ 32767) (j n : Nat) :
    FirFits h (impulseWindow j n 65536) := by
  refine ⟨fun g hg => ?_, ?_⟩
  · have := getD_range (fun v hv => hr v (hg.subset hv)) j
    rw [convolve_impulseWindow]
    omega
  · have := getD_range hr j
    rw [convolve_impulseWindow]
    omega

/-- Exact, "because `(H * 65536 + 16384) >> 15 = 2*H`" (rule R144). -/
theorem rndShr_mul_one (c : Int) : rndShr (c * 65536) 15 = 2 * c := by
  rw [rndShr, asr]
  omega

/-! ### The command from reset -/

@[simp] theorem cellAt_replicate_zero (n j : Nat) : cellAt (List.replicate n 0) j = 0 := by
  rw [cellAt, List.getD, List.getElem?_replicate]
  split <;> rfl

theorem firHistory_replicate_zero (nc n p : Nat) : firHistory nc (List.replicate n 0) p = List.replicate nc 0 := by
  refine List.eq_replicate_iff.mpr ⟨firHistory_length .., fun v hv => ?_⟩
  obtain ⟨k, -, rfl⟩ := List.mem_map.mp hv
  rw [cellAt_replicate_zero]
  rfl

/-- An impulse of 1.0 at position `i` of `len` samples. -/
def impulseAt (i len : Nat) : List Sample := List.replicate i 0 ++ 65536 :: List.replicate (len - 1 - i) 0

/-- After both samples of the `m`-th pair, an impulse in the first pair is `2m + 1 - i` samples old. -/
theorem firWindow_impulseAt {i m len : Nat} (hi : i ≤ 1) (hm : m < len / 2) (nc : Nat) :
    firWindow (List.replicate nc 0) (impulseAt i len) m = impulseWindow (2 * m + 1 - i) (i + nc) 65536 := by
  have htake : (impulseAt i len).take (2 * m + 2) =
      List.replicate i 0 ++ 65536 :: List.replicate (2 * m + 1 - i) 0 := by
    rw [impulseAt, List.take_append, List.take_replicate, List.length_replicate, Nat.min_eq_right (by omega),
      show 2 * m + 2 - i = 2 * m + 1 - i + 1 by omega, List.take_succ_cons, List.take_replicate,
      Nat.min_eq_left (by omega)]
  rw [firWindow, htake, List.map_append, List.map_cons, List.map_replicate, List.map_replicate, List.reverse_append,
    List.reverse_cons, List.reverse_replicate, List.reverse_replicate, impulseWindow, List.replicate_add]
  simp only [List.append_assoc, List.cons_append]
  rfl

/-- The impulse response, for an impulse in the first pair. -/
theorem exec_fir_impulseAt {s : State} {st : Stage} {ch : Chan} {len i : Nat} (hc : configWellFormed s.config = true)
    (hfits : IndicesFit s.config) (hreset : (s.lane ch).fir st = List.replicate (tapCount s.config st + 3) 0)
    (heven : len % 2 = 0) (hlen : 2 ≤ len) (hi : i ≤ 1) (ho : s.operands = .samples (impulseAt i len)) :
    ∃ t y, exec (.fir st ch len) s = .next t ∧ t.outputs = s.outputs ++ [.samples y] ∧ y.length = len / 2 ∧
      ∀ m, m < len / 2 → (y.getD m 0).toInt = 2 * (taps s.config st).getD (2 * m + 1 - i) 0 := by
  have hx : (impulseAt i len).length = len := by simp [impulseAt]; omega
  have hdl : BufferOk (tapCount s.config st + 2) ((s.lane ch).fir st) := hreset ▸ bufferOk_replicate_zero _
  have hhist : firHistory (tapCount s.config st) ((s.lane ch).fir st) (indexOf ((s.lane ch).fir st)) =
      List.replicate (tapCount s.config st) 0 := by
    rw [hreset, firHistory_replicate_zero]
  obtain ⟨y, hcmd, hy⟩ := firCommand_of_fits hdl (taps_length hc st) (tapCount_fits hfits st) (hx ▸ heven)
    fun m hm => by
      rw [hhist, firWindow_impulseAt hi (hx ▸ hm)]
      exact firFits_impulseWindow (taps_range hc st) _ _
  rw [hhist, firTextbook_eq_map, hx] at hy
  have hylen : y.length = len / 2 := by simpa using congrArg List.length hy
  refine ⟨_, y, exec_fir_of_firCommand hc ho hx hcmd, by simp, hylen, fun m hm => ?_⟩
  calc (y.getD m 0).toInt = (y.map BitVec.toInt).getD m 0 := (List.getD_map ..).symm
    _ = rndShr (convolve (taps s.config st) (impulseWindow (2 * m + 1 - i) (i + tapCount s.config st) 65536)) 15 := by
      rw [hy, ← firWindow_impulseAt hi hm]
      simp [hm]
    _ = 2 * (taps s.config st).getD (2 * m + 1 - i) 0 := by rw [convolve_impulseWindow, rndShr_mul_one]

/-- Settles O28: `exec_fir_impulseAt` at position 0 and at position 1. -/
theorem firImpulseShowsEveryOtherTap : Obligations.FirImpulseShowsEveryOtherTap :=
  fun _ _ _ _ hc hfits hreset heven hlen =>
    ⟨exec_fir_impulseAt hc hfits hreset heven hlen (i := 0) (by decide),
      exec_fir_impulseAt hc hfits hreset heven hlen (i := 1) (by decide)⟩

end Sys2Proof.Machine
end

section
/-!
PROOFS. FIR commands in turn (rule R141). The loop over a joined sequence is the loop over its even part and then over the rest
(`firLoop_append`), and the stored index hands the working index on from one command to the next (`startIndex_storeIndex`).
-/

namespace Sys2Proof.Machine

/-! ### The computation -/

/-- The loop over a joined sequence, its first part even. -/
theorem firLoop_append {slots : Nat} {h : List Int} {x1 x2 : List Sample} {dl : Buffer} {p : Nat}
    {r1 r2 : List Sample × Buffer × Nat} (hx : x1.length % 2 = 0) (h1 : firLoop slots h x1 dl p = .ok r1)
    (h2 : firLoop slots h x2 r1.2.1 r1.2.2 = .ok r2) : firLoop slots h (x1 ++ x2) dl p = .ok (r1.1 ++ r2.1, r2.2) := by
  induction x1 using List.twoStepInduction generalizing dl p r1 with
  | nil =>
    cases h1
    exact h2
  | singleton => cases hx
  | cons_cons a b x1 ih =>
    obtain ⟨y, ys, hy, hloop, hr⟩ := firLoop_cons_cons_eq_ok.mp h1
    have hrest := ih (r1 := (ys, r1.2)) (even_length_of_cons_cons hx) hloop h2
    exact firLoop_cons_cons_eq_ok.mpr ⟨y, ys ++ r2.1, hy, hrest, by rw [hr, List.cons_append]⟩

/-- The index a command has written back is the one the next command starts from. -/
theorem startIndex_storeIndex {slots p : Nat} {b b' : Buffer} (hb : 0 < b.length) (hp : 1 ≤ p ∧ p ≤ slots)
    (h : storeIndex p b = .ok b') : startIndex slots b' = .ok p := by
  obtain ⟨hread, -⟩ := storeIndex_toInt hb h
  exact startIndex_eq_ok.mpr (.inr (by omega))

/-- Two commands in turn on one buffer are one command on the joined sequence. -/
theorem firCommand_append {nc : Nat} {h : List Int} {x1 x2 y1 y2 : List Sample} {dl dl1 dl2 : Buffer}
    (h1 : firCommand nc h x1 dl = .ok (y1, dl1)) (h2 : firCommand nc h x2 dl1 = .ok (y2, dl2)) :
    firCommand nc h (x1 ++ x2) dl = .ok (y1 ++ y2, dl2) := by
  obtain ⟨hx1, hdl, p, d1, p1, hp, hloop1, hst1⟩ := firCommand_eq_ok.mp h1
  obtain ⟨hx2, -, q, d2, p2, hq, hloop2, hst2⟩ := firCommand_eq_ok.mp h2
  obtain ⟨-, hlen, hp1⟩ := firLoop_shape (by omega) (startIndex_range (by omega) hp) hloop1
  dsimp only at hlen hp1
  cases hq.symm.trans (startIndex_storeIndex (by omega) hp1 hst1)
  obtain ⟨-, rfl⟩ := storeIndex_eq_ok.mp hst1
  rw [firLoop_setCell_zero _ hp1.1] at hloop2
  cases hloop : firLoop (nc + 2) h x2 d1 p1 with
  | error e => rw [hloop] at hloop2; cases hloop2
  | ok r =>
    rw [hloop] at hloop2
    cases hloop2
    refine firCommand_eq_ok.mpr ⟨by rw [List.length_append]; omega, hdl, p, r.2.1, r.2.2, hp,
      firLoop_append hx1 hloop1 hloop, ?_⟩
    rwa [storeIndex_setCell_zero] at hst2

theorem firOnLane_append {c : Config} {l l1 l2 : Lane} {st : Stage} {x1 x2 y1 y2 : List Sample}
    (h1 : firOnLane st c l x1 = .ok (y1, l1)) (h2 : firOnLane st c l1 x2 = .ok (y2, l2)) :
    firOnLane st c l (x1 ++ x2) = .ok (y1 ++ y2, l2) := by
  obtain ⟨⟨_, dl1⟩, hcmd1, h1⟩ := Exec.bind_eq_ok.mp h1
  cases h1
  obtain ⟨⟨_, dl2⟩, hcmd2, h2⟩ := Exec.bind_eq_ok.mp h2
  cases h2
  rw [setFir_fir] at hcmd2
  rw [firOnLane, firCommand_append hcmd1 hcmd2, Exec.ok_bind, setFir_setFir]

/-! ### The command -/

/-- The computation on a joined sequence does what it does on the parts in turn. -/
def Streams (f : LaneComputation) : Prop :=
  ∀ {c l l1 l2 x1 x2 y1 y2}, f c l x1 = .ok (y1, l1) → f c l1 x2 = .ok (y2, l2) → f c l (x1 ++ x2) = .ok (y1 ++ y2, l2)

/-- A command with a lane select whose computation streams gives on a joined sequence what it gives on the parts in turn. -/
theorem onLane_streams {f : LaneComputation} (hf : Streams f) {ch : Chan} {s t1 t2 : State} {x1 x2 : List Sample}
    (h1 : onLane ch x1.length f { s with operands := .samples x1 } = .next t1)
    (h2 : onLane ch x2.length f { t1 with operands := .samples x2 } = .next t2) :
    ∃ t y1 y2, onLane ch (x1.length + x2.length) f { s with operands := .samples (x1 ++ x2) } = .next t ∧
      t.left = t2.left ∧ t.right = t2.right ∧
      t2.outputs = s.outputs ++ [.samples y1, .samples y2] ∧ t.outputs = s.outputs ++ [.samples (y1 ++ y2)] := by
  obtain ⟨hc, _, y1, l1, ⟨⟩, -, hf1, rfl⟩ := onLane_eq_next.mp h1
  obtain ⟨-, _, y2, l2, ⟨⟩, -, hf2, rfl⟩ := onLane_eq_next.mp h2
  have hf12 : f s.config (s.lane ch) (x1 ++ x2) = .ok (y1 ++ y2, l2) := hf hf1 (by cases ch <;> exact hf2)
  refine ⟨_, y1, y2, onLane_eq_next.mpr ⟨hc, _, _, l2, rfl, List.length_append, hf12, rfl⟩, ?_, ?_, ?_, ?_⟩
  · cases ch <;> rfl
  · cases ch <;> rfl
  · simp
  · simp

/-- Settles O27: the computation of `FIR` streams (`firOnLane_append`). -/
theorem firStreamsAcrossCommands : Obligations.FirStreamsAcrossCommands := by
  intro s st ch x1 x2 t1 t2 _ _ h1 h2
  rw [exec_fir_eq_onLane] at h1 h2
  simp only [exec_fir_eq_onLane]
  exact onLane_streams firOnLane_append h1 h2

end Sys2Proof.Machine
end

section
/-!
PROOFS. The arithmetic of the IIR unit: the input gain (rule R163) and the sections of both forms (rules R170, R180). All are
made of one computation, `roundedCell`: accumulator values are checked in order, and then a sum is rounded into a cell.
-/

namespace Sys2Proof.Machine

/-! ### A rounded sum and its checks -/

/-- The accumulator values are checked in order; then `v` is rounded by `s` bits and stored. -/
def roundedCell (v : Int) (s : Nat) : List Int → Exec Cell
  | [] => store32 (rndShr v s)
  | a :: checks => do
    let _ ← acc40 a
    roundedCell v s checks

/-- What follows a check sees the value checked, or is not reached. -/
theorem acc40_bind {β : Type} (v : Int) (f : Int → Exec β) :
    (acc40 v >>= f) = if InAcc v then f v else undefined .acc40 := by
  unfold acc40
  split <;> rfl

/-- Rule R163 as one rounded sum. -/
theorem iirGain_eq_roundedCell (g : Nat) (x : Sample) :
    iirGain g x = roundedCell (g * x.toInt) 16 [g * x.toInt, g * x.toInt + 32768] := by
  simp only [iirGain, roundedCell, acc40_bind]
  rfl

/-- Rule R180 as one rounded sum. -/
theorem df1Section_eq_roundedCell (s : Nat) (b : Biquad) (u x1 x2 y1 y2 : Sample) :
    df1Section s b u x1 x2 y1 y2 =
      let c1 := b.b0 * u.toInt
      let c2 := c1 + b.b1 * x1.toInt
      let c3 := c2 + b.b2 * x2.toInt
      let c4 := c3 - b.a1 * y1.toInt
      let c5 := c4 - b.a2 * y2.toInt
      roundedCell c5 s [c1, c2, c3, c4, c5, c5 + 2 ^ (s - 1)] := by
  simp only [df1Section, roundedCell, acc40_bind, rndShr]

/-- The first sum of rule R170: the new delay value `d(n)`. -/
def df2Delay (s : Nat) (b : Biquad) (u d1 d2 : Sample) : Exec Cell :=
  let a1 := u.toInt * 2 ^ s
  let a2 := a1 - b.a1 * d1.toInt
  let a3 := a2 - b.a2 * d2.toInt
  roundedCell a3 s [a1, a2, a3, a3 + 2 ^ (s - 1)]

/-- The second sum of rule R170: the output `y(n)`, from `d(n)` and the two delay values. -/
def df2Output (s : Nat) (b : Biquad) (dn d1 d2 : Sample) : Exec Sample :=
  let c1 := b.b0 * dn.toInt
  let c2 := c1 + b.b1 * d1.toInt
  let c3 := c2 + b.b2 * d2.toInt
  roundedCell c3 s [c1, c2, c3, c3 + 2 ^ (s - 1)]

/-- Rule R170 as two rounded sums, one after the other. -/
theorem df2Section_eq (s : Nat) (b : Biquad) (u d1 d2 : Sample) :
    df2Section s b u d1 d2 = (do
      let dn ← df2Delay s b u d1 d2
      let y ← df2Output s b dn d1 d2
      .ok (y, dn)) := by
  simp only [df2Section, df2Delay, df2Output, roundedCell, bind_assoc]
  simp only [acc40_bind, rndShr]

section RoundedCell
variable {v : Int} {s : Nat} {checks : List Int}

theorem roundedCell_of_fits (hc : checks.Forall InAcc) : roundedCell v s checks = store32 (rndShr v s) := by
  induction checks with
  | nil => rfl
  | cons a checks ih =>
    obtain ⟨ha, hc⟩ := (List.forall_cons ..).mp hc
    rw [roundedCell, acc40_of_range ha, Exec.ok_bind, ih hc]

theorem roundedCell_of_not_fits (hc : ¬checks.Forall InAcc) : roundedCell v s checks = undefined .acc40 := by
  induction checks with
  | nil => exact absurd trivial hc
  | cons a checks ih =>
    rw [roundedCell, acc40_bind]
    split
    · rename_i ha
      exact ih fun hrest => hc ((List.forall_cons ..).mpr ⟨ha, hrest⟩)
    · rfl

theorem roundedCell_of_not_inCell (hc : checks.Forall InAcc) (hv : ¬InCell (rndShr v s)) :
    roundedCell v s checks = undefined .store32 := by
  rw [roundedCell_of_fits hc, store32_of_not_range hv]

/-- Where every check passes, the cell holds the rounded sum. -/
theorem roundedCell_of_inCell (hc : checks.Forall InAcc) (hv : InCell (rndShr v s)) :
    ∃ y, roundedCell v s checks = .ok y ∧ y.toInt = rndShr v s :=
  ⟨_, by rw [roundedCell_of_fits hc, store32_of_range hv], toInt_ofInt_of_range hv⟩

theorem toInt_of_roundedCell {y : Cell} (h : roundedCell v s checks = .ok y) : y.toInt = rndShr v s := by
  by_cases hc : checks.Forall InAcc
  · rw [roundedCell_of_fits hc, store32_eq_ok] at h
    exact h.2
  · rw [roundedCell_of_not_fits hc] at h
    exact absurd h undefined_ne_ok

end RoundedCell

/-! ### The input gain (rule R163) -/

/-- The biased product, inside 40 bits, leaves 24 bits after the shift: `U_STORE32` cannot happen. -/
theorem inCell_rndShr_of_inAcc {v : Int} (h : InAcc (v + 32768)) : InCell (rndShr v 16) := by
  have hb := rndShr_bounds v (s := 16) (by decide)
  omega

theorem iirGain_of_fits {g : Nat} {x : Sample} (h : InAcc (g * x.toInt) ∧ InAcc (g * x.toInt + 32768)) :
    ∃ u, iirGain g x = .ok u ∧ u.toInt = rndShr (g * x.toInt) 16 := by
  rw [iirGain_eq_roundedCell]
  exact roundedCell_of_inCell h (inCell_rndShr_of_inAcc h.2)

theorem iirGain_of_not_fits {g : Nat} {x : Sample} (h : ¬(InAcc (g * x.toInt) ∧ InAcc (g * x.toInt + 32768))) :
    iirGain g x = undefined .acc40 := by
  rw [iirGain_eq_roundedCell]
  exact roundedCell_of_not_fits h

/-- A gain below 1.0 times a sample below `2^23`. -/
theorem iirGain_fits {g : Nat} {x : Sample} (hg : g ≤ 65535) (hx : Within (2 ^ 23 - 1) x) :
    InAcc (g * x.toInt) ∧ InAcc (g * x.toInt + 32768) := by
  have habs : |(g : Int) * x.toInt| ≤ 65535 * (2 ^ 23 - 1) := by
    rw [abs_mul]
    exact mul_le_mul (abs_le.mpr (by omega)) (abs_le.mpr hx) (abs_nonneg _) (by decide)
  rw [abs_le] at habs
  omega

/-- Settles O30: the product is checked, biased, checked and rounded (`iirGain_eq_roundedCell`), and then fits its cell. -/
theorem iirGainRoundsTheProduct : Obligations.IirGainRoundsTheProduct := by
  refine ⟨fun g x hg => ⟨iirGain_of_fits, iirGain_of_not_fits, iirGain_fits hg⟩, fun x => ?_, by decide, by decide,
    by decide, by decide, by decide, by decide⟩
  rw [iirGain_eq_roundedCell, Nat.cast_zero, zero_mul]
  decide

/-! ### The sections (rules R170, R180) -/

/-- The input is a whole number of units of the rounding, so it comes out of the rounding as it went in (rule R170). -/
theorem rndShr_mul_pow_add (u v : Int) (s : Nat) : rndShr (u * 2 ^ s + v) s = u + rndShr v s := by
  rw [rndShr, rndShr, asr, asr, add_assoc, Int.add_comm, Int.add_mul_ediv_right _ _ (by positivity), Int.add_comm]

theorem rndShr_zero {s : Nat} (hs : 1 ≤ s) : rndShr 0 s = 0 := by
  rw [rndShr, asr, zero_add]
  exact Int.ediv_eq_zero_of_lt (by positivity) (pow_lt_pow_right₀ (by decide) (by omega))

/-- A Direct Form II section with all coefficients 0, where it completes. -/
theorem df2Section_zero {s : Nat} (hs : 1 ≤ s) {u d1 d2 y dn : Sample}
    (h : df2Section s { b0 := 0, b1 := 0, b2 := 0, a1 := 0, a2 := 0 } u d1 d2 = .ok (y, dn)) : dn = u ∧ y = 0 := by
  rw [df2Section_eq] at h
  obtain ⟨dn, hdn, h⟩ := Exec.bind_eq_ok.mp h
  obtain ⟨y, hy, h⟩ := Exec.bind_eq_ok.mp h
  cases h
  have hdn := toInt_of_roundedCell hdn
  have hy := toInt_of_roundedCell hy
  simp only [zero_mul, sub_zero, add_zero] at hdn hy
  constructor
  · apply BitVec.eq_of_toInt_eq
    rw [hdn, ← add_zero (u.toInt * 2 ^ s), rndShr_mul_pow_add, rndShr_zero hs, add_zero]
  · apply BitVec.eq_of_toInt_eq
    rw [hy, rndShr_zero hs]
    rfl

/-- Settles O31: the section is its two rounded sums in turn (`df2Section_eq`), each of which completes or stops by its
checks. -/
theorem df2SectionFollowsItsEquations : Obligations.Df2SectionFollowsItsEquations := by
  refine ⟨fun s b u d1 d2 _ _ => ?_, fun s u d1 d2 y dn hs _ => df2Section_zero hs, by decide⟩
  intro a1 a2 a3 a4 dn c1 c2 c3 c4 y fitsA fitsC
  have hA : fitsA ↔ [a1, a2, a3, a4].Forall InAcc := Iff.rfl
  have hC : fitsC ↔ [c1, c2, c3, c4].Forall InAcc := Iff.rfl
  have hdelay : df2Delay s b u d1 d2 = roundedCell a3 s [a1, a2, a3, a4] := rfl
  have houtput : ∀ dc : Cell, dc.toInt = dn → df2Output s b dc d1 d2 = roundedCell c3 s [c1, c2, c3, c4] :=
    fun dc hdc => by rw [df2Output, hdc]
  have hrest : fitsA → InCell dn → ∃ dc : Cell, dc.toInt = dn ∧ df2Section s b u d1 d2 = (do
      let y ← roundedCell c3 s [c1, c2, c3, c4]
      .ok (y, dc)) := fun hfA hdn => by
    obtain ⟨dc, hdc, hdcv⟩ := roundedCell_of_inCell (hA.mp hfA) hdn
    exact ⟨dc, hdcv, by rw [df2Section_eq, hdelay, hdc, Exec.ok_bind, houtput dc hdcv]⟩
  refine ⟨?_, fun hfA hdn hfC hy => ?_, fun hfA => ?_, fun hfA hdn => ?_, fun hfA hdn hfC => ?_,
    fun hfA hdn hfC hy => ?_⟩
  · change rndShr (u.toInt * 2 ^ s - b.a1 * d1.toInt - b.a2 * d2.toInt) s = _
    rw [sub_sub, sub_eq_add_neg, rndShr_mul_pow_add, neg_add']
  · obtain ⟨dc, hdcv, hsection⟩ := hrest hfA hdn
    obtain ⟨yc, hyc, hycv⟩ := roundedCell_of_inCell (hC.mp hfC) hy
    exact ⟨yc, dc, by rw [hsection, hyc, Exec.ok_bind], hycv, hdcv⟩
  · rw [df2Section_eq, hdelay, roundedCell_of_not_fits (hA.not.mp hfA)]
    rfl
  · rw [df2Section_eq, hdelay, roundedCell_of_not_inCell (hA.mp hfA) hdn]
    rfl
  · obtain ⟨dc, -, hsection⟩ := hrest hfA hdn
    rw [hsection, roundedCell_of_not_fits (hC.not.mp hfC)]
    rfl
  · obtain ⟨dc, -, hsection⟩ := hrest hfA hdn
    rw [hsection, roundedCell_of_not_inCell (hC.mp hfC) hy]
    rfl

/-- Settles O32: the section is one rounded sum (`df1Section_eq_roundedCell`), which completes or stops by its checks. -/
theorem df1SectionFollowsItsEquation : Obligations.Df1SectionFollowsItsEquation := by
  refine ⟨fun s b u x1 x2 y1 y2 _ _ => ?_, fun s u x1 x2 y1 y2 hs hs' => ?_, by decide⟩
  · intro c1 c2 c3 c4 c5 y fits
    have hfits : fits ↔ [c1, c2, c3, c4, c5, c5 + 2 ^ (s - 1)].Forall InAcc := Iff.rfl
    rw [df1Section_eq_roundedCell, hfits]
    exact ⟨roundedCell_of_inCell, roundedCell_of_not_fits, roundedCell_of_not_inCell⟩
  · rw [df1Section_eq_roundedCell]
    simp only [zero_mul, sub_zero, zero_add]
    have hbias : InAcc (2 ^ (s - 1)) := by
      have hpos : (0 : Int) < 2 ^ (s - 1) := by positivity
      have hle : (2 : Int) ^ (s - 1) ≤ 2 ^ 14 := pow_le_pow_right₀ (by decide) (by omega)
      omega
    have hfits : [0, 0, 0, 0, 0, 2 ^ (s - 1)].Forall InAcc :=
      ⟨inAcc_zero, inAcc_zero, inAcc_zero, inAcc_zero, inAcc_zero, hbias⟩
    rw [roundedCell_of_fits hfits, rndShr_zero hs]
    rfl

end Sys2Proof.Machine
end

section
/-!
PROOFS. Both IIR commands in headroom (rules R176, R186, R270). A section in headroom passes its checks and keeps its bounds;
so does a cascade, whose sections hand on outputs in headroom again, and so the loop over any number of samples. The outputs
and delay values are those of the cascade of records by `df2RecordsRun_delayPairs` and `df1RecordsRun_delayPairs`.
-/

namespace Sys2Proof.Machine

/-! ### Bounds of products and rounded sums -/

theorem abs_mul_toInt_le {m : Int} {x : Sample} (hx : Within m x) (a : Int) : |a * x.toInt| ≤ mag a * m := by
  rw [abs_mul, Int.abs_eq_natAbs a]
  exact mul_le_mul_of_nonneg_left (abs_le.mpr hx) (Int.natCast_nonneg _)

/-- A sum whose bound leaves room for the bias rounds to within `m`, on both sides. -/
theorem abs_rndShr_le {v bound m : Int} {s : Nat} (hs : 1 ≤ s) (hbound : bound + 2 ^ (s - 1) ≤ m * 2 ^ s)
    (hv : |v| ≤ bound) : |rndShr v s| ≤ m := by
  have hpos : (0 : Int) < 2 ^ s := by positivity
  have hbias : (2 : Int) ^ s = 2 * 2 ^ (s - 1) := by rw [← pow_succ', Nat.sub_add_cancel hs]
  obtain ⟨hlo, hhi⟩ := rndShr_bounds v hs
  rw [abs_le] at hv ⊢
  have hle : 2 * rndShr v s - 1 < 2 * m := lt_of_mul_lt_mul_right (a := 2 ^ s) (by linarith) hpos.le
  have hge : -(2 * m) < 2 * rndShr v s + 1 := lt_of_mul_lt_mul_right (a := 2 ^ s) (by linarith) hpos.le
  omega

/-- A rounded sum in headroom completes and is within the bound. -/
theorem roundedCell_of_headroom {v bound m : Int} {s : Nat} {checks : List Int} (hs : 1 ≤ s) (hm : m ≤ 2 ^ 31 - 1)
    (hbound : bound + 2 ^ (s - 1) ≤ m * 2 ^ s) (hv : |v| ≤ bound) (hc : checks.Forall InAcc) :
    ∃ y, roundedCell v s checks = .ok y ∧ Within m y := by
  have habs := abs_le.mp (abs_rndShr_le hs hbound hv)
  obtain ⟨y, hy, hval⟩ := roundedCell_of_inCell hc (show InCell (rndShr v s) by omega)
  exact ⟨y, hy, by rwa [Within, hval]⟩

/-! ### The input gain and the sections -/

theorem iirGain_of_headroom {c : Config} {m u : Int} {x : Sample} (hroom : IirGainHeadroom c m u) (hx : Within m x) :
    ∃ v, iirGain c.iirGain x = .ok v ∧ Within u v := by
  obtain ⟨-, hacc, hu⟩ := hroom
  have hprod : |(c.iirGain : Int) * x.toInt| ≤ c.iirGain * m := abs_mul_toInt_le hx c.iirGain
  have habs := abs_le.mp hprod
  obtain ⟨v, hv, hval⟩ := iirGain_of_fits (g := c.iirGain) (x := x) (by omega)
  refine ⟨v, hv, ?_⟩
  rw [Within, hval, ← abs_le]
  exact abs_rndShr_le (by decide) hu hprod

/-- The new delay value of a section in headroom. -/
theorem df2Delay_of_headroom {s : Nat} (hs : 1 ≤ s) {b : Biquad} {u d y : Int} (hroom : Df2SectionHeadroom s u d y b)
    (hd : d ≤ 2 ^ 31 - 1) {x d1 d2 : Sample} (hx : Within u x) (hd1 : Within d d1) (hd2 : Within d d2) :
    ∃ dn, df2Delay s b x d1 d2 = .ok dn ∧ Within d dn := by
  have hbias : (0 : Int) < 2 ^ (s - 1) := by positivity
  have hpow : (0 : Int) < 2 ^ s := by positivity
  obtain ⟨hacc, hcell, -⟩ := hroom
  have hxs : |x.toInt * 2 ^ s| ≤ u * 2 ^ s := by
    rw [abs_mul, abs_of_pos hpow]
    exact mul_le_mul_of_nonneg_right (abs_le.mpr hx) hpow.le
  have h1 := abs_mul_toInt_le hd1 b.a1
  have h2 := abs_mul_toInt_le hd2 b.a2
  rw [abs_le] at hxs h1 h2
  rw [add_mul] at hacc
  refine roundedCell_of_headroom hs hd hcell ?_ ?_
  · rw [add_mul, abs_le]
    omega
  · simp only [List.Forall]
    omega

/-- The output of a section in headroom, from delay values within their bound. -/
theorem df2Output_of_headroom {s : Nat} (hs : 1 ≤ s) {b : Biquad} {u d y : Int} (hroom : Df2SectionHeadroom s u d y b)
    (hy : y ≤ 2 ^ 31 - 1) {dn d1 d2 : Sample} (hdn : Within d dn) (hd1 : Within d d1) (hd2 : Within d d2) :
    ∃ r, df2Output s b dn d1 d2 = .ok r ∧ Within y r := by
  have hbias : (0 : Int) < 2 ^ (s - 1) := by positivity
  obtain ⟨-, -, hacc, hcell⟩ := hroom
  have h0 := abs_mul_toInt_le hdn b.b0
  have h1 := abs_mul_toInt_le hd1 b.b1
  have h2 := abs_mul_toInt_le hd2 b.b2
  rw [abs_le] at h0 h1 h2
  simp only [add_mul] at hacc
  refine roundedCell_of_headroom hs hy hcell ?_ ?_
  · simp only [add_mul, abs_le]
    omega
  · simp only [List.Forall]
    omega

theorem df2Section_of_headroom {s : Nat} (hs : 1 ≤ s) {b : Biquad} {u d y : Int} (hroom : Df2SectionHeadroom s u d y b)
    (hd : d ≤ 2 ^ 31 - 1) (hy : y ≤ 2 ^ 31 - 1) {x d1 d2 : Sample} (hx : Within u x) (hd1 : Within d d1)
    (hd2 : Within d d2) : ∃ z dn, df2Section s b x d1 d2 = .ok (z, dn) ∧ Within y z ∧ Within d dn := by
  obtain ⟨dn, hdelay, hdn⟩ := df2Delay_of_headroom hs hroom hd hx hd1 hd2
  obtain ⟨z, houtput, hz⟩ := df2Output_of_headroom hs hroom hy hdn hd1 hd2
  exact ⟨z, dn, by rw [df2Section_eq, hdelay, Exec.ok_bind, houtput, Exec.ok_bind], hz, hdn⟩

theorem df1Section_of_headroom {s : Nat} (hs : 1 ≤ s) {b : Biquad} {u y : Int} (hroom : Df1SectionHeadroom s u y b)
    (hy : y ≤ 2 ^ 31 - 1) {x x1 x2 y1 y2 : Sample} (hx : Within u x) (hx1 : Within u x1) (hx2 : Within u x2)
    (hy1 : Within y y1) (hy2 : Within y y2) : ∃ r, df1Section s b x x1 x2 y1 y2 = .ok r ∧ Within y r := by
  have hbias : (0 : Int) < 2 ^ (s - 1) := by positivity
  obtain ⟨hacc, hcell⟩ := hroom
  simp only [add_mul] at hacc
  have hb0 := abs_mul_toInt_le hx b.b0
  have hb1 := abs_mul_toInt_le hx1 b.b1
  have hb2 := abs_mul_toInt_le hx2 b.b2
  have ha1 := abs_mul_toInt_le hy1 b.a1
  have ha2 := abs_mul_toInt_le hy2 b.a2
  rw [abs_le] at hb0 hb1 hb2 ha1 ha2
  rw [df1Section_eq_roundedCell]
  refine roundedCell_of_headroom hs hy hcell ?_ ?_
  · simp only [add_mul, abs_le]
    omega
  · simp only [List.Forall]
    omega

/-! ### Cells of an IIR buffer -/

theorem one_le_iirSlot (nb p j : Nat) : 1 ≤ iirSlot nb p j := Nat.le_add_left 1 _

/-- The index cell is no slot. -/
theorem cellAt_setCell_zero_iirSlot (nb p j : Nat) (b : Buffer) (v : Cell) :
    cellAt (setCell b 0 v) (iirSlot nb p j) = cellAt b (iirSlot nb p j) :=
  cellAt_setCell_of_ne v (Nat.succ_ne_zero _).symm

/-- The cell a slot names is a sample cell. -/
theorem within_cellAt_iirSlot {nb : Nat} (hn : 0 < nb) {m : Int} {b : Buffer} (hlen : b.length = 2 * nb + 1)
    (hb : CellsWithin m b) (p j : Nat) : Within m (cellAt b (iirSlot nb p j)) := by
  obtain ⟨-, hle⟩ := iirSlot_range hn p j
  exact hb _ (cellAt_mem_tail (by unfold iirSlot at hle; omega))

/-- The index cell is in no delay record. -/
theorem delayPairs_setCell_zero (nb p : Nat) (b : Buffer) (v : Cell) :
    delayPairs nb p (setCell b 0 v) = delayPairs nb p b :=
  List.map_congr_left fun i _ => by rw [cellAt_setCell_zero_iirSlot, cellAt_setCell_zero_iirSlot]

/-- A buffer whose index has been written back is read from that index, with its delay records as they were. -/
theorem delayPairs_storeIndex {nb p : Nat} {b b' : Buffer} (hb : 0 < b.length) (hp : 1 ≤ p)
    (h : storeIndex p b = .ok b') : delayPairs nb (indexOf b') b' = delayPairs nb p b := by
  obtain ⟨hread, -⟩ := storeIndex_toInt hb h
  obtain ⟨-, rfl⟩ := storeIndex_eq_ok.mp h
  have hindex : indexOf (setCell b 0 (BitVec.ofNat 32 p)) = p := by
    rw [indexOf, hread, if_neg (by omega), Int.toNat_natCast]
  rw [hindex, delayPairs_setCell_zero]

theorem iirShift_pos {c : Config} (hc : configWellFormed c = true) : 1 ≤ iirShift c := by
  obtain ⟨-, -, -, -, -, -, hiwl, -⟩ := (configWellFormed_iff c).mp hc
  unfold iirShift
  omega

theorem coef_length {c : Config} (hc : configWellFormed c = true) : c.coef.length = c.nb := by
  obtain ⟨-, -, -, -, -, hcoef, -⟩ := (configWellFormed_iff c).mp hc
  exact hcoef

theorem slots_pos {c : Config} (hc : configWellFormed c = true) : 1 ≤ 2 * c.nb := by
  have := nb_pos hc
  omega

theorem coef_ne_nil {c : Config} (hc : configWellFormed c = true) : c.coef ≠ [] :=
  List.ne_nil_of_length_pos (by rw [coef_length hc]; exact nb_pos hc)

theorem coef_chain {c : Config} (hc : configWellFormed c = true) {u y : Int} (h : c.nb = 1 ∨ y ≤ u) :
    c.coef.length ≤ 1 ∨ y ≤ u := h.imp_left fun h => by rw [coef_length hc, h]

/-- Where another section follows, the output of a section is within the bound on inputs. -/
theorem within_next_input {b : Biquad} {bs : List Biquad} {u y : Int} {z : Sample}
    (hchain : (b :: bs).length ≤ 1 ∨ y ≤ u) (hz : Within y z) :
    (bs.length ≤ 1 ∨ y ≤ u) ∧ (bs ≠ [] → Within u z) := by
  cases bs with
  | nil => exact ⟨.inl (by decide), fun h => absurd rfl h⟩
  | cons b' bs =>
    have hyu : y ≤ u := hchain.resolve_left (by simp)
    exact ⟨.inr hyu, fun _ => ⟨by omega, by omega⟩⟩

/-! ### Direct Form II -/

/-- The sections from number `i` on, in headroom. The input is within the bound on inputs where there is a section to take it,
and is itself the output where there is none. -/
theorem df2Cascade_of_headroom {s nb p : Nat} (hs : 1 ≤ s) (hn : 0 < nb) {u d y : Int} (hd : d ≤ 2 ^ 31 - 1)
    (hy : y ≤ 2 ^ 31 - 1) {bs : List Biquad} {i : Nat} {x : Sample} {buf : Buffer}
    (hroom : ∀ b ∈ bs, Df2SectionHeadroom s u d y b) (hchain : bs.length ≤ 1 ∨ y ≤ u) (hin : bs ≠ [] → Within u x)
    (hout : bs = [] → Within y x) (hlen : buf.length = 2 * nb + 1) (hbuf : CellsWithin d buf) :
    ∃ z buf', df2Cascade s nb p bs i x buf = .ok (z, buf') ∧ Within y z ∧ CellsWithin d buf' := by
  induction bs generalizing i x buf with
  | nil => exact ⟨x, buf, rfl, hout rfl, hbuf⟩
  | cons b bs ih =>
    obtain ⟨hb, hroom⟩ := List.forall_mem_cons.mp hroom
    obtain ⟨z, dn, hsection, hz, hdn⟩ := df2Section_of_headroom hs hb hd hy (hin (List.cons_ne_nil b bs))
      (within_cellAt_iirSlot hn hlen hbuf p (i + nb)) (within_cellAt_iirSlot hn hlen hbuf p i)
    obtain ⟨hchain, hin⟩ := within_next_input hchain hz
    obtain ⟨w, buf', hrest, hw, hbuf'⟩ := ih (i := i + 1) hroom hchain hin (fun _ => hz)
      ((setCell_length ..).trans hlen) (cellsWithin_setCell hbuf hdn (iirSlot nb p i))
    exact ⟨w, buf', by simp only [df2Cascade, hsection, Exec.ok_bind, hrest], hw, hbuf'⟩

/-- The loop in headroom, on any number of samples. -/
theorem df2Loop_of_headroom {c : Config} (hc : configWellFormed c = true) {m u d y : Int}
    (hroom : Df2Headroom c m u d y) {x : List Sample} {buf : Buffer} {p : Nat} (hx : ∀ v ∈ x, Within m v)
    (hlen : buf.length = 2 * c.nb + 1) (hbuf : CellsWithin d buf) :
    ∃ out buf' p', df2Loop c x buf p = .ok (out, buf', p') ∧ (∀ v ∈ out, Within y v) ∧ CellsWithin d buf' := by
  obtain ⟨hgain, hd, hy, hchain, hsections⟩ := id hroom
  induction x generalizing buf p with
  | nil => exact ⟨[], buf, p, rfl, nofun, hbuf⟩
  | cons a x ih =>
    obtain ⟨ha, hx⟩ := List.forall_mem_cons.mp hx
    obtain ⟨v, hv, hvu⟩ := iirGain_of_headroom hgain ha
    obtain ⟨z, buf1, hcascade, hz, hbuf1⟩ := df2Cascade_of_headroom (p := p) (i := 0) (iirShift_pos hc) (nb_pos hc)
      hd hy hsections (coef_chain hc hchain) (fun _ => hvu) (fun h => absurd h (coef_ne_nil hc)) hlen hbuf
    obtain ⟨out, buf2, p2, hrest, hout, hbuf2⟩ :=
      ih (p := iirSlot c.nb p c.nb) hx ((df2Cascade_length hcascade).trans hlen) hbuf1
    exact ⟨z :: out, buf2, p2, by simp only [df2Loop, hv, hcascade, hrest, Exec.ok_bind],
      List.forall_mem_cons.mpr ⟨hz, hout⟩, hbuf2⟩

/-- `IIR2` on a buffer completes in headroom and keeps the bounds. -/
theorem iir2Command_of_headroom {c : Config} (hc : configWellFormed c = true) (hfits : 2 * c.nb ≤ 2 ^ 31 - 1)
    {m u d y : Int} (hroom : Df2Headroom c m u d y) {x : List Sample} (hx : ∀ v ∈ x, Within m v) {buf : Buffer}
    (hok : BufferOk (2 * c.nb) buf) (hbuf : CellsWithin d buf) :
    ∃ out buf', iir2Command c x buf = .ok (out, buf') ∧ (∀ v ∈ out, Within y v) ∧ CellsWithin d buf' := by
  have hstart := startIndex_of_bufferOk hok
  obtain ⟨out, buf1, p1, hloop, hout, hbuf1⟩ := df2Loop_of_headroom hc hroom (p := indexOf buf) hx hok.1 hbuf
  obtain ⟨-, -, -, hp1⟩ := df2Loop_shape (nb_pos hc) (startIndex_range (slots_pos hc) hstart) hloop
  dsimp only at hp1
  have hstore : storeIndex p1 buf1 = .ok (setCell buf1 0 (BitVec.ofNat 32 p1)) := storeIndex_eq_ok.mpr ⟨by omega, rfl⟩
  exact ⟨out, _, iir2Command_eq_ok.mpr ⟨hok.1, _, buf1, p1, hstart, hloop, hstore⟩, hout,
    cellsWithin_setCell_zero hbuf1 _⟩

/-- A completed `IIR2` has the outputs and the delay values of the cascade of records. -/
theorem iir2Command_records {c : Config} (hc : configWellFormed c = true) {x : List Sample} {d : Buffer}
    {r : List Sample × Buffer} (h : iir2Command c x d = .ok r) :
    df2RecordsRun c x (delayPairs c.nb (indexOf d) d) = .ok (r.1, delayPairs c.nb (indexOf r.2) r.2) := by
  obtain ⟨hlen, p, d1, p1, hp, hloop, hst⟩ := iir2Command_eq_ok.mp h
  obtain ⟨-, hlen1, hp1, -⟩ := df2Loop_shape (nb_pos hc) (startIndex_range (slots_pos hc) hp) hloop
  rw [← startIndex_eq_indexOf hp, df2RecordsRun_delayPairs (coef_length hc) hlen, hloop,
    delayPairs_storeIndex (by dsimp only at hlen1; omega) hp1 hst]
  rfl

/-- Settles O37: completion and the bounds by `iir2Command_of_headroom`, the outputs and delay values by
`iir2Command_records`. -/
theorem iir2CompletesWithinHeadroom : Obligations.Iir2CompletesWithinHeadroom := by
  intro s ch len x m u d y hs hfits ho hx hroom hxm hcells
  obtain ⟨hc, hl⟩ := inv_iff.mp hs
  obtain ⟨-, -, hd, -⟩ := hl ch
  obtain ⟨-, -, hnb⟩ := hfits
  obtain ⟨out, buf, hcmd, hout, hbuf⟩ := iir2Command_of_headroom hc hnb hroom hxm hd hcells
  obtain ⟨houtlen, hbuflen, -⟩ := iir2Command_shape (nb_pos hc) hcmd
  exact ⟨out, buf, execIir2_eq_next.mpr ⟨hc, x, out, buf, ho, hx, hcmd, rfl⟩, houtlen.trans hx, hout, hbuf, hbuflen,
    iir2Command_records hc hcmd⟩

/-! ### Direct Form I -/

/-- The sections from number `i` on, in headroom: the feed-forward cells keep the bound on inputs, the feedback cells that on
outputs. -/
theorem df1Cascade_of_headroom {s nb pf pb : Nat} (hs : 1 ≤ s) (hn : 0 < nb) {u y : Int} (hy : y ≤ 2 ^ 31 - 1)
    {bs : List Biquad} {i : Nat} {x : Sample} {ff fb : Buffer} (hroom : ∀ b ∈ bs, Df1SectionHeadroom s u y b)
    (hchain : bs.length ≤ 1 ∨ y ≤ u) (hin : bs ≠ [] → Within u x) (hout : bs = [] → Within y x)
    (hflen : ff.length = 2 * nb + 1) (hblen : fb.length = 2 * nb + 1) (hff : CellsWithin u ff)
    (hfb : CellsWithin y fb) :
    ∃ z ff' fb', df1Cascade s nb pf pb bs i x ff fb = .ok (z, ff', fb') ∧ Within y z ∧ CellsWithin u ff' ∧
      CellsWithin y fb' := by
  induction bs generalizing i x ff fb with
  | nil => exact ⟨x, ff, fb, rfl, hout rfl, hff, hfb⟩
  | cons b bs ih =>
    obtain ⟨hb, hroom⟩ := List.forall_mem_cons.mp hroom
    have hx := hin (List.cons_ne_nil b bs)
    have hcellf := within_cellAt_iirSlot hn hflen hff pf
    have hcellb := within_cellAt_iirSlot hn hblen hfb pb
    obtain ⟨z, hsection, hz⟩ :=
      df1Section_of_headroom hs hb hy hx (hcellf (i + nb)) (hcellf i) (hcellb (i + nb)) (hcellb i)
    obtain ⟨hchain, hin⟩ := within_next_input hchain hz
    obtain ⟨w, ff', fb', hrest, hw, hff', hfb'⟩ := ih (i := i + 1) hroom hchain hin (fun _ => hz)
      ((setCell_length ..).trans hflen) ((setCell_length ..).trans hblen)
      (cellsWithin_setCell hff hx (iirSlot nb pf i)) (cellsWithin_setCell hfb hz (iirSlot nb pb i))
    exact ⟨w, ff', fb', by simp only [df1Cascade, hsection, Exec.ok_bind, hrest], hw, hff', hfb'⟩

/-- The loop in headroom, on any number of samples. -/
theorem df1Loop_of_headroom {c : Config} (hc : configWellFormed c = true) {m u y : Int} (hroom : Df1Headroom c m u y)
    {x : List Sample} {ff fb : Buffer} {pf pb : Nat} (hx : ∀ v ∈ x, Within m v) (hflen : ff.length = 2 * c.nb + 1)
    (hblen : fb.length = 2 * c.nb + 1) (hff : CellsWithin u ff) (hfb : CellsWithin y fb) :
    ∃ r, df1Loop c x ff fb pf pb = .ok r ∧ (∀ v ∈ r.y, Within y v) ∧ CellsWithin u r.ff ∧ CellsWithin y r.fb := by
  obtain ⟨hgain, hy, hchain, hsections⟩ := id hroom
  induction x generalizing ff fb pf pb with
  | nil => exact ⟨_, rfl, nofun, hff, hfb⟩
  | cons a x ih =>
    obtain ⟨ha, hx⟩ := List.forall_mem_cons.mp hx
    obtain ⟨v, hv, hvu⟩ := iirGain_of_headroom hgain ha
    obtain ⟨z, ff1, fb1, hcascade, hz, hff1, hfb1⟩ := df1Cascade_of_headroom (pf := pf) (pb := pb) (i := 0)
      (iirShift_pos hc) (nb_pos hc) hy hsections (coef_chain hc hchain) (fun _ => hvu)
      (fun h => absurd h (coef_ne_nil hc)) hflen hblen hff hfb
    obtain ⟨hflen1, hblen1⟩ := df1Cascade_length hcascade
    obtain ⟨r, hrest, hout, hr⟩ := ih (pf := iirSlot c.nb pf c.nb) (pb := iirSlot c.nb pb c.nb) hx (hflen1.trans hflen)
      (hblen1.trans hblen) hff1 hfb1
    exact ⟨{ r with y := z :: r.y }, by simp only [df1Loop, hv, hcascade, hrest, Exec.ok_bind],
      List.forall_mem_cons.mpr ⟨hz, hout⟩, hr⟩

/-- `IIR1` on its two buffers completes in headroom and keeps the bounds. -/
theorem iir1Command_of_headroom {c : Config} (hc : configWellFormed c = true) (hfits : 2 * c.nb ≤ 2 ^ 31 - 1)
    {m u y : Int} (hroom : Df1Headroom c m u y) {x : List Sample} (hx : ∀ v ∈ x, Within m v) {ff fb : Buffer}
    (hokf : BufferOk (2 * c.nb) ff) (hokb : BufferOk (2 * c.nb) fb) (hff : CellsWithin u ff) (hfb : CellsWithin y fb) :
    ∃ out ff' fb', iir1Command c x ff fb = .ok (out, ff', fb') ∧ (∀ v ∈ out, Within y v) ∧ CellsWithin u ff' ∧
      CellsWithin y fb' := by
  have hpf := startIndex_of_bufferOk hokf
  have hpb := startIndex_of_bufferOk hokb
  obtain ⟨r, hloop, hout, hff', hfb'⟩ :=
    df1Loop_of_headroom hc hroom (pf := indexOf ff) (pb := indexOf fb) hx hokf.1 hokb.1 hff hfb
  obtain ⟨-, -, -, ⟨-, hf⟩, -, hb⟩ := df1Loop_shape (nb_pos hc) (startIndex_range (slots_pos hc) hpf)
    (startIndex_range (slots_pos hc) hpb) hloop
  exact ⟨r.y, _, _, iir1Command_eq_ok.mpr ⟨hokf.1, hokb.1, _, _, r, hpf, hpb, hloop, rfl,
    storeIndex_eq_ok.mpr ⟨by omega, rfl⟩, storeIndex_eq_ok.mpr ⟨by omega, rfl⟩⟩, hout,
    cellsWithin_setCell_zero hff' _, cellsWithin_setCell_zero hfb' _⟩

/-- A completed `IIR1` has the outputs and the delay values of the cascade of records. -/
theorem iir1Command_records {c : Config} (hc : configWellFormed c = true) {x : List Sample} {ff fb : Buffer}
    {r : List Sample × Buffer × Buffer} (h : iir1Command c x ff fb = .ok r) :
    df1RecordsRun c x (delayPairs c.nb (indexOf ff) ff) (delayPairs c.nb (indexOf fb) fb) =
      .ok (r.1, delayPairs c.nb (indexOf r.2.1) r.2.1, delayPairs c.nb (indexOf r.2.2) r.2.2) := by
  obtain ⟨hflen, hblen, pf, pb, q, hpf, hpb, hloop, hy, hstf, hstb⟩ := iir1Command_eq_ok.mp h
  obtain ⟨-, hflen1, hblen1, ⟨hf, -⟩, hb, -⟩ := df1Loop_shape (nb_pos hc) (startIndex_range (slots_pos hc) hpf)
    (startIndex_range (slots_pos hc) hpb) hloop
  rw [← startIndex_eq_indexOf hpf, ← startIndex_eq_indexOf hpb, df1RecordsRun_delayPairs (coef_length hc) hflen hblen,
    hloop, hy, delayPairs_storeIndex (by omega) hf hstf, delayPairs_storeIndex (by omega) hb hstb]
  rfl

/-- Settles O38: completion and the bounds by `iir1Command_of_headroom`, the outputs and records by
`iir1Command_records`. -/
theorem iir1CompletesWithinHeadroom : Obligations.Iir1CompletesWithinHeadroom := by
  intro s ch len x m u y hs hfits ho hx hroom hxm hcellf hcellb
  obtain ⟨hc, hl⟩ := inv_iff.mp hs
  obtain ⟨-, -, -, hokf, hokb⟩ := hl ch
  obtain ⟨-, -, hnb⟩ := hfits
  obtain ⟨out, ff, fb, hcmd, hout, hff, hfb⟩ := iir1Command_of_headroom hc hnb hroom hxm hokf hokb hcellf hcellb
  obtain ⟨houtlen, ⟨hflen, -⟩, hblen, -⟩ := iir1Command_shape (nb_pos hc) hcmd
  exact ⟨out, ff, fb, execIir1_eq_next.mpr ⟨hc, x, out, ff, fb, ho, hx, hcmd, rfl⟩, houtlen.trans hx, hout, hff, hfb,
    hflen, hblen, iir1Command_records hc hcmd⟩

end Sys2Proof.Machine
end

section
/-!
PROOFS. IIR commands in turn (rule R190), of any lengths. The loops go through a joined sequence as through its parts, and
neither read nor write the index cells, so what a command writes back there only hands the working index on.
-/

namespace Sys2Proof.Machine

/-! ### The index cells -/

theorem startIndex_pos {n : Nat} {b : Buffer} {p : Nat} (h : startIndex n b = .ok p) : 1 ≤ p := by
  rw [startIndex_eq_ok] at h
  omega

/-- Whatever the number of slots, an index written back is the one read next, or none is. -/
theorem startIndex_unique_of_storeIndex {n p q : Nat} {b b' : Buffer} (hb : 0 < b.length) (hp : 1 ≤ p)
    (hst : storeIndex p b = .ok b') (h : startIndex n b' = .ok q) : p = q := by
  obtain ⟨hread, -⟩ := storeIndex_toInt hb hst
  rw [startIndex_eq_ok] at h
  omega

/-! ### Direct Form II -/

/-- The cascade neither reads nor writes the index cell. -/
theorem df2Cascade_setCell_zero (s nb p : Nat) (bs : List Biquad) (i : Nat) (u : Sample) (buf : Buffer) (v : Cell) :
    df2Cascade s nb p bs i u (setCell buf 0 v) =
      (df2Cascade s nb p bs i u buf).map fun r => (r.1, setCell r.2 0 v) := by
  induction bs generalizing i u buf with
  | nil => rfl
  | cons b bs ih =>
    simp only [df2Cascade, cellAt_setCell_zero_iirSlot, setCell_zero_comm (one_le_iirSlot nb p i), ih]
    cases df2Section s b u (cellAt buf (iirSlot nb p (i + nb))) (cellAt buf (iirSlot nb p i)) <;> rfl

theorem df2Loop_setCell_zero (c : Config) (x : List Sample) (buf : Buffer) (p : Nat) (v : Cell) :
    df2Loop c x (setCell buf 0 v) p = (df2Loop c x buf p).map fun r => (r.1, setCell r.2.1 0 v, r.2.2) := by
  induction x generalizing buf p with
  | nil => rfl
  | cons a x ih =>
    rw [df2Loop, df2Loop]
    cases iirGain c.iirGain a with
    | error e => rfl
    | ok u =>
      rw [Exec.ok_bind, Exec.ok_bind, df2Cascade_setCell_zero]
      cases df2Cascade (iirShift c) c.nb p c.coef 0 u buf with
      | error e => rfl
      | ok r =>
        simp only [Except.map, Exec.ok_bind, ih]
        cases df2Loop c x r.2 (iirSlot c.nb p c.nb) <;> rfl

/-- The loop over a joined sequence. -/
theorem df2Loop_append {c : Config} {x1 x2 : List Sample} {buf : Buffer} {p : Nat} {r1 r2 : List Sample × Buffer × Nat}
    (h1 : df2Loop c x1 buf p = .ok r1) (h2 : df2Loop c x2 r1.2.1 r1.2.2 = .ok r2) :
    df2Loop c (x1 ++ x2) buf p = .ok (r1.1 ++ r2.1, r2.2) := by
  induction x1 generalizing buf p r1 with
  | nil =>
    cases h1
    exact h2
  | cons a x1 ih =>
    obtain ⟨u, hu, h1⟩ := Exec.bind_eq_ok.mp h1
    obtain ⟨⟨y, buf1⟩, hcascade, h1⟩ := Exec.bind_eq_ok.mp h1
    obtain ⟨r, hloop, h1⟩ := Exec.bind_eq_ok.mp h1
    cases h1
    simp only [List.cons_append, df2Loop, hu, hcascade, Exec.ok_bind, ih hloop h2]

/-- The loop keeps the buffer's size and ends on a slot, for any number of sections. -/
theorem df2Loop_keeps {c : Config} {x : List Sample} {buf : Buffer} {p : Nat} (hp : 1 ≤ p)
    {r : List Sample × Buffer × Nat} (h : df2Loop c x buf p = .ok r) : r.2.1.length = buf.length ∧ 1 ≤ r.2.2 := by
  induction x generalizing buf p r with
  | nil =>
    cases h
    exact ⟨rfl, hp⟩
  | cons a x ih =>
    obtain ⟨u, -, h⟩ := Exec.bind_eq_ok.mp h
    obtain ⟨⟨y, buf1⟩, hcascade, h⟩ := Exec.bind_eq_ok.mp h
    obtain ⟨r', hloop, h⟩ := Exec.bind_eq_ok.mp h
    cases h
    exact (ih (one_le_iirSlot ..) hloop).imp_left (·.trans (df2Cascade_length hcascade))

/-- Two `IIR2` commands in turn on one buffer are one command on the joined sequence. -/
theorem iir2Command_append {c : Config} {x1 x2 y1 y2 : List Sample} {d d1 d2 : Buffer}
    (h1 : iir2Command c x1 d = .ok (y1, d1)) (h2 : iir2Command c x2 d1 = .ok (y2, d2)) :
    iir2Command c (x1 ++ x2) d = .ok (y1 ++ y2, d2) := by
  obtain ⟨hd, p, b1, p1, hp, hloop1, hst1⟩ := iir2Command_eq_ok.mp h1
  obtain ⟨-, q, b2, p2, hq, hloop2, hst2⟩ := iir2Command_eq_ok.mp h2
  obtain ⟨hlen, hp1⟩ := df2Loop_keeps (startIndex_pos hp) hloop1
  dsimp only at hlen hp1
  obtain rfl := startIndex_unique_of_storeIndex (by omega) hp1 hst1 hq
  obtain ⟨-, rfl⟩ := storeIndex_eq_ok.mp hst1
  rw [df2Loop_setCell_zero] at hloop2
  cases hloop : df2Loop c x2 b1 p1 with
  | error e => rw [hloop] at hloop2; cases hloop2
  | ok r =>
    rw [hloop] at hloop2
    cases hloop2
    rw [storeIndex_setCell_zero] at hst2
    exact iir2Command_eq_ok.mpr ⟨hd, p, r.2.1, r.2.2, hp, df2Loop_append hloop1 hloop, hst2⟩

/-! ### Direct Form I -/

/-- The cascade neither reads nor writes the index cells. -/
theorem df1Cascade_setCell_zero (s nb pf pb : Nat) (bs : List Biquad) (i : Nat) (u : Sample) (ff fb : Buffer)
    (v w : Cell) :
    df1Cascade s nb pf pb bs i u (setCell ff 0 v) (setCell fb 0 w) =
      (df1Cascade s nb pf pb bs i u ff fb).map fun r => (r.1, setCell r.2.1 0 v, setCell r.2.2 0 w) := by
  induction bs generalizing i u ff fb with
  | nil => rfl
  | cons b bs ih =>
    simp only [df1Cascade, cellAt_setCell_zero_iirSlot, setCell_zero_comm (one_le_iirSlot nb _ i), ih]
    cases df1Section s b u (cellAt ff (iirSlot nb pf (i + nb))) (cellAt ff (iirSlot nb pf i))
      (cellAt fb (iirSlot nb pb (i + nb))) (cellAt fb (iirSlot nb pb i)) <;> rfl

theorem df1Loop_setCell_zero (c : Config) (x : List Sample) (ff fb : Buffer) (pf pb : Nat) (v w : Cell) :
    df1Loop c x (setCell ff 0 v) (setCell fb 0 w) pf pb =
      (df1Loop c x ff fb pf pb).map fun r => { r with ff := setCell r.ff 0 v, fb := setCell r.fb 0 w } := by
  induction x generalizing ff fb pf pb with
  | nil => rfl
  | cons a x ih =>
    rw [df1Loop, df1Loop]
    cases iirGain c.iirGain a with
    | error e => rfl
    | ok u =>
      rw [Exec.ok_bind, Exec.ok_bind, df1Cascade_setCell_zero]
      cases df1Cascade (iirShift c) c.nb pf pb c.coef 0 u ff fb with
      | error e => rfl
      | ok r =>
        simp only [Except.map, Exec.ok_bind, ih]
        cases df1Loop c x r.2.1 r.2.2 (iirSlot c.nb pf c.nb) (iirSlot c.nb pb c.nb) <;> rfl

/-- The loop over a joined sequence. -/
theorem df1Loop_append {c : Config} {x1 x2 : List Sample} {ff fb : Buffer} {pf pb : Nat} {r1 r2 : Df1Result}
    (h1 : df1Loop c x1 ff fb pf pb = .ok r1) (h2 : df1Loop c x2 r1.ff r1.fb r1.pf r1.pb = .ok r2) :
    df1Loop c (x1 ++ x2) ff fb pf pb = .ok { r2 with y := r1.y ++ r2.y } := by
  induction x1 generalizing ff fb pf pb r1 with
  | nil =>
    cases h1
    exact h2
  | cons a x1 ih =>
    obtain ⟨u, hu, h1⟩ := Exec.bind_eq_ok.mp h1
    obtain ⟨⟨y, ff1, fb1⟩, hcascade, h1⟩ := Exec.bind_eq_ok.mp h1
    obtain ⟨r, hloop, h1⟩ := Exec.bind_eq_ok.mp h1
    cases h1
    simp only [List.cons_append, df1Loop, hu, hcascade, Exec.ok_bind, ih hloop h2]

/-- The loop keeps both sizes and ends on a slot of each buffer, for any number of sections. -/
theorem df1Loop_keeps {c : Config} {x : List Sample} {ff fb : Buffer} {pf pb : Nat} (hf : 1 ≤ pf) (hb : 1 ≤ pb)
    {r : Df1Result} (h : df1Loop c x ff fb pf pb = .ok r) :
    (r.ff.length = ff.length ∧ 1 ≤ r.pf) ∧ r.fb.length = fb.length ∧ 1 ≤ r.pb := by
  induction x generalizing ff fb pf pb r with
  | nil =>
    cases h
    exact ⟨⟨rfl, hf⟩, rfl, hb⟩
  | cons a x ih =>
    obtain ⟨u, -, h⟩ := Exec.bind_eq_ok.mp h
    obtain ⟨⟨y, ff1, fb1⟩, hcascade, h⟩ := Exec.bind_eq_ok.mp h
    obtain ⟨r', hloop, h⟩ := Exec.bind_eq_ok.mp h
    cases h
    obtain ⟨hflen, hblen⟩ := df1Cascade_length hcascade
    exact (ih (one_le_iirSlot ..) (one_le_iirSlot ..) hloop).imp (.imp_left (·.trans hflen)) (.imp_left (·.trans hblen))

/-- Two `IIR1` commands in turn on its buffers are one command on the joined sequence. -/
theorem iir1Command_append {c : Config} {x1 x2 y1 y2 : List Sample}
    {ff ff1 ff2 fb fb1 fb2 : Buffer} (h1 : iir1Command c x1 ff fb = .ok (y1, ff1, fb1))
    (h2 : iir1Command c x2 ff1 fb1 = .ok (y2, ff2, fb2)) :
    iir1Command c (x1 ++ x2) ff fb = .ok (y1 ++ y2, ff2, fb2) := by
  obtain ⟨hff, hfb, pf, pb, r1, hpf, hpb, hloop1, hy1, hstf1, hstb1⟩ := iir1Command_eq_ok.mp h1
  obtain ⟨-, -, qf, qb, r2, hqf, hqb, hloop2, hy2, hstf2, hstb2⟩ := iir1Command_eq_ok.mp h2
  obtain ⟨⟨hflen, hf⟩, hblen, hb⟩ := df1Loop_keeps (startIndex_pos hpf) (startIndex_pos hpb) hloop1
  obtain rfl := startIndex_unique_of_storeIndex (by omega) hf hstf1 hqf
  obtain rfl := startIndex_unique_of_storeIndex (by omega) hb hstb1 hqb
  obtain ⟨-, rfl⟩ := storeIndex_eq_ok.mp hstf1
  obtain ⟨-, rfl⟩ := storeIndex_eq_ok.mp hstb1
  rw [df1Loop_setCell_zero] at hloop2
  cases hloop : df1Loop c x2 r1.ff r1.fb r1.pf r1.pb with
  | error e => rw [hloop] at hloop2; cases hloop2
  | ok r =>
    rw [hloop] at hloop2
    cases hloop2
    rw [storeIndex_setCell_zero] at hstf2 hstb2
    exact iir1Command_eq_ok.mpr ⟨hff, hfb, pf, pb, _, hpf, hpb, df1Loop_append hloop1 hloop, congrArg₂ (· ++ ·) hy1 hy2,
      hstf2, hstb2⟩

/-! ### The commands -/

theorem iir2OnLane_append {c : Config} {l l1 l2 : Lane} {x1 x2 y1 y2 : List Sample}
    (h1 : iir2OnLane c l x1 = .ok (y1, l1)) (h2 : iir2OnLane c l1 x2 = .ok (y2, l2)) :
    iir2OnLane c l (x1 ++ x2) = .ok (y1 ++ y2, l2) := by
  obtain ⟨⟨_, d1⟩, hcmd1, h1⟩ := Exec.bind_eq_ok.mp h1
  cases h1
  obtain ⟨⟨_, d2⟩, hcmd2, h2⟩ := Exec.bind_eq_ok.mp h2
  cases h2
  rw [iir2OnLane, iir2Command_append hcmd1 hcmd2, Exec.ok_bind]

theorem iir1OnLane_append {c : Config} {l l1 l2 : Lane} {x1 x2 y1 y2 : List Sample}
    (h1 : iir1OnLane c l x1 = .ok (y1, l1)) (h2 : iir1OnLane c l1 x2 = .ok (y2, l2)) :
    iir1OnLane c l (x1 ++ x2) = .ok (y1 ++ y2, l2) := by
  obtain ⟨⟨_, ff1, fb1⟩, hcmd1, h1⟩ := Exec.bind_eq_ok.mp h1
  cases h1
  obtain ⟨⟨_, ff2, fb2⟩, hcmd2, h2⟩ := Exec.bind_eq_ok.mp h2
  cases h2
  rw [iir1OnLane, iir1Command_append hcmd1 hcmd2, Exec.ok_bind]

/-- Settles O39: the computations of `IIR1` and `IIR2` stream (`iir1OnLane_append`, `iir2OnLane_append`). -/
theorem iirStreamsAcrossCommands : Obligations.IirStreamsAcrossCommands := by
  intro s ch x1 x2 t1 t2 cmd hcmd h1 h2
  simp only [List.mem_cons, List.not_mem_nil, or_false] at hcmd
  obtain rfl | rfl := hcmd
  · rw [exec_iir1_eq_onLane] at h1 h2
    simp only [exec_iir1_eq_onLane]
    exact onLane_streams (f := iir1OnLane) iir1OnLane_append h1 h2
  · rw [exec_iir2_eq_onLane] at h1 h2
    simp only [exec_iir2_eq_onLane]
    exact onLane_streams (f := iir2OnLane) iir2OnLane_append h1 h2

end Sys2Proof.Machine
end

section
/-!
PROOFS. The gain stage (spec/43_gain.md). A sample passes both checks of the accumulator or is `U_ACC40` (`gainSample_eq`);
the statements on samples follow from bounds of the product (rules R201, R203), and those on `GAIN` from the samples one by
one (rule R202).
-/

namespace Sys2Proof.Machine

/-! ### One sample (rule R201) -/

/-- The product and the biased product stay inside 40 bits. -/
abbrev GainFits (g : Nat) (x : Sample) : Prop := InAcc (x.toInt * g) ∧ InAcc (x.toInt * g + 256)

/-- The stored output of a sample: the rounded product, clamped after the shift. -/
def gainOutput (g : Nat) (x : Sample) : Pcm := store16 (rndShr (x.toInt * g) 9)

theorem gainOutput_toInt (g : Nat) (x : Sample) : (gainOutput g x).toInt = sat16 (rndShr (x.toInt * g) 9) :=
  store16_toInt _

/-- All that `gain_sample` can do. -/
theorem gainSample_eq (g : Nat) (x : Sample) :
    gainSample g x = if GainFits g x then .ok (gainOutput g x) else undefined .acc40 := by
  simp only [gainSample, acc40_bind, ite_and]
  rfl

theorem gainSample_of_fits {g : Nat} {x : Sample} (h : GainFits g x) : gainSample g x = .ok (gainOutput g x) := by
  rw [gainSample_eq, if_pos h]

theorem gainSample_of_not_fits {g : Nat} {x : Sample} (h : ¬GainFits g x) : gainSample g x = undefined .acc40 := by
  rw [gainSample_eq, if_neg h]

theorem eq_gainOutput_of_gainSample {g : Nat} {x : Sample} {y : Pcm} (h : gainSample g x = .ok y) : y = gainOutput g x := by
  by_cases hfits : GainFits g x
  · rw [gainSample_of_fits hfits] at h
    cases h
    rfl
  · rw [gainSample_of_not_fits hfits] at h
    exact absurd h undefined_ne_ok

theorem abs_mul_gain_le {g : Nat} {x : Sample} {m : Int} (hg : g ≤ 65535) (hx : Within m x) :
    |x.toInt * g| ≤ 65535 * m := by
  rw [mul_comm]
  have hm : 0 ≤ m := (abs_nonneg _).trans (abs_le.mpr hx)
  have hmag : mag (g : Int) ≤ 65535 := by simpa [mag] using hg
  exact (abs_mul_toInt_le hx g).trans (mul_le_mul_of_nonneg_right hmag hm)

theorem gainFits_of_within {g : Nat} {x : Sample} (hg : g ≤ 65535) (hx : Within (2 ^ 23 - 1) x) : GainFits g x := by
  have hprod := abs_le.mp (abs_mul_gain_le hg hx)
  omega

/-- At gain 1.0 the rounded product is the input halved, half up. -/
theorem rndShr_mul_one_gain (v : Int) : rndShr (v * (256 : Nat)) 9 = asr (v + 1) 1 := by
  unfold rndShr asr
  omega

/-- Gain 0 leaves the bias alone, which shifts to 0. -/
theorem gainSample_zero_gain (x : Sample) : gainSample 0 x = .ok 0 := by
  rw [gainSample, Nat.cast_zero, mul_zero]
  decide

/-- Settles O40: `gainSample_eq` and the bound of the product `abs_mul_gain_le`. -/
theorem gainSampleRoundsThenClamps : Obligations.GainSampleRoundsThenClamps := by
  refine ⟨fun g x hg => ⟨fun h => ⟨_, gainSample_of_fits h, gainOutput_toInt g x⟩, gainSample_of_not_fits,
    gainFits_of_within hg, fun hx => ?_⟩, fun x y hy => ?_, gainSample_zero_gain, by decide⟩
  · have hrange := (nominal_iff x).mp hx
    have hprod := abs_le.mp (abs_mul_gain_le hg (show Within 131072 x by omega))
    omega
  · rw [eq_gainOutput_of_gainSample hy, gainOutput_toInt, rndShr_mul_one_gain]

/-! ### Full scale (rule R203) -/

theorem gainSample_of_gt {g : Nat} {x : Sample} (h : GainFits g x) (hv : 32767 < rndShr (x.toInt * g) 9) :
    gainSample g x = .ok 32767 := by
  rw [gainSample_of_fits h, gainOutput, store16, sat16_of_gt hv]
  rfl

theorem gainSample_of_lt {g : Nat} {x : Sample} (h : GainFits g x) (hv : rndShr (x.toInt * g) 9 < -32768) :
    gainSample g x = .ok (-32768) := by
  rw [gainSample_of_fits h, gainOutput, store16, sat16_of_lt hv]
  rfl

/-- Settles O42: the ends of S18 are multiplied out of the 16-bit range, and half of a mid-range input stays inside it. -/
theorem gainSaturatesAtFullScale : Obligations.GainSaturatesAtFullScale := by
  refine ⟨fun g hlo hhi => ⟨?_, ?_⟩, fun x hx => ?_⟩
  · refine gainSample_of_gt (gainFits_of_within hhi (by decide)) ?_
    have hx : (131071 : Sample).toInt = 131071 := by decide
    have hb := rndShr_bounds (131071 * (g : Int)) (s := 9) (by decide)
    rw [hx]
    omega
  · refine gainSample_of_lt (gainFits_of_within hhi (by decide)) ?_
    have hx : (-131072 : Sample).toInt = -131072 := by decide
    have hb := rndShr_bounds (-131072 * (g : Int)) (s := 9) (by decide)
    rw [hx]
    omega
  · refine ⟨_, gainSample_of_fits (gainFits_of_within (by decide) (by omega)), ?_⟩
    have hb := asr_bounds (x.toInt + 1) 1
    rw [gainOutput_toInt, rndShr_mul_one_gain, sat16_of_range (by omega) (by omega)]

/-! ### The command (rule R202) -/

/-- Samples that pass their checks complete together. -/
theorem gainCommand_of_fits {g : Nat} {x : List Sample} (h : ∀ a ∈ x, GainFits g a) :
    gainCommand g x = .ok (x.map (gainOutput g)) := by
  rw [gainCommand_eq_ok, List.forall₂_map_right_iff, List.forall₂_same]
  exact fun a ha => gainSample_of_fits (h a ha)

/-- A sample that leaves the accumulator stops the command: the samples before it complete or leave it too. -/
theorem gainCommand_of_undefined {g : Nat} {x : List Sample} (h : ∃ a ∈ x, gainSample g a = undefined .acc40) :
    gainCommand g x = undefined .acc40 := by
  induction x with
  | nil => simp at h
  | cons a x ih =>
    by_cases ha : GainFits g a
    · have htail : ∃ b ∈ x, gainSample g b = undefined .acc40 := by
        simpa [gainSample_of_fits ha, undefined] using h
      rw [gainCommand, gainSample_of_fits ha, Exec.ok_bind, ih htail]
      rfl
    · rw [gainCommand, gainSample_of_not_fits ha]
      rfl

theorem gainCommand_append {g : Nat} {x1 x2 : List Sample} {y1 y2 : List Pcm} (h1 : gainCommand g x1 = .ok y1)
    (h2 : gainCommand g x2 = .ok y2) : gainCommand g (x1 ++ x2) = .ok (y1 ++ y2) := by
  rw [gainCommand_eq_ok] at h1 h2 ⊢
  exact List.rel_append h1 h2

section Command
variable {s : State} {x : List Sample} (hc : configWellFormed s.config = true) (ho : s.operands = .samples x)
include hc

theorem digGain_le : s.config.digGain ≤ 65535 := by
  obtain ⟨-, -, -, -, -, -, -, -, -, -, -, hg⟩ := (configWellFormed_iff s.config).mp hc
  exact hg

include ho

theorem exec_gain_of_ok {y : List Pcm} (hy : gainCommand s.config.digGain x = .ok y) :
    exec (.gain x.length) s = .next (s.answer (.pcm y)) :=
  execGain_eq_next.mpr ⟨hc, x, y, ho, rfl, hy, rfl⟩

/-- A fault of the computation is the fault of `GAIN`. -/
theorem exec_gain_of_undefined {e : Fault} (hf : gainCommand s.config.digGain x = undefined e) :
    exec (.gain x.length) s = .fault e := by
  rw [exec, execGain, takeSamples_eq_ok.mpr ⟨hc, ho, rfl⟩, Exec.ok_bind, hf]
  rfl

end Command

/-- Settles O41: `GAIN` ends as its computation does, and the computation as its samples do one by one. -/
theorem gainCommandMapsEverySample : Obligations.GainCommandMapsEverySample := by
  refine ⟨?_, fun s hc ho => exec_gain_of_ok hc ho rfl, fun _ _ _ _ _ => gainCommand_append, by decide, by decide⟩
  rintro s _ x hc ho rfl
  refine ⟨fun y hy => exec_gain_of_ok hc ho (gainCommand_eq_ok.mpr hy),
    fun h => exec_gain_of_undefined hc ho (gainCommand_of_undefined h), fun hx => ?_⟩
  have hfits : ∀ a ∈ x, GainFits s.config.digGain a := fun a ha => gainFits_of_within (digGain_le hc) (hx a ha)
  refine ⟨_, exec_gain_of_ok hc ho (gainCommand_of_fits hfits), ?_⟩
  rw [List.forall₂_map_right_iff, List.forall₂_same]
  exact fun a _ => gainOutput_toInt _ a

end Sys2Proof.Machine
end

section
/-!
PROOFS. The housekeeping commands `NOP` and `RESET` (rules R210, R214).
-/

namespace Sys2Proof.Machine

/-- Settles O43: `NOP` takes no operands, so there is nothing to consume. -/
theorem nopLeavesEverythingAlone : Obligations.NopLeavesEverythingAlone :=
  ⟨by decide, fun _ hc ho => execNop_eq_next.mpr ⟨hc, ho, (consumed_of_none ho).symm⟩⟩

/-- Settles O44: the lanes are those of reset, whose cells are all 0 (`resetStateIsAllZero`), and `CIC` answers from zero cells
as in its worked example (`cicCommandRunsBothLanes`). -/
theorem resetCommandClearsBothLanes : Obligations.ResetCommandClearsBothLanes := by
  refine ⟨by decide, fun s hc ho => ⟨_, execReset_eq_next.mpr ⟨hc, ho, rfl⟩, rfl, fun l hl => ?_, ?_⟩⟩
  · obtain ⟨-, hreset⟩ := resetStateIsAllZero s.config
    obtain ⟨hzero, -⟩ := hreset l hl
    exact hzero
  · obtain ⟨-, -, -, hexample⟩ := cicCommandRunsBothLanes
    obtain ⟨u, hu, hout, -⟩ := hexample { State.resetWith s.config with
      pending := s.pending, outputs := s.outputs, operands := .pdm [0xFFFFFFFF] [0x00000000] } hc rfl rfl rfl
    exact ⟨u, hu, hout⟩

end Sys2Proof.Machine
end

section
/-!
PROOFS. `FRAME` as its unit commands (rule R212). A lane's chain is the computations of its units in turn
(`chainLane_eq_units`), and the command of a unit completes exactly when its computation does (`Computes`); so the unit commands
issued one by one compute the chain (`computes_chainLane`), which is what `FRAME` runs on each lane.
-/

namespace Sys2Proof.Machine

/-! ### What a command computes on a lane -/

/-- State `b` is state `a` with lane `ch` now `l`, the host's side of the interface aside. -/
structure LaneWritten (ch : Chan) (l : Lane) (a b : State) : Prop where
  config : b.config = a.config
  lane : b.lane ch = l
  other : b.lane (otherLane ch) = a.lane (otherLane ch)

theorem laneWritten_refl (ch : Chan) (a : State) : LaneWritten ch (a.lane ch) a a := ⟨rfl, rfl, rfl⟩

theorem LaneWritten.trans {ch : Chan} {l l' : Lane} {a b c : State} (h : LaneWritten ch l a b)
    (h' : LaneWritten ch l' b c) : LaneWritten ch l' a c :=
  ⟨h'.config.trans h.config, h'.lane, h'.other.trans h.other⟩

theorem laneWritten_setLane (ch : Chan) (l : Lane) (a : State) (o : Output) :
    LaneWritten ch l a ((a.setLane ch l).answer o) :=
  ⟨by simp, by simp, by simp [setLane_lane_of_ne, otherLane_ne]⟩

theorem laneWritten_answer (ch : Chan) (a : State) (o : Output) : LaneWritten ch (a.lane ch) a (a.answer o) :=
  ⟨rfl, answer_lane .., answer_lane ..⟩

/-- The relation `run` on states and results is computation `f` on lane `ch`: it leads to a result exactly when `f` gives that
result, and then to states in which `ch` is the lane `f` gives and nothing else of the block has changed. -/
structure Computes {α : Type} (ch : Chan) (run : State → α → State → Prop) (f : Config → Lane → Exec (α × Lane)) :
    Prop where
  complete : ∀ {a y l}, configWellFormed a.config = true → f a.config (a.lane ch) = .ok (y, l) →
    ∃ b, run a y b ∧ LaneWritten ch l a b
  sound : ∀ {a y b}, configWellFormed a.config = true → run a y b →
    ∃ l, f a.config (a.lane ch) = .ok (y, l) ∧ LaneWritten ch l a b

/-- Relations run in turn, the second on the result of the first, are the computations in turn. -/
theorem Computes.bind {α β : Type} {ch : Chan} {run : State → α → State → Prop} {run' : α → State → β → State → Prop}
    {f : Config → Lane → Exec (α × Lane)} {f' : α → Config → Lane → Exec (β × Lane)} (h : Computes ch run f)
    (h' : ∀ {c l y l'}, configWellFormed c = true → f c l = .ok (y, l') → Computes ch (run' y) (f' y)) :
    Computes ch (fun a z c => ∃ y b, run a y b ∧ run' y b z c) (fun c l => f c l >>= fun r => f' r.1 c r.2) where
  complete {a z l} hc hf := by
    obtain ⟨⟨y, l1⟩, hf1, hf2⟩ := Exec.bind_eq_ok.mp hf
    obtain ⟨b, hrun, hw⟩ := h.complete hc hf1
    obtain ⟨c, hrun', hw'⟩ := (h' hc hf1).complete (a := b) (hw.config ▸ hc) (by rwa [hw.config, hw.lane])
    exact ⟨c, ⟨y, b, hrun, hrun'⟩, hw.trans hw'⟩
  sound {a z c} hc := by
    rintro ⟨y, b, hrun, hrun'⟩
    obtain ⟨l1, hf1, hw⟩ := h.sound hc hrun
    obtain ⟨l, hf2, hw'⟩ := (h' hc hf1).sound (hw.config ▸ hc) hrun'
    rw [hw.config, hw.lane] at hf2
    exact ⟨l, by rw [hf1, Exec.ok_bind, hf2], hw.trans hw'⟩

/-! ### The unit commands of a lane -/

/-- Command `i`, given `x`, completes in state `b` and returns `o`. -/
def Returns (i : Instr) (x : List Sample) (a : State) (o : Output) (b : State) : Prop :=
  exec i { a with operands := .samples x } = .next b ∧ b.outputs = a.outputs ++ [o]

/-- The computation of `GAIN` (rule R202), which leaves the lane as it is. -/
def gainOnLane (x : List Sample) (c : Config) (l : Lane) : Exec (List Pcm × Lane) := do
  let y ← gainCommand c.digGain x
  .ok (y, l)

section Units
variable {ch : Chan} {n : Nat} {x : List Sample} (hx : x.length = n)
include hx

theorem computes_onLane {i : Instr} {f : LaneComputation} (hi : ∀ s, exec i s = onLane ch n f s) :
    Computes ch (fun a y b => Returns i x a (.samples y) b) (fun c l => f c l x) where
  complete {a y l} hc hf := by
    refine ⟨(a.setLane ch l).answer (.samples y), ⟨?_, by simp⟩, laneWritten_setLane ..⟩
    rw [hi, onLane_eq_next]
    exact ⟨hc, x, y, l, rfl, hx, by cases ch <;> exact hf, by cases ch <;> rfl⟩
  sound {a y b} hc := by
    rintro ⟨hrun, hout⟩
    rw [hi] at hrun
    obtain ⟨-, _, y', l, ⟨⟩, -, hf, rfl⟩ := onLane_eq_next.mp hrun
    obtain rfl : y' = y := by simpa using hout
    exact ⟨l, by cases ch <;> exact hf, by cases ch <;> exact ⟨rfl, rfl, rfl⟩⟩

theorem computes_gain : Computes ch (fun a y b => Returns (.gain n) x a (.pcm y) b) (gainOnLane x) where
  complete {a y l} hc hf := by
    obtain ⟨_, hg, ⟨⟩⟩ := Exec.bind_eq_ok.mp hf
    exact ⟨a.answer (.pcm y), ⟨execGain_eq_next.mpr ⟨hc, x, y, rfl, hx, hg, rfl⟩, rfl⟩, laneWritten_answer ..⟩
  sound {a y b} hc := by
    rintro ⟨hrun, hout⟩
    obtain ⟨-, _, y', ⟨⟩, -, hg, rfl⟩ := execGain_eq_next.mp hrun
    obtain rfl : y' = y := by simpa using hout
    exact ⟨_, by rw [gainOnLane, hg, Exec.ok_bind], laneWritten_answer ..⟩

/-- The IIR command `IIR_MODE` selects computes the IIR stage of `FRAME`. -/
theorem computes_iirStage : Computes ch (fun a y b => IirStageRuns ch n x y a b) (fun c l => chainIir c x l) where
  complete {a y l} hc hf := by
    unfold chainIir at hf
    unfold IirStageRuns
    cases hmode : a.config.iirMode with
    | bypass =>
      rw [hmode] at hf
      cases hf
      exact ⟨a, ⟨rfl, rfl⟩, laneWritten_refl ..⟩
    | df1 =>
      rw [hmode] at hf
      exact (computes_onLane hx (exec_iir1_eq_onLane ch n)).complete hc hf
    | df2 =>
      rw [hmode] at hf
      exact (computes_onLane hx (exec_iir2_eq_onLane ch n)).complete hc hf
  sound {a y b} hc hrun := by
    unfold IirStageRuns at hrun
    unfold chainIir
    cases hmode : a.config.iirMode with
    | bypass =>
      rw [hmode] at hrun
      obtain ⟨rfl, rfl⟩ := hrun
      exact ⟨_, rfl, laneWritten_refl ..⟩
    | df1 =>
      rw [hmode] at hrun
      exact (computes_onLane hx (exec_iir1_eq_onLane ch n)).sound hc hrun
    | df2 =>
      rw [hmode] at hrun
      exact (computes_onLane hx (exec_iir2_eq_onLane ch n)).sound hc hrun

end Units

/-! ### The chain of a lane -/

/-- The chain is the computations of its units in turn, each on the lane and the samples the one before gives. -/
theorem chainLane_eq_units (c : Config) (x : List Sample) (l : Lane) :
    chainLane c x l = firOnLane .one c l x >>= fun r1 => firOnLane .two c r1.2 r1.1 >>= fun r2 =>
      chainIir c r2.1 r2.2 >>= fun r3 => gainOnLane r3.1 c r3.2 := by
  simp only [chainLane, firOnLane, gainOnLane, bind_assoc, Exec.ok_bind]
  rfl

/-- The unit commands of a lane, issued one by one, compute its chain. -/
theorem computes_chainLane {ch : Chan} {len : Nat} {x : List Sample} (hx : x.length = 2 * len) :
    Computes ch (fun a pcm b => UnitCommandsRun ch len x a b pcm) (fun c l => chainLane c x l) := by
  have hchain := (computes_onLane hx (exec_fir_eq_onLane .one ch (2 * len))).bind fun {_ _ f1 _} _ h1 =>
    have hf1 : f1.length = len := by
      obtain ⟨-, hlen, -⟩ := firOnLane_returns h1
      omega
    (computes_onLane hf1 (exec_fir_eq_onLane .two ch len)).bind fun {_ _ f2 _} _ h2 =>
      have hf2 : f2.length = len / 2 := by
        obtain ⟨-, hlen, -⟩ := firOnLane_returns h2
        omega
      (computes_iirStage (ch := ch) hf2).bind fun {_ _ g _} hc h3 =>
        have hg : g.length = len / 2 := by
          obtain ⟨hlen, -⟩ := chainIir_returns hc h3
          omega
        computes_gain (ch := ch) hg
  simp only [← chainLane_eq_units] at hchain
  refine ⟨fun hc hf => ?_, fun hc hrun => ?_⟩
  · obtain ⟨b, ⟨f1, a1, ⟨e1, o1⟩, f2, a2, ⟨e2, o2⟩, g, a3, e3, e4, o4⟩, hw⟩ := hchain.complete hc hf
    exact ⟨b, ⟨a1, a2, a3, f1, f2, g, e1, o1, e2, o2, e3, e4, o4⟩, hw⟩
  · obtain ⟨a1, a2, a3, f1, f2, g, e1, o1, e2, o2, e3, e4, o4⟩ := hrun
    exact hchain.sound hc ⟨f1, a1, ⟨e1, o1⟩, f2, a2, ⟨e2, o2⟩, g, a3, e3, e4, o4⟩

/-! ### FRAME (rule R212) -/

/-- `FRAME` with an even count completes exactly when both lanes do, each its words through the CIC and the chain. -/
theorem exec_frame_iff {s t : State} {len : Nat} {inL inR : List Pdm} (hc : configWellFormed s.config = true)
    (heven : len % 2 = 0) (ho : s.operands = .pdm inL inR) (hL : inL.length = len) (hR : inR.length = len) :
    exec (.frame len) s = .next t ↔
      ∃ pcmL left pcmR right, frameLane s.config inL s.left = .ok (pcmL, left) ∧
        frameLane s.config inR s.right = .ok (pcmR, right) ∧
        t = ({ s with left := left, right := right } : State).answer (.frame pcmL pcmR) := by
  rw [exec, execFrame_eq_next]
  constructor
  · rintro ⟨-, -, l, r, pcmL, left, pcmR, right, ho', -, -, hl, hr, rfl⟩
    cases ho.symm.trans ho'
    exact ⟨pcmL, left, pcmR, right, hl, hr, rfl⟩
  · rintro ⟨pcmL, left, pcmR, right, hl, hr, rfl⟩
    exact ⟨hc, heven, inL, inR, pcmL, left, pcmR, right, ho, hL, hR, hl, hr, rfl⟩

section BothLanes
variable {a c : State} {len : Nat} {xL xR : List Sample} {pcmL pcmR : List Pcm}
  (hc : configWellFormed a.config = true) (hL : xL.length = 2 * len) (hR : xR.length = 2 * len)
include hc hL hR

/-- Where the chains of both lanes complete, the unit commands of lane `L` and then those of lane `R` do. -/
theorem unitCommandsRun_of_chains {left right : Lane} (hl : chainLane a.config xL a.left = .ok (pcmL, left))
    (hr : chainLane a.config xR a.right = .ok (pcmR, right)) :
    ∃ b c, UnitCommandsRun .L len xL a b pcmL ∧ UnitCommandsRun .R len xR b c pcmR ∧ c.left = left ∧
      c.right = right := by
  obtain ⟨b, hrunL, hconfig, hleft, hother⟩ := (computes_chainLane (ch := .L) hL).complete hc hl
  have hr' : chainLane b.config xR (b.lane .R) = .ok (pcmR, right) := by
    rwa [hconfig, show b.lane .R = a.right from hother]
  obtain ⟨c, hrunR, -, hright, hother'⟩ := (computes_chainLane hR).complete (hconfig ▸ hc) hr'
  exact ⟨b, c, hrunL, hrunR, hother'.trans hleft, hright⟩

/-- The unit commands of lane `L` and then of lane `R` complete only where the chains of both lanes do, and leave the lanes
those do. -/
theorem chains_of_unitCommandsRun {b : State} (hrunL : UnitCommandsRun .L len xL a b pcmL)
    (hrunR : UnitCommandsRun .R len xR b c pcmR) :
    chainLane a.config xL a.left = .ok (pcmL, c.left) ∧ chainLane a.config xR a.right = .ok (pcmR, c.right) := by
  obtain ⟨left, hl, hconfig, hleft, hother⟩ := (computes_chainLane hL).sound hc hrunL
  obtain ⟨right, hr, -, hright, hother'⟩ := (computes_chainLane hR).sound (hconfig ▸ hc) hrunR
  rw [hconfig, show b.lane .R = a.right from hother] at hr
  rw [show c.left = left from hother'.trans hleft, show c.right = right from hright]
  exact ⟨hl, hr⟩

end BothLanes

/-- Settles O45: after `CIC` (`exec_cic_lanes`) both sides are the chains of the two lanes, on the side of `FRAME` by
`exec_frame_iff` and on that of the unit commands by `unitCommandsRun_of_chains` and `chains_of_unitCommandsRun`. -/
theorem frameIsItsUnitCommands : Obligations.FrameIsItsUnitCommands := by
  intro s len inL inR hc heven ho hL hR
  have hxL : (cicRun inL s.left.cic).1.length = 2 * len := by rw [cicRun_length, hL]
  have hxR : (cicRun inR s.right.cic).1.length = 2 * len := by rw [cicRun_length, hR]
  have hcic : ∀ {a}, exec (.cic len) s = .next a → configWellFormed a.config = true ∧
      a.outputs = s.outputs ++ [.cic (cicRun inL s.left.cic).1 (cicRun inR s.right.cic).1] ∧
      frameLane s.config inL s.left = chainLane a.config (cicRun inL s.left.cic).1 a.left ∧
      frameLane s.config inR s.right = chainLane a.config (cicRun inR s.right.cic).1 a.right := by
    intro a ha
    obtain ⟨hout, hleft, hright⟩ := exec_cic_lanes ho ha
    obtain ⟨-, -, -, hconfig, -⟩ := exec_keeps ha
    rw [hconfig, hleft, hright]
    exact ⟨hc, hout, rfl, rfl⟩
  refine ⟨fun t ht => ?_, fun a b c cL cR pcmL pcmR ha hout hrunL hrunR => ?_⟩
  · obtain ⟨pcmL, left, pcmR, right, hl, hr, rfl⟩ := (exec_frame_iff hc heven ho hL hR).mp ht
    have ha := exec_cic hc ho hL hR
    obtain ⟨hca, hout, hframeL, hframeR⟩ := hcic ha
    rw [hframeL] at hl
    rw [hframeR] at hr
    obtain ⟨b, c, hrunL, hrunR, hleft, hright⟩ := unitCommandsRun_of_chains hca hxL hxR hl hr
    exact ⟨_, b, c, _, _, pcmL, pcmR, ha, hout, hrunL, hrunR, hleft.symm, hright.symm, rfl⟩
  · obtain ⟨hca, hout', hframeL, hframeR⟩ := hcic ha
    obtain ⟨rfl, rfl⟩ : cL = _ ∧ cR = _ := by simpa using hout.symm.trans hout'
    obtain ⟨hl, hr⟩ := chains_of_unitCommandsRun hca hxL hxR hrunL hrunR
    exact (exec_frame_iff hc heven ho hL hR).mpr ⟨pcmL, c.left, pcmR, c.right, hframeL.trans hl, hframeR.trans hr, rfl⟩

end Sys2Proof.Machine
end

section
/-!
PROOFS. The chain of a lane in headroom (rules R212, R270): each unit completes and hands the next samples within the bound the
next one takes.
-/

namespace Sys2Proof.Machine

/-- Samples in the headroom of the gain stage complete. -/
theorem gainCommand_of_headroom {c : Config} {k : Int} (hroom : GainHeadroom c k) {x : List Sample}
    (hx : ∀ v ∈ x, Within k v) : gainCommand c.digGain x = .ok (x.map (gainOutput c.digGain)) := by
  refine gainCommand_of_fits fun v hv => ?_
  have hprod : |(c.digGain : Int) * v.toInt| ≤ c.digGain * k := abs_mul_toInt_le (hx v hv) c.digGain
  obtain ⟨-, hacc⟩ := hroom
  rw [mul_comm (c.digGain : Int) v.toInt, mul_comm (c.digGain : Int) k, abs_le] at hprod
  omega

/-- The IIR stage and the gain have headroom on a lane for samples up to `w`, whichever form `IIR_MODE` selects. -/
structure TailHeadroom (c : Config) (l : Lane) (w u d y : Int) : Prop where
  bypass : c.iirMode = .bypass → GainHeadroom c w
  df1 : c.iirMode = .df1 → Df1Headroom c w u y ∧ GainHeadroom c y ∧ CellsWithin u l.ff ∧ CellsWithin y l.fb
  df2 : c.iirMode = .df2 → Df2Headroom c w u d y ∧ GainHeadroom c y ∧ CellsWithin d l.d

/-- The units after the CIC have headroom on a lane for samples up to `m`. -/
structure ChainHeadroom (c : Config) (l : Lane) (m v w u d y : Int) : Prop where
  fir1 : FirHeadroom c.h1 m v ∧ CellsWithin m l.fir1
  fir2 : FirHeadroom c.h2 v w ∧ CellsWithin v l.fir2
  tail : TailHeadroom c l w u d y

section Headroom
variable {c : Config} (hc : configWellFormed c = true) (hfits : IndicesFit c) {l : Lane} (hl : LaneOk c l)
  {m v w u d y : Int} {x : List Sample}
include hc hfits hl

/-- In headroom the IIR stage completes, with outputs in the headroom of the gain stage. -/
theorem chainIir_of_headroom (hroom : TailHeadroom c l w u d y) (hx : ∀ a ∈ x, Within w a) :
    ∃ out l' k, chainIir c x l = .ok (out, l') ∧ GainHeadroom c k ∧ ∀ a ∈ out, Within k a := by
  obtain ⟨-, -, hnb⟩ := hfits
  obtain ⟨-, -, hokd, hokff, hokfb⟩ := hl
  cases hmode : c.iirMode with
  | bypass => exact ⟨x, l, w, chainIir_eq_ok.mpr (.inl ⟨hmode, rfl⟩), hroom.bypass hmode, hx⟩
  | df1 =>
    obtain ⟨hiir, hgain, hff, hfb⟩ := hroom.df1 hmode
    obtain ⟨out, ff, fb, hcmd, hout, -⟩ := iir1Command_of_headroom hc hnb hiir hx hokff hokfb hff hfb
    exact ⟨out, _, y, chainIir_eq_ok.mpr (.inr (.inl ⟨hmode, ff, fb, hcmd, rfl⟩)), hgain, hout⟩
  | df2 =>
    obtain ⟨hiir, hgain, hd⟩ := hroom.df2 hmode
    obtain ⟨out, d', hcmd, hout, -⟩ := iir2Command_of_headroom hc hnb hiir hx hokd hd
    exact ⟨out, _, y, chainIir_eq_ok.mpr (.inr (.inr ⟨hmode, d', hcmd, rfl⟩)), hgain, hout⟩

/-- In headroom the chain of a lane completes. -/
theorem chainLane_of_headroom (hroom : ChainHeadroom c l m v w u d y) (hlen : x.length % 4 = 0)
    (hx : ∀ a ∈ x, Within m a) : ∃ pcm l', chainLane c x l = .ok (pcm, l') := by
  obtain ⟨⟨hroom1, hcells1⟩, ⟨hroom2, hcells2⟩, hbypass, hdf1, hdf2⟩ := hroom
  obtain ⟨f1, h1, -, hf1, -⟩ := firCommand_of_headroom (laneOk_fir hl .one) (taps_length hc .one)
    (tapCount_fits hfits .one) (by omega) hroom1 hcells1 hx
  have hl1 := laneOk_of_firCommand (st := .one) hl h1
  have hlen1 : f1.length = x.length / 2 := (firCommand_shape h1).1
  obtain ⟨f2, h2, -, hf2, -⟩ := firCommand_of_headroom (laneOk_fir hl .two) (taps_length hc .two)
    (tapCount_fits hfits .two) (by omega) hroom2 hcells2 hf1
  have hl2 := laneOk_of_firCommand (st := .two) hl1 h2
  obtain ⟨g, l', k, h3, hgain, hg⟩ := chainIir_of_headroom hc hfits hl2 ⟨hbypass, hdf1, hdf2⟩ hf2
  exact ⟨_, l', chainLane_eq_ok.mpr ⟨f1, _, f2, _, g, h1, h2, h3, gainCommand_of_headroom hgain hg⟩⟩

end Headroom

/-- Settles O46: each lane's chain completes (`chainLane_of_headroom`), and so `FRAME` does (`exec_frame_iff`). -/
theorem frameCompletesWithinHeadroom : Obligations.FrameCompletesWithinHeadroom := by
  intro s len inL inR m v w u d y hs hfits heven ho hL hR hmL hmR hroom1 hroom2 hfir hbypass hdf1 hdf2
  obtain ⟨hc, hokL, hokR⟩ := hs
  have hlane : ∀ l ∈ [s.left, s.right], LaneOk s.config l → ∀ ws : List Pdm, ws.length = len →
      (∀ a ∈ (cicRun ws l.cic).1, Within m a) → ∃ pcm l', frameLane s.config ws l = .ok (pcm, l') := by
    intro l hl hok ws hws hm
    obtain ⟨hcells1, hcells2⟩ := hfir l hl
    have hroom : ChainHeadroom s.config { l with cic := (cicRun ws l.cic).2 } m v w u d y :=
      ⟨⟨hroom1, hcells1⟩, ⟨hroom2, hcells2⟩, hbypass, fun h => (hdf1 h).imp_right (.imp_right (· l hl)),
        fun h => (hdf2 h).imp_right (.imp_right (· l hl))⟩
    exact chainLane_of_headroom hc hfits (laneOk_withCic hok _) hroom (by rw [cicRun_length]; omega) hm
  obtain ⟨pcmL, left, hl⟩ := hlane s.left (by simp) hokL inL hL hmL
  obtain ⟨pcmR, right, hr⟩ := hlane s.right (by simp) hokR inR hR hmR
  obtain ⟨hpcmL, -⟩ := frameLane_returns hc hl
  obtain ⟨hpcmR, -⟩ := frameLane_returns hc hr
  exact ⟨left, right, pcmL, pcmR, (exec_frame_iff hc heven ho hL hR).mpr ⟨pcmL, left, pcmR, right, hl, hr, rfl⟩, hl, hr,
    hL ▸ hpcmL, hR ▸ hpcmR⟩

end Sys2Proof.Machine
end

section
/-!
PROOFS. The block between commands (spec/70_reset_and_hazards.md section 2, rule R275): with nothing pending it waits.
-/

namespace Sys2Proof.Machine

/-- Settles O8: of the two ways a step answers a next state (`step_eq_next`), the one with nothing pending. -/
theorem blockWithoutCommandsWaits : Obligations.BlockWithoutCommandsWaits :=
  fun _ hc hp => step_eq_next.mpr ⟨hc, .inl ⟨hp, rfl⟩⟩

end Sys2Proof.Machine
end

section
/-!
PROOFS. The command words the spec writes out (spec/95_test_vectors.md 2.2, T-ENC-1): each is the encoding of its command.
-/

namespace Sys2Proof

open Machine

theorem decode_of_encode_eq {w : Word} {i : Instr} (hi : i.wellFormed = true) (hw : encode i = w) : decode w = .ok i :=
  hw ▸ encodeThenDecode i hi

/-- Settles O5: each of the nine words is the encoding of a well-formed command (`decode_of_encode_eq`). -/
theorem specWordsDecode : Obligations.SpecWordsDecode :=
  ⟨decode_of_encode_eq rfl rfl, decode_of_encode_eq rfl rfl, decode_of_encode_eq rfl rfl, decode_of_encode_eq rfl rfl,
    decode_of_encode_eq rfl rfl, decode_of_encode_eq rfl rfl, decode_of_encode_eq rfl rfl, decode_of_encode_eq rfl rfl,
    decode_of_encode_eq rfl rfl⟩

end Sys2Proof
end
